-- ==== Sys2Proof/Word.lean ====
section
/-! DEFINITION. The one machine word of this hardware: the 8-bit byte (spec/00_scope.md R3, R5; spec/20_memory.md R46). -/

namespace Sys2Proof

/-- A byte: an unsigned value `0..255`, bit 7 the most significant (R5, R46). Every field of every token is one byte (R45). -/
abbrev Byte := BitVec 8

end Sys2Proof
end

