-- ==== Sys2Proof/Config.lean ====
section
/-! DEFINITION. What is fixed for one machine: the constants of spec/00_scope.md R3, the open parameters of R4, and the
free values (opaque constants without a body: nothing in Lean can evaluate one). -/

namespace Sys2Proof.Config

/-- `WINDOW_SIZE = 20`, "a fixed constant (not configurable)" (R3). -/
def windowSize : Nat := 20

/-- `MAX_RUN = 255` (R3). -/
def maxRun : Nat := 255

/-- `MAX_MATCH = 255` (R3). -/
def maxMatch : Nat := 255

/-- `MIN_MATCH = 3` (R3). -/
def minMatch : Nat := 3

/-- `TAG_LITERAL = 0x00` (R3, R62). -/
def tagLiteral : Byte := 0x00

/-- `TAG_MATCH = 0x01` (R3, R63). -/
def tagMatch : Byte := 0x01

/-- The open parameters of R4 (decision D9 of spec/92_eei_decisions.md); `none` stands for infinity.
They are plain data that `State` carries and no step changes, so that every statement holds for every choice. -/
structure Params where
  /-- `IN_CAP`, the number of cells of `IN`. -/
  inCap : Option Nat
  /-- `OUT_CAP`, the number of cells of `OUT`. -/
  outCap : Option Nat
  /-- `LEN_W`, the width of the length and cursor registers. -/
  lenW : Option Nat
deriving DecidableEq, Repr

/-- The default reading of R4: `IN_CAP = OUT_CAP = infinity`, lengths are natural numbers. -/
def unbounded : Params := ⟨none, none, none⟩

/-- `n` is at most the capacity (`none` is infinity). -/
def withinCap (cap : Option Nat) (n : Nat) : Bool :=
  match cap with
  | none => true
  | some c => n ≤ c

/-- A cell of index `i` exists in a memory of this capacity: the cells are `0 .. cap - 1` (R28, R29). -/
def cellExists (cap : Option Nat) (i : Nat) : Bool :=
  match cap with
  | none => true
  | some c => i < c

/-- A value fits a register of `LEN_W` bits. -/
def fitsLenW (lenW : Option Nat) (n : Nat) : Bool :=
  match lenW with
  | none => true
  | some w => n < 2 ^ w

/-- The constraint of R4: `IN_CAP < 2^LEN_W` and `OUT_CAP < 2^LEN_W`.
DEDUCED (log entry 5): `LEN_W` is at least 8, because `ERR_INFO0` and `ERR_INFO1` hold a whole byte (R164). -/
def Params.wf (p : Params) : Bool :=
  match p.lenW with
  | none => true
  | some w =>
    8 ≤ w &&
      match p.inCap, p.outCap with
      | some i, some o => i < 2 ^ w && o < 2 ^ w
      | _, _ => false

/-- Free value: the content of a cell of `IN` that nothing has written since reset number `r`
(R28, R31; U9 of spec/93_implementation_defined.md: any value). Log entry 3. -/
opaque freeIn (r i : Nat) : Byte

/-- Free value: the content of a cell of `OUT` at an index `≥ OUT_LEN` in epoch `e` (R29, R167, R199; U7: any value).
Log entry 4. -/
opaque freeOut (e i : Nat) : Byte

/-- Free value: what `BEST_O <- unspecified` leaves in `BEST_O` when the search for position `pos` begins in epoch `e`
(R124, R125; U8: any value). Log entry 7. -/
opaque freeBestO (e pos : Nat) : Nat

end Sys2Proof.Config
end

