-- ==== Sys2Proof/Syntax.lean ====
section
/-! DEFINITION. The instructions: one constructor per row of spec/opcode_table.json (spec/30_encoding.md R60 to R67;
spec/40_commands.md R80). -/

namespace Sys2Proof

/-- The eleven rows of the opcode table: three token forms and three illegal classes of the two streams, the four
command words, and the HOST's START action.

A payload byte of an LZ77 token is `none` when the stream ends before it (the truncated token of R70). -/
inductive Instr where
  /-- `RLE.PAIR count, value` (R61, R112). -/
  | rlePair (count value : Byte)
  /-- `RLE.ILLEGAL_ZERO_COUNT`: the pair `00 value` (R69, R113). -/
  | rleIllegalZeroCount (value : Byte)
  /-- `RLE.ILLEGAL_ODD_LENGTH`: the unpaired last byte of a stream of odd length (R70, R111). -/
  | rleIllegalOddLength (last : Byte)
  /-- `LZ.LIT byte` (R62, R143); `none`: the tag is the last byte of the stream (R144). -/
  | lzLit (byte : Option Byte)
  /-- `LZ.MATCH offset, length` (R63, R145); a `none`: fewer than two bytes follow the tag (R146). -/
  | lzMatch (offset length : Option Byte)
  /-- `LZ.ILLEGAL_TAG`: a byte `0x02..0xFF` in tag position (R68, R149). -/
  | lzIllegalTag (tag : Byte)
  /-- `RLE.COMPRESS`, command word `00` (R64, R86). -/
  | rleCompress
  /-- `RLE.DECOMPRESS`, command word `01` (R64, R87). -/
  | rleDecompress
  /-- `LZ.COMPRESS`, command word `10` (R64, R88). -/
  | lzCompress
  /-- `LZ.DECOMPRESS`, command word `11` (R64, R89). -/
  | lzDecompress
  /-- `START`, HOST action number 1 of R21; it has no encoding in any stream (R12, R80). -/
  | start
deriving DecidableEq, Repr

end Sys2Proof
end

