-- ==== Sys2Proof/WellFormed.lean ====
section
/-! DEFINITION. Which terms of `Instr` some byte stream or command word spells (spec/30_encoding.md R61 to R70). -/

namespace Sys2Proof

/-- An instruction is well formed when an encoding of it exists:
a pair has a count of `1..255` (R61; a zero count is the row `RLE.ILLEGAL_ZERO_COUNT`, R69),
a match does not carry a length without the offset before it (R45: `offset` then `length`),
and an illegal tag is neither of the two assigned tags (R67, R68).
The match fields themselves may hold any value `0..255` (R71). -/
def Instr.wf : Instr → Bool
  | .rlePair count _ => count != 0
  | .rleIllegalZeroCount _ => true
  | .rleIllegalOddLength _ => true
  | .lzLit _ => true
  | .lzMatch offset length => offset.isSome || length.isNone
  | .lzIllegalTag tag => tag != Config.tagLiteral && tag != Config.tagMatch
  | .rleCompress => true
  | .rleDecompress => true
  | .lzCompress => true
  | .lzDecompress => true
  | .start => true

end Sys2Proof
end

