-- ==== Sys2Proof/Decode.lean ====
section
/-! DEFINITION. The decoder, total on any bytes and rejecting by name, and after it the encoder
(spec/30_encoding.md; spec/opcode_table.json). -/

namespace Sys2Proof

/-- The coding spaces of spec/opcode_table.json. Nothing in a stream says which kind it is: the command says so (R60). -/
inductive Space where
  /-- An RLE stream: format `P` only (R60, R67). -/
  | rleStream
  /-- An LZ77 stream: formats `L` and `M` (R60, R67). -/
  | lzStream
  /-- The command word, format `C` (R64), laid in the low bits of one byte. -/
  | command
  /-- The HOST action START, which has no encoding (R12, R67). -/
  | hostAction
deriving DecidableEq, Repr

/-- Why bytes spell no instruction. -/
inductive DecodeError where
  /-- There is no byte left: the end of the stream (R73). -/
  | endOfStream
  /-- A command word has two bits (R64); this byte is `4` or more. -/
  | notACommandWord
  /-- START has no encoding, so no byte spells it (R67). -/
  | startHasNoWord
deriving DecidableEq, Repr

/-- `CMD.ALG`, bit 1: `0` RLE, `1` LZ77 (R11, R64). -/
def cmdAlg (w : BitVec 2) : Bool := w.getLsbD 1

/-- `CMD.DIR`, bit 0: `0` compress, `1` decompress (R11, R64). -/
def cmdDir (w : BitVec 2) : Bool := w.getLsbD 0

/-- The command a command word spells; all four values are operations (R64, R72). -/
def decodeCommand (w : BitVec 2) : Instr :=
  match cmdAlg w, cmdDir w with
  | false, false => .rleCompress
  | false, true => .rleDecompress
  | true, false => .lzCompress
  | true, true => .lzDecompress

/-- One token of an RLE stream and the bytes after it. Every pair of bytes is a token, selected by position alone; the
zero-count row is matched before `RLE.PAIR` (R67, R69); a lone last byte is the odd-length class (R70). -/
def decodeRle : List Byte → Except DecodeError (Instr × List Byte)
  | [] => .error .endOfStream
  | [x] => .ok (.rleIllegalOddLength x, [])
  | count :: value :: rest =>
    if count = 0 then .ok (.rleIllegalZeroCount value, rest) else .ok (.rlePair count value, rest)

/-- The payload of an `LZ.LIT` whose tag has been read (R62, R144). -/
def decodeLiteral : List Byte → Instr × List Byte
  | [] => (.lzLit none, [])
  | b :: rest => (.lzLit (some b), rest)

/-- The payload of an `LZ.MATCH` whose tag has been read: `offset` then `length` (R45, R63, R146). -/
def decodeMatch : List Byte → Instr × List Byte
  | [] => (.lzMatch none none, [])
  | [o] => (.lzMatch (some o) none, [])
  | o :: l :: rest => (.lzMatch (some o) (some l), rest)

/-- One token of an LZ77 stream and the bytes after it. The tag alone selects the form (R65, R142); the other 254 values
spell no token (R68). -/
def decodeLz : List Byte → Except DecodeError (Instr × List Byte)
  | [] => .error .endOfStream
  | tag :: rest =>
    if tag = Config.tagLiteral then .ok (decodeLiteral rest)
    else if tag = Config.tagMatch then .ok (decodeMatch rest)
    else .ok (.lzIllegalTag tag, rest)

/-- The decoder: one instruction of a coding space from the front of a list of bytes, and the bytes after it. -/
def decode : Space → List Byte → Except DecodeError (Instr × List Byte)
  | .rleStream, bytes => decodeRle bytes
  | .lzStream, bytes => decodeLz bytes
  | .command, [] => .error .endOfStream
  | .command, b :: rest =>
    if b.toNat < 4 then .ok (decodeCommand (b.setWidth 2), rest) else .error .notACommandWord
  | .hostAction, [] => .ok (.start, [])
  | .hostAction, _ :: _ => .error .startHasNoWord

/-- The coding space an instruction belongs to (the `space` column of spec/opcode_table.json). -/
def Instr.space : Instr → Space
  | .rlePair _ _ => .rleStream
  | .rleIllegalZeroCount _ => .rleStream
  | .rleIllegalOddLength _ => .rleStream
  | .lzLit _ => .lzStream
  | .lzMatch _ _ => .lzStream
  | .lzIllegalTag _ => .lzStream
  | .rleCompress => .command
  | .rleDecompress => .command
  | .lzCompress => .command
  | .lzDecompress => .command
  | .start => .hostAction

/-- The encoder: the bytes of an instruction in stream order (R45, R61 to R64, R68 to R70).
A command word is laid in the low two bits of a byte; START has no bytes. -/
def encode : Instr → List Byte
  | .rlePair count value => [count, value]
  | .rleIllegalZeroCount value => [0x00, value]
  | .rleIllegalOddLength last => [last]
  | .lzLit none => [0x00]
  | .lzLit (some b) => [0x00, b]
  | .lzMatch none _ => [0x01]
  | .lzMatch (some o) none => [0x01, o]
  | .lzMatch (some o) (some l) => [0x01, o, l]
  | .lzIllegalTag tag => [tag]
  | .rleCompress => [0b00]
  | .rleDecompress => [0b01]
  | .lzCompress => [0b10]
  | .lzDecompress => [0b11]
  | .start => []

/-- Byte `k` of a table word: bit 0 of the word is the least significant bit of its first byte. -/
def tableByte (w k : Nat) : Byte := BitVec.ofNat 8 (w / 256 ^ k)

/-- The coding space `decodeTableWord` reads a table word in. The table's rows overlap across spaces (R60: "nothing in a
stream says which kind it is"), and a word carries no CMD, so the width decides (log entry 12): no bits is START; up to one
byte is a command word, or an LZ77 tag where it is no command word; two bytes are an RLE pair, or an LZ77 token where the
first byte is `LZ.LIT`'s tag; three bytes are an LZ77 token. DESIGN CHOICE. -/
def tableSpace (nbits w : Nat) : Space :=
  if nbits = 0 then .hostAction
  else if nbits ≤ 8 then (if (tableByte w 0).toNat < 4 then .command else .lzStream)
  else if nbits ≤ 16 then (if tableByte w 0 = Config.tagLiteral then .lzStream else .rleStream)
  else .lzStream

/-- The bytes of a table word in its space, laid out as the hardware stores them and no longer than the longest
instruction of that space; bytes above `nbits` are zero. -/
def tableBytes (nbits w : Nat) : List Byte :=
  let v := w % 2 ^ nbits
  match tableSpace nbits v with
  | .hostAction => []
  | .command => [tableByte v 0]
  | .rleStream => [tableByte v 0, tableByte v 1]
  | .lzStream =>
    if tableByte v 0 = Config.tagLiteral then [tableByte v 0, tableByte v 1]
    else if tableByte v 0 = Config.tagMatch then [tableByte v 0, tableByte v 1, tableByte v 2]
    else [tableByte v 0]

/-- The instruction the decoder reads from a word of spec/opcode_table.json (the host's fixed name). -/
def decodeTableWord (nbits w : Nat) : Option Instr :=
  match decode (tableSpace nbits (w % 2 ^ nbits)) (tableBytes nbits w) with
  | .ok (i, _) => some i
  | .error _ => none

end Sys2Proof
end

