-- ==== Sys2Proof/Machine/State.lean ====
section
/-! DEFINITION. The complete state of one CORE instance (spec/10_state.md R10 to R31), the reasons a step can stop, and the
state right after reset. -/

namespace Sys2Proof.Machine

/-- `STATUS` (R15); its codes are `statusCode` of Machine/Flags.lean. -/
inductive Status where
  /-- `0`: no operation has run since reset. -/
  | idle
  /-- `1`: an operation is running. -/
  | busy
  /-- `2`: the last operation returned a byte buffer. -/
  | done
  /-- `3`: the last operation returned a typed failure. -/
  | error
deriving DecidableEq, Repr

/-- `ERR_KIND` (R17, R160): the two failure kinds, and `NONE`. -/
inductive ErrKind where
  | none
  | invalidInput
  | invalidFormat
deriving DecidableEq, Repr

/-- `ERR_CAUSE` (R18, R161): the eight causes, and `NONE`. -/
inductive ErrCause where
  | none
  | notABuffer
  | rleOddLength
  | rleZeroCount
  | lzMissingLiteral
  | lzIncompleteMatch
  | lzOffsetRange
  | lzBadTag
  | lzZeroOffset
deriving DecidableEq, Repr

/-- `DSTATE` (R25, R141): the token decoder's state machine. -/
inductive DState where
  | expectTag
  | consumingLiteral
  | consumingMatch
deriving DecidableEq, Repr

/-- Which of the kinds of ENGINE step of R83 comes next while `STATUS = BUSY`. DEDUCED (log entry 1): R83 orders the
steps, and no register of R10 says which of them have been made. -/
inductive Phase where
  /-- The prologue of R81, the first step after START. -/
  | prologue
  /-- The odd-length test of `RLE.DECOMPRESS` (R111). -/
  | lengthTest
  /-- One token, or completion (R83, R84). -/
  | body
deriving DecidableEq, Repr

/-- The numbered registers of the host interface (R21). -/
inductive HostReg where
  | cmd
  | start
  | inValid
  | inLen
  | status
  | outLen
  | errKind
  | errCause
  | errPos
  | errInfo0
  | errInfo1
deriving DecidableEq, Repr

/-- One action of the HOST at the interface (R8, R21, R40), or a reset from outside (R190). -/
inductive HostAction where
  /-- Write `CMD` (R11). -/
  | writeCmd (v : BitVec 2)
  /-- Write `IN_VALID` (R13). -/
  | writeInValid (v : Bool)
  /-- Write `IN_LEN` (R14). -/
  | writeInLen (n : Nat)
  /-- Write one byte through the `IN` window (R28, R40). -/
  | writeIn (i : Nat) (v : Byte)
  /-- Perform START, HOST action number 1 (R12, R80). -/
  | start
  /-- Read a register (R21). -/
  | readReg (r : HostReg)
  /-- Read one byte through the `IN` window (R40). -/
  | readIn (i : Nat)
  /-- Read one byte through the `OUT` window (R29, R40). -/
  | readOut (i : Nat)
  /-- Reset, an action from outside the CORE, admitted at any time (R190, R192). -/
  | reset
deriving DecidableEq, Repr

/-- Which agent makes the next move (R8); what the HOST does is an input of the machine. -/
inductive Move where
  /-- The ENGINE's turn. -/
  | engine
  /-- The HOST, or the reset input, acts. -/
  | host (a : HostAction)
deriving DecidableEq, Repr

/-- A byte memory: the cells whose content is known, as (index, byte) pairs with strictly rising indices
(`Memory.wf` of Machine/Ops.lean). An index that is not listed holds an unspecified byte. -/
abbrev Memory := List Host.Cell

/-- Why a step stops with a fault. -/
inductive Fault where
  /-- The HOST addressed a cell of `IN` at an index `≥ IN_CAP`: the memory has no such cell (R28, R40).
  Raised by the HOST's `IN` window (Machine/HostPort.lean). Safe. -/
  | noSuchInCell (i : Nat)
  /-- The HOST addressed a cell of `OUT` at an index `≥ OUT_CAP`: the memory has no such cell (R29, R40).
  Raised by the HOST's `OUT` window (Machine/HostPort.lean). Safe. -/
  | noSuchOutCell (i : Nat)
deriving DecidableEq, Repr

/-- Why a step has no meaning. -/
inductive Refusal where
  /-- The instruction has no meaning in this model yet. Raised by Machine/Dispatch.lean's refused arms; none is left. Safe. -/
  | notModelled (mnemonic : String)
  /-- START while `STATUS = BUSY` has no transition (R80, R198). Raised by the meaning of START. Safe. -/
  | startWhileBusy
  /-- A HOST access other than reading `STATUS` while `STATUS = BUSY` (R197; U12: refuse). Raised by Machine/HostPort.lean.
  Safe. -/
  | hostAccessWhileBusy
  /-- The HOST reads `START`, a write-only action that "reads as nothing" (R12, R21). Raised by Machine/HostPort.lean. Safe. -/
  | startIsWriteOnly
  /-- The HOST reads `OUT` while `STATUS` is not `DONE` ("only when `STATUS = DONE`", R29), or `OUT_LEN` while it is `IDLE` ("RO
  when DONE or ERROR", R21). Raised by Machine/HostPort.lean (log entry 14). Safe. -/
  | noResultToRead
  /-- The HOST sets `IN_LEN > IN_CAP` (R54; U11: refuse). Raised by Machine/HostPort.lean. Safe. -/
  | inputOverCapacity
  /-- An `Append` with `OUT_LEN = OUT_CAP` (R54, R178; U11: refuse). Raised by `append` of Machine/Ops.lean. Safe. -/
  | outputOverCapacity
deriving DecidableEq, Repr

/-- The state of one CORE instance (R10). The last five fields are the model's own: sequencing (log entry 1), the HOST's
moves (log entry 2), the open parameters (log entry 5) and the two counters that free values are drawn with (log entries 3,
4 and 7). -/
structure State where
  /-- `CMD`, 2 bits (R11). -/
  cmd : BitVec 2
  /-- `IN_VALID`, 1 bit (R13). -/
  inValid : Bool
  /-- `IN_LEN`, `LEN_W` bits (R14). -/
  inLen : Nat
  /-- `STATUS` (R15). -/
  status : Status
  /-- `OUT_LEN`, `LEN_W` bits (R16). -/
  outLen : Nat
  /-- `ERR_KIND` (R17). -/
  errKind : ErrKind
  /-- `ERR_CAUSE` (R18). -/
  errCause : ErrCause
  /-- `ERR_POS`, `LEN_W` bits (R19). -/
  errPos : Nat
  /-- `ERR_INFO0`, `LEN_W` bits (R20). -/
  errInfo0 : Nat
  /-- `ERR_INFO1`, `LEN_W` bits (R20). -/
  errInfo1 : Nat
  /-- `POS`, the program counter, `LEN_W` bits (R22). -/
  pos : Nat
  /-- `RUN_VAL`, 8 bits (R23). -/
  runVal : Byte
  /-- `RUN_CNT`, 8 bits (R23). -/
  runCnt : Byte
  /-- `CAND`, `LEN_W` bits (R24). -/
  cand : Nat
  /-- `K`, 8 bits (R24). -/
  k : Byte
  /-- `BEST_LEN`, 8 bits (R24). -/
  bestLen : Byte
  /-- `BEST_O`, `LEN_W` bits (R24). -/
  bestO : Nat
  /-- `DSTATE` (R25, R141). -/
  dstate : DState
  /-- `TAG`, 8 bits (R25). -/
  tag : Byte
  /-- `M_OFF`, 8 bits (R25). -/
  mOff : Byte
  /-- `M_LEN`, 8 bits (R25). -/
  mLen : Byte
  /-- `SRC`, `LEN_W` bits (R25). -/
  src : Nat
  /-- `REM`, 8 bits (R25). -/
  rem : Byte
  /-- `IN`, the input buffer memory (R28). -/
  inMem : Memory
  /-- `OUT`, the output buffer memory (R29). -/
  outMem : Memory
  /-- Which kind of ENGINE step comes next (R83). -/
  phase : Phase
  /-- The moves that are still to come, the next one first; when there is none, it is the ENGINE's turn. -/
  agenda : List Move
  /-- The open parameters of R4. -/
  params : Config.Params
  /-- How often the content of `OUT` above `OUT_LEN` has become unspecified: one more at each START, failure and reset. -/
  epoch : Nat
  /-- How many resets there have been: the content of `IN` becomes unspecified at each. -/
  resets : Nat
deriving DecidableEq, Repr

/-- The state right after reset (R31, R190), with the default reading of the open parameters (R4) and no move listed.
The working registers, which R31 leaves unspecified, hold zero (log entry 6, DESIGN CHOICE); no cell of `IN` or `OUT` is
listed, so each holds a free value. -/
def State.reset : State where
  cmd := 0b00
  inValid := false
  inLen := 0
  status := .idle
  outLen := 0
  errKind := .none
  errCause := .none
  errPos := 0
  errInfo0 := 0
  errInfo1 := 0
  pos := 0
  runVal := 0
  runCnt := 0
  cand := 0
  k := 0
  bestLen := 0
  bestO := 0
  dstate := .expectTag
  tag := 0
  mOff := 0
  mLen := 0
  src := 0
  rem := 0
  inMem := []
  outMem := []
  phase := .prologue
  agenda := []
  params := Config.unbounded
  epoch := 0
  resets := 0

/-- What an instruction or a step answers. -/
abbrev Result := Host.Outcome State Fault Refusal

end Sys2Proof.Machine
end

