-- ==== Sys2Proof/Machine/Flags.lean ====
section
/-! DEFINITION. The status indications (spec/10_state.md R15, R17, R18, R27): their numeric codes, the kind of each cause
(spec/60_exceptions.md R161), the one arithmetic test (R92), and the writes of `STATUS` that R27 lists. There are no other
flags: no condition codes, carry, zero, overflow or predicates (R27). -/

namespace Sys2Proof.Machine

/-- The 2-bit code of `STATUS` (R15). -/
def statusCode : Status → BitVec 2
  | .idle => 0
  | .busy => 1
  | .done => 2
  | .error => 3

/-- The 2-bit code of `ERR_KIND` (R17). -/
def errKindCode : ErrKind → BitVec 2
  | .none => 0
  | .invalidInput => 1
  | .invalidFormat => 2

/-- The 4-bit code of `ERR_CAUSE` (R18, R161). -/
def errCauseCode : ErrCause → BitVec 4
  | .none => 0
  | .notABuffer => 1
  | .rleOddLength => 2
  | .rleZeroCount => 3
  | .lzMissingLiteral => 4
  | .lzIncompleteMatch => 5
  | .lzOffsetRange => 6
  | .lzBadTag => 7
  | .lzZeroOffset => 8

/-- The kind a cause refines (the table of R161). -/
def causeKind : ErrCause → ErrKind
  | .none => .none
  | .notABuffer => .invalidInput
  | .rleOddLength => .invalidFormat
  | .rleZeroCount => .invalidFormat
  | .lzMissingLiteral => .invalidFormat
  | .lzIncompleteMatch => .invalidFormat
  | .lzOffsetRange => .invalidFormat
  | .lzBadTag => .invalidFormat
  | .lzZeroOffset => .invalidFormat

/-- The parity test `IN_LEN mod 2 = 1` of R111 (R92: "bit 0 of `IN_LEN`"). -/
def isOdd (n : Nat) : Bool := n % 2 == 1

/-- Completion (R84): `STATUS <- DONE`, and nothing else. -/
def completed (s : State) : State := { s with status := .done }

end Sys2Proof.Machine
end

