-- ==== Sys2Proof/Machine/Operands.lean ====
section
/-! DEFINITION. Reading operands: the two byte memories (spec/20_memory.md R40, R48; spec/00_scope.md R6) and the payload
bytes of a token (spec/30_encoding.md R66). Every operand is one byte, taken whole; there is no register operand. -/

namespace Sys2Proof.Machine

/-- The byte a memory lists at an index; `none` for an index it does not list. -/
def Memory.read : Memory → Nat → Option Byte
  | [], _ => none
  | (b, v) :: m, a => if a = b then some v else Memory.read m a

/-- `IN[i]` (R6). A cell that nothing has written since reset holds a free value (R28, R31). -/
def inByte (s : State) (i : Nat) : Byte :=
  (Memory.read s.inMem i).getD (Config.freeIn s.resets i)

/-- `OUT[i]` (R6). A cell at an index `≥ OUT_LEN` holds a free value at all times (R29, R199). -/
def outByte (s : State) (i : Nat) : Byte :=
  if i < s.outLen then (Memory.read s.outMem i).getD (Config.freeOut s.epoch i) else Config.freeOut s.epoch i

/-- Payload byte `j` of the token at `POS`: `IN[POS + j]`, or `none` when the stream ends before it (R65, R70).
A cell at an index `≥ IN_LEN` is never read (R28). -/
def operandByte (s : State) (j : Nat) : Option Byte :=
  if s.pos + j < s.inLen then some (inByte s (s.pos + j)) else none

/-- The bytes of `IN` from `POS` to the end of the stream, as far as the longest token (3 bytes, R60) needs them. -/
def tokenWindow (s : State) : List Byte :=
  (List.range (min 3 (s.inLen - s.pos))).map fun j => inByte s (s.pos + j)

end Sys2Proof.Machine
end

