-- ==== Sys2Proof/Machine/Ops.lean ====
section
/-! DEFINITION. The operations every instruction is built from: writing a memory, `Append` (spec/00_scope.md R6), failure
entry (spec/60_exceptions.md R166), the beginning of an operation (spec/40_commands.md R80, R81) and reset
(spec/70_reset_and_hazards.md R190). -/

namespace Sys2Proof.Machine

/-- The canonical form of a memory: indices strictly rising. (What an unlisted index reads as is no byte, so no entry can
equal it.) -/
def Memory.wf : Memory → Bool
  | [] => true
  | [_] => true
  | (a, _) :: (b, w) :: m => a < b && Memory.wf ((b, w) :: m)

/-- Write one byte, keeping the canonical form. -/
def Memory.write : Memory → Nat → Byte → Memory
  | [], a, v => [(a, v)]
  | (b, w) :: m, a, v =>
    if a < b then (a, v) :: (b, w) :: m
    else if a = b then (a, v) :: m
    else (b, w) :: Memory.write m a v

/-- Go on from a next state; a fault or a refusal ends the action. -/
def andThen (r : Result) (f : State → Result) : Result :=
  match r with
  | .next s => f s
  | .fault e => .fault e
  | .refused e => .refused e

/-- The two effects of `Append(v)` (R6): `OUT[OUT_LEN] <- v`, then `OUT_LEN <- OUT_LEN + 1`. -/
def pushByte (v : Byte) (s : State) : State :=
  { s with outMem := Memory.write s.outMem s.outLen v, outLen := s.outLen + 1 }

/-- `Append(v)`, indivisible (R6, R42, R48); with `OUT_LEN = OUT_CAP` it has no meaning (R54). -/
def append (v : Byte) (s : State) : Result :=
  if Config.cellExists s.params.outCap s.outLen then .next (pushByte v s) else .refused .outputOverCapacity

/-- `Append` each byte of a list, in order. -/
def appendAll : List Byte → State → Result
  | [], s => .next s
  | v :: vs, s => andThen (append v s) (appendAll vs)

/-- The state after a failure (R166): the four detail registers and the kind are written, `OUT_LEN <- 0` and
`STATUS <- ERROR`, as one indivisible action. Control goes nowhere: there is no handler, no vector and no saved program
counter. The content of `OUT` becomes unspecified (R167), so the epoch moves on. -/
def failed (kind : ErrKind) (cause : ErrCause) (pos info0 info1 : Nat) (s : State) : State :=
  { s with
    errKind := kind, errCause := cause, errPos := pos, errInfo0 := info0, errInfo1 := info1,
    outLen := 0, status := .error, epoch := s.epoch + 1 }

/-- TAKING AN EXCEPTION: `raise K(cause, pos, info0, info1)` (R6, R166). There is no return from it: the only ways on are a
new START or reset (R168). -/
def raise (kind : ErrKind) (cause : ErrCause) (pos info0 info1 : Nat) (s : State) : Result :=
  .next (failed kind cause pos info0 info1 s)

/-- The state after START (R80). Nothing else is written; the content of `OUT` from index `0` on is unspecified again
(R29), so the epoch moves on, and the prologue comes next (R81). -/
def started (s : State) : State :=
  { s with
    status := .busy, outLen := 0, errKind := .none, errCause := .none, errPos := 0, errInfo0 := 0, errInfo1 := 0,
    pos := 0, phase := .prologue, epoch := s.epoch + 1 }

/-- The prologue common to the four operations (R81): without a bound input buffer the operation fails before anything is
examined; with one the ENGINE goes on to `next`. -/
def prologue (next : Phase) (s : State) : Result :=
  if s.inValid then .next { s with phase := next } else raise .invalidInput .notABuffer 0 0 0 s

/-- Completion (R84). -/
def complete (s : State) : Result := .next (completed s)

/-- Reset (R190, R192): every piece of state takes its reset value, also in the middle of an operation. What is not state of
the CORE stays: the parameters and the moves still to come. The contents of `IN` and `OUT` become unspecified, so both
counters of the free values move on. -/
def resetState (s : State) : State :=
  { State.reset with agenda := s.agenda, params := s.params, epoch := s.epoch + 1, resets := s.resets + 1 }

/-- The low `LEN_W` bits of a value: a free value of a `LEN_W`-bit register keeps that width (R4, R24). -/
def lenWBits (p : Config.Params) (n : Nat) : Nat :=
  match p.lenW with
  | none => n
  | some w => n % 2 ^ w

end Sys2Proof.Machine
end

