-- ==== Sys2Proof/Machine/MatchFinder.lean ====
section
/-! DEFINITION. The LZ77 match finder (spec/43_lz77_match_finder.md R120 to R127). It reads `IN` and `IN_LEN` only and
writes `CAND`, `K`, `BEST_LEN` and `BEST_O` only (R120). -/

namespace Sys2Proof.Machine

/-- The loop of `MatchLen` (R122), from a length of `k`: `fuel` bounds the increments. Both reads are of `IN`, also where
`o + k` reaches `pos` (R123, R196). -/
def matchLoop (s : State) (pos o : Nat) : Nat → Nat → Nat
  | 0, k => k
  | fuel + 1, k =>
    if k < Config.maxMatch ∧ pos + k < s.inLen ∧ inByte s (o + k) = inByte s (pos + k) then
      matchLoop s pos o fuel (k + 1)
    else k

/-- `MatchLen(pos, o)` (R122). -/
def matchLen (s : State) (pos o : Nat) : Nat := matchLoop s pos o Config.maxMatch 0

/-- The first candidate of the window, `max(0, pos - WINDOW_SIZE)` (R5, R121). -/
def windowStart (pos : Nat) : Nat := pos - Config.windowSize

/-- The candidates in the order they are examined: `[max(0, pos - WINDOW_SIZE), pos)`, ascending (R121, R124). -/
def candidates (pos : Nat) : List Nat := List.range' (windowStart pos) (pos - windowStart pos)

/-- One iteration of the loop of R124: a candidate replaces the best only if its length is strictly greater. -/
def tryCandidate (pos : Nat) (s : State) (o : Nat) : State :=
  let len := matchLen s pos o
  let t := { s with cand := o, k := BitVec.ofNat 8 len }
  if s.bestLen.toNat < len then { t with bestLen := BitVec.ofNat 8 len, bestO := o } else t

/-- `BEST_LEN <- 0`, `BEST_O <- unspecified` (R124, R125): the second is a free value. -/
def beginSearch (pos : Nat) (s : State) : State :=
  { s with bestLen := 0, bestO := lenWBits s.params (Config.freeBestO s.epoch pos) }

/-- `FindBest(pos)` (R120, R124); the pair it returns is left in `BEST_LEN` and `BEST_O`. -/
def findBest (pos : Nat) (s : State) : State :=
  (candidates pos).foldl (tryCandidate pos) (beginSearch pos s)

end Sys2Proof.Machine
end

