-- ==== Sys2Proof/Machine/Lz.lean ====
section
/-! DEFINITION. The LZ77 token encoder's step (spec/44_lz77_token_encoder.md R130 to R135) and the LZ77 token decoder's
instructions (spec/45_lz77_token_decoder.md R140 to R152). -/

namespace Sys2Proof.Machine

/-- The emit-match step (R131), after the search. -/
def emitMatch (s : State) : Result :=
  andThen (appendAll [Config.tagMatch, BitVec.ofNat 8 (s.pos - s.bestO), s.bestLen] s) fun t =>
    .next { t with pos := t.pos + t.bestLen.toNat }

/-- The emit-literal step (R132). -/
def emitLiteral (s : State) : Result :=
  andThen (appendAll [Config.tagLiteral, inByte s s.pos] s) fun t => .next { t with pos := t.pos + 1 }

/-- One LZ77 encoder step, an iteration of the loop of R130: the greedy choice at `POS` (R135). -/
def lzEncodeStep (s : State) : Result :=
  let t := findBest s.pos s
  if Config.minMatch ≤ t.bestLen.toNat then emitMatch t else emitLiteral t

/-- `DSTATE` and `TAG` after the fetch of a tag (R141, R142). -/
def tagFetched (tag : Byte) (d : DState) (s : State) : State := { s with tag := tag, dstate := d }

/-- The end of a token of `n` bytes: `POS` moves on and the next tag is expected (R141). -/
def tokenDone (n : Nat) (s : State) : State := { s with pos := s.pos + n, dstate := .expectTag }

/-- The missing literal byte (R144): nothing is appended for this token. -/
def missingLiteral (s : State) : Result :=
  raise .invalidFormat .lzMissingLiteral s.pos 0 0 (tagFetched Config.tagLiteral .consumingLiteral s)

/-- `LZ.LIT byte` (R143). -/
def execLzLit (byte : Option Byte) (s : State) : Result :=
  match byte with
  | none => missingLiteral s
  | some b =>
    if s.inLen ≤ s.pos + 1 then missingLiteral s
    else
      andThen (append b (tagFetched Config.tagLiteral .consumingLiteral s)) fun t => .next (tokenDone 2 t)

/-- The copy of R145 and R148: byte by byte, each read after the append before it (R50, R195). -/
def copyLoop : Nat → State → Result
  | 0, s => .next s
  | n + 1, s =>
    andThen (append (outByte s s.src) s) fun t => copyLoop n { t with src := t.src + 1, rem := t.rem - 1 }

/-- The incomplete match token (R146): fewer than two bytes follow the tag, and neither is interpreted. -/
def incompleteMatch (s : State) : Result :=
  raise .invalidFormat .lzIncompleteMatch s.pos (s.inLen - s.pos - 1) 0
    (tagFetched Config.tagMatch .consumingMatch s)

/-- `TAG`, `DSTATE`, `M_OFF` and `M_LEN` once the fields have been read (R145). -/
def matchFetched (offset length : Byte) (s : State) : State :=
  { tagFetched Config.tagMatch .consumingMatch s with mOff := offset, mLen := length }

/-- `SRC` and `REM` as R140 and R145 set them before the copy. -/
def copyPrepared (s : State) : State :=
  { s with src := s.outLen - s.mOff.toNat, rem := s.mLen }

/-- `LZ.MATCH offset, length` (R145), its checks in the order of R145: presence (R146), offset range (R147), zero offset
(R151); then the copy (R148). -/
def execLzMatch (offset length : Option Byte) (s : State) : Result :=
  match offset, length with
  | some o, some l =>
    if s.inLen ≤ s.pos + 2 then incompleteMatch s
    else if s.outLen < o.toNat then
      raise .invalidFormat .lzOffsetRange s.pos o.toNat s.outLen (matchFetched o l s)
    else if o = 0 ∧ 1 ≤ l.toNat then
      raise .invalidFormat .lzZeroOffset s.pos 0 l.toNat (matchFetched o l s)
    else andThen (copyLoop l.toNat (copyPrepared (matchFetched o l s))) fun t => .next (tokenDone 3 t)
  | some _, none => incompleteMatch s
  | none, _ => incompleteMatch s

/-- `LZ.ILLEGAL_TAG` (R68, R149): the offending byte is reported; no byte is skipped. -/
def execLzIllegalTag (tag : Byte) (s : State) : Result :=
  raise .invalidFormat .lzBadTag s.pos tag.toNat 0 (tagFetched tag .expectTag s)

/-- The token at `POS` executed by `LZ.DECOMPRESS`: an iteration of the loop of R140, dispatched on the whole tag before any
byte after it is looked at (R142). -/
def lzDecodeStep (s : State) : Result :=
  let tag := inByte s s.pos
  if tag = Config.tagLiteral then execLzLit (operandByte s 1) s
  else if tag = Config.tagMatch then execLzMatch (operandByte s 1) (operandByte s 2) s
  else execLzIllegalTag tag s

end Sys2Proof.Machine
end

