-- ==== Sys2Proof/Machine/Rle.lean ====
section
/-! DEFINITION. The RLE decoder's instructions (spec/42_rle_decoder.md R110 to R115) and the RLE encoder's step
(spec/41_rle_encoder.md R100 to R104). -/

namespace Sys2Proof.Machine

/-- `RLE.ILLEGAL_ZERO_COUNT` (R69, R113): the pair fails before anything is appended for it; its value byte is irrelevant. -/
def execRleIllegalZeroCount (_value : Byte) (s : State) : Result :=
  raise .invalidFormat .rleZeroCount s.pos 0 0 s

/-- `RLE.ILLEGAL_ODD_LENGTH` (R70, R111): the recorded position is the index of the unpaired last byte. -/
def execRleIllegalOddLength (_last : Byte) (s : State) : Result :=
  raise .invalidFormat .rleOddLength (s.inLen - 1) s.inLen 0 s

/-- `RLE.PAIR count, value` (R112). -/
def execRlePair (count value : Byte) (s : State) : Result :=
  if count = 0 then raise .invalidFormat .rleZeroCount s.pos 0 0 s
  else
    andThen (appendAll (List.replicate count.toNat value) s) fun t =>
      .next { t with pos := t.pos + 2 }

/-- The pair at `POS` executed by `RLE.DECOMPRESS` (R110, R112). A lone last byte cannot be met, since `POS` and `IN_LEN`
are even here (R112, R114); it is the odd-length class (R70). -/
def rleDecodeStep (s : State) : Result :=
  match operandByte s 1 with
  | none => execRleIllegalOddLength (inByte s s.pos) s
  | some value =>
    if inByte s s.pos = 0 then execRleIllegalZeroCount value s else execRlePair (inByte s s.pos) value s

/-- The inner loop of R100, from a count of `n`: `fuel` bounds the increments. -/
def countRun (s : State) (v : Byte) : Nat → Nat → Nat
  | 0, n => n
  | fuel + 1, n =>
    if s.pos + n < s.inLen ∧ inByte s (s.pos + n) = v ∧ n < Config.maxRun then countRun s v fuel (n + 1) else n

/-- The `count` one RLE encoder step emits: the length of the run that starts at `POS`, cut at 255 (R100, R101). -/
def runLength (s : State) : Nat := countRun s (inByte s s.pos) Config.maxRun 1

/-- One RLE encoder step, the outer loop body of R100 (R101). -/
def rleEncodeStep (s : State) : Result :=
  let r := { s with runVal := inByte s s.pos, runCnt := BitVec.ofNat 8 (runLength s) }
  andThen (appendAll [r.runCnt, r.runVal] r) fun t => .next { t with pos := t.pos + t.runCnt.toNat }

end Sys2Proof.Machine
end

