-- ==== Sys2Proof/Machine/Commands.lean ====
section
/-! DEFINITION. The four commands and START (spec/40_commands.md R80 to R92). A command's meaning is ONE ENGINE STEP of its
operation (R83: the prologue, the odd-length test, one token executed or produced, or completion); applied again and again
from START on it runs the whole operation (log entry 8). -/

namespace Sys2Proof.Machine

/-- `RLE.COMPRESS` (R86): the prologue, then RLE encoder steps (R100), then completion. -/
def execRleCompress (s : State) : Result :=
  match s.phase with
  | .prologue => prologue .body s
  | .lengthTest | .body => if s.pos < s.inLen then rleEncodeStep s else complete s

/-- `RLE.DECOMPRESS` (R87): the prologue, the odd-length test (R111), then the pairs in order (R110), then completion. -/
def execRleDecompress (s : State) : Result :=
  match s.phase with
  | .prologue => prologue .lengthTest s
  | .lengthTest =>
    if isOdd s.inLen then execRleIllegalOddLength (inByte s (s.inLen - 1)) s else .next { s with phase := .body }
  | .body => if s.pos < s.inLen then rleDecodeStep s else complete s

/-- `LZ.COMPRESS` (R88): the prologue, then LZ77 encoder steps (R130), then completion. -/
def execLzCompress (s : State) : Result :=
  match s.phase with
  | .prologue => prologue .body s
  | .lengthTest | .body => if s.pos < s.inLen then lzEncodeStep s else complete s

/-- `LZ.DECOMPRESS` (R89): the prologue, then the tokens in order (R140), then completion. The operation begins with
`DSTATE = ExpectTag` (R141: "initial"; R30: each working register is initialised before it is read). -/
def execLzDecompress (s : State) : Result :=
  match s.phase with
  | .prologue => prologue .body (if s.inValid then { s with dstate := .expectTag } else s)
  | .lengthTest | .body => if s.pos < s.inLen then lzDecodeStep s else complete s

/-- `START` (R80): begins one operation; while `STATUS = BUSY` it has no transition (R198). -/
def execStart (s : State) : Result :=
  if s.status = .busy then .refused .startWhileBusy else .next (started s)

end Sys2Proof.Machine
end

