-- ==== Sys2Proof/Machine/Dispatch.lean ====
section
/-! DEFINITION. One arm per instruction. -/

namespace Sys2Proof.Machine

def exec (i : Instr) (s : State) : Host.Outcome State Fault Refusal :=
  match i with
  | .rlePair count value => Sys2Proof.Machine.execRlePair count value s
  | .rleIllegalZeroCount value => Sys2Proof.Machine.execRleIllegalZeroCount value s
  | .rleIllegalOddLength last => Sys2Proof.Machine.execRleIllegalOddLength last s
  | .lzLit byte => Sys2Proof.Machine.execLzLit byte s
  | .lzMatch offset length => Sys2Proof.Machine.execLzMatch offset length s
  | .lzIllegalTag tag => Sys2Proof.Machine.execLzIllegalTag tag s
  | .rleCompress => Sys2Proof.Machine.execRleCompress s
  | .rleDecompress => Sys2Proof.Machine.execRleDecompress s
  | .lzCompress => Sys2Proof.Machine.execLzCompress s
  | .lzDecompress => Sys2Proof.Machine.execLzDecompress s
  | .start => Sys2Proof.Machine.execStart s

end Sys2Proof.Machine
end

