-- ==== Sys2Proof/Machine/HostPort.lean ====
section
/-! DEFINITION. The HOST's side of the interface (spec/10_state.md R11 to R21; spec/20_memory.md R40;
spec/40_commands.md R85; spec/70_reset_and_hazards.md R190 to R199). -/

namespace Sys2Proof.Machine

/-- The register numbers of R21. -/
def hostRegNumber : HostReg → Nat
  | .cmd => 0
  | .start => 1
  | .inValid => 2
  | .inLen => 3
  | .status => 4
  | .outLen => 5
  | .errKind => 6
  | .errCause => 7
  | .errPos => 8
  | .errInfo0 => 9
  | .errInfo1 => 10

/-- What an access of the HOST answers: what it yields, or why there is no such access. -/
abbrev Access (α : Type) := Host.Outcome α Fault Refusal

/-- The HOST's access rights while `STATUS = BUSY`: it may read `STATUS` and nothing else (R197). -/
def whenNotBusy {α : Type} (s : State) (r : Access α) : Access α :=
  if s.status = .busy then .refused .hostAccessWhileBusy else r

/-- The value a register holds, as one whole number (R15 to R21, R46); START is no storage element and holds none (R12). -/
def hostRegValue (r : HostReg) (s : State) : Option Nat :=
  match r with
  | .cmd => some s.cmd.toNat
  | .start => none
  | .inValid => some s.inValid.toNat
  | .inLen => some s.inLen
  | .status => some (statusCode s.status).toNat
  | .outLen => some s.outLen
  | .errKind => some (errKindCode s.errKind).toNat
  | .errCause => some (errCauseCode s.errCause).toNat
  | .errPos => some s.errPos
  | .errInfo0 => some s.errInfo0
  | .errInfo1 => some s.errInfo1

/-- What the HOST gets when it reads a register: `STATUS` at any time (R15), another register while `STATUS` is not `BUSY`
(R197), `OUT_LEN` when it is `DONE` or `ERROR` (R16, R21), and nothing from `START` (R12). -/
def hostReadReg (r : HostReg) (s : State) : Access Nat :=
  match hostRegValue r s with
  | none => .refused .startIsWriteOnly
  | some v =>
    if r = .status then .next v
    else whenNotBusy s (if r = .outLen ∧ s.status = .idle then .refused .noResultToRead else .next v)

/-- What the HOST gets through the `IN` window, while `STATUS` is not `BUSY` (R28, R40, R197). -/
def hostReadIn (i : Nat) (s : State) : Access Byte :=
  whenNotBusy s (if Config.cellExists s.params.inCap i then .next (inByte s i) else .fault (.noSuchInCell i))

/-- What the HOST gets through the `OUT` window, "only when `STATUS = DONE`" (R29, R40). -/
def hostReadOut (i : Nat) (s : State) : Access Byte :=
  whenNotBusy s
    (if s.status = .done then
      if Config.cellExists s.params.outCap i then .next (outByte s i) else .fault (.noSuchOutCell i)
    else .refused .noResultToRead)

/-- A read changes no state (R48). -/
def readOnly {α : Type} (r : Access α) (s : State) : Result :=
  match r with
  | .next _ => .next s
  | .fault e => .fault e
  | .refused e => .refused e

/-- One action of the HOST, or reset. What a read yields is `hostReadReg`, `hostReadIn` or `hostReadOut`. Reset is admitted at
any time (R190, R192). -/
def hostAct (a : HostAction) (s : State) : Result :=
  match a with
  | .writeCmd v => whenNotBusy s (.next { s with cmd := v })
  | .writeInValid v => whenNotBusy s (.next { s with inValid := v })
  | .writeInLen n =>
    whenNotBusy s
      (if Config.withinCap s.params.inCap n then .next { s with inLen := n } else .refused .inputOverCapacity)
  | .writeIn i v =>
    whenNotBusy s
      (if Config.cellExists s.params.inCap i then .next { s with inMem := Memory.write s.inMem i v }
        else .fault (.noSuchInCell i))
  | .start => execStart s
  | .readReg r => readOnly (hostReadReg r s) s
  | .readIn i => readOnly (hostReadIn i s) s
  | .readOut i => readOnly (hostReadOut i s) s
  | .reset => .next (resetState s)

end Sys2Proof.Machine
end

