-- ==== Sys2Proof/Machine/Fetch.lean ====
section
/-! DEFINITION. Which instruction an ENGINE step runs (spec/40_commands.md R83; spec/45_lz77_token_decoder.md R142), the two
agents' turns (spec/00_scope.md R8), and how an instruction is placed to be the next one run. -/

namespace Sys2Proof.Machine

/-- The kind of stream a command reads as a program (R40): the decoders execute tokens, the encoders do not. -/
def tokenSpace : Instr → Option Space
  | .rleDecompress => some .rleStream
  | .lzDecompress => some .lzStream
  | _ => none

/-- The token at `POS`, or the command itself where there is none. -/
def fetchToken (command : Instr) (s : State) : Instr :=
  match tokenSpace command with
  | none => command
  | some space =>
    match decode space (tokenWindow s) with
    | .ok (i, _) => i
    | .error _ => command

/-- The instruction the next ENGINE step runs: the command in `CMD` for the prologue, for a passed odd-length test, for an
encoder's step and for completion; the token at `POS` for a decoder's step; the odd-length class for a failed test (R83). -/
def fetch (s : State) : Instr :=
  let command := decodeCommand s.cmd
  match s.phase with
  | .prologue => command
  | .lengthTest =>
    if command = .rleDecompress ∧ isOdd s.inLen then .rleIllegalOddLength (inByte s (s.inLen - 1)) else command
  | .body => if s.pos < s.inLen then fetchToken command s else command

/-- The ENGINE's turn (R83): it has a step exactly when `STATUS = BUSY`; otherwise it changes no state. -/
def engineTurn (s : State) : Result :=
  if s.status = .busy then exec (fetch s) s else .next s

/-- One move: the next one of the agenda, or the ENGINE's turn when the agenda lists none. -/
def nextMove (s : State) : Result :=
  match s.agenda with
  | [] => engineTurn s
  | .engine :: rest => engineTurn { s with agenda := rest }
  | .host a :: rest => hostAct a { s with agenda := rest }

/-- Bytes written at consecutive indices from `i` on. -/
def writeBytes : Memory → Nat → List Byte → Memory
  | m, _, [] => m
  | m, i, v :: vs => writeBytes (Memory.write m i v) (i + 1) vs

/-- The state in which the ENGINE is about to execute the token `bytes`, which stand at `POS` and end the stream, under the
command word `cmd`. -/
def withToken (cmd : BitVec 2) (bytes : List Byte) (s : State) : State :=
  { s with
    cmd := cmd, inValid := true, status := .busy, phase := .body, agenda := .engine :: s.agenda,
    inMem := writeBytes s.inMem s.pos bytes, inLen := s.pos + bytes.length }

/-- The state in which a word of spec/opcode_table.json is the next instruction run: START stands next on the agenda; a
command word stands in `CMD` of an operation about to make its prologue; a token stands at `POS`; for both the HOST has bound
the buffer (log entry 12). -/
def placeTableWord (s : State) (nbits w : Nat) : State :=
  match tableSpace nbits (w % 2 ^ nbits) with
  | .hostAction => { s with agenda := .host .start :: s.agenda }
  | .command =>
    { s with
      cmd := (tableByte (w % 2 ^ nbits) 0).setWidth 2, inValid := true, status := .busy, phase := .prologue,
      agenda := .engine :: s.agenda }
  | .rleStream => withToken 0b01 (tableBytes nbits w) s
  | .lzStream => withToken 0b11 (tableBytes nbits w) s

end Sys2Proof.Machine
end

