-- ==== Sys2Proof/Machine/Step.lean ====
section
/-! DEFINITION. One step of the machine. -/

namespace Sys2Proof.Machine

/-- One step: one move of one agent (R8, R83). -/
def step (s : State) : Host.Outcome State Fault Refusal := nextMove s

/-- The state in which the next step runs the instruction that a word of spec/opcode_table.json spells. -/
def State.withFetchWord (s : State) (nbits w : Nat) : State := placeTableWord s nbits w

end Sys2Proof.Machine
end

