-- ==== Sys2Proof/Machine/Whole.lean ====
section
/-! DEFINITION. The four operations as functions of the input buffer alone (spec/10_state.md R30, spec/40_commands.md R83:
"a whole operation as one big step", R91), written on lists and apart from the machine's step, for claims to hold the step
against. The machine never calls them. -/

namespace Sys2Proof.Machine

/-- What an operation returns (R85): a byte buffer or a typed failure, with no bytes beside a failure (R167). -/
inductive Returned where
  | bytes (bs : List Byte)
  | failure (kind : ErrKind) (cause : ErrCause) (pos info0 info1 : Nat)
deriving DecidableEq, Repr

/-- The RLE encoder as DOC00 words it (R101: it carries one pending pair and emits it "when the next byte differs, or the
count reaches 255", or at the end of input); `n` bytes `v` are pending. -/
def rlePending (v : Byte) (n : Nat) : List Byte → List Byte
  | [] => [BitVec.ofNat 8 n, v]
  | b :: bs =>
    if b = v ∧ n < 255 then rlePending v (n + 1) bs else BitVec.ofNat 8 n :: v :: rlePending b 1 bs

/-- The result of `RLE.COMPRESS` (R86, R100, R103). -/
def rleEncoded : List Byte → List Byte
  | [] => []
  | b :: bs => rlePending b 1 bs

/-- The pairs of an RLE stream of even length, expanded in order; `pos` is the index of the next pair and `out` what the
pairs before it gave (R110, R112, R113). -/
def rleExpanded (pos : Nat) (out : List Byte) : List Byte → Returned
  | [] => .bytes out
  | [_] => .failure .invalidFormat .rleOddLength pos (pos + 1) 0
  | count :: value :: rest =>
    if count = 0 then .failure .invalidFormat .rleZeroCount pos 0 0
    else rleExpanded (pos + 2) (out ++ List.replicate count.toNat value) rest

/-- The result of `RLE.DECOMPRESS` (R87, R110, R111). -/
def rleDecoded (bs : List Byte) : Returned :=
  if bs.length % 2 = 1 then .failure .invalidFormat .rleOddLength (bs.length - 1) bs.length 0
  else rleExpanded 0 [] bs

/-- The length of the longest common beginning of two byte lists. -/
def commonPrefix : List Byte → List Byte → Nat
  | a :: as, b :: bs => if a = b then commonPrefix as bs + 1 else 0
  | _, _ => 0

/-- The length of the match of candidate `o` at `pos` (R122). -/
def matchLengthAt (data : List Byte) (pos o : Nat) : Nat :=
  min 255 (commonPrefix (data.drop o) (data.drop pos))

/-- The better of the best `(length, candidate)` so far and a candidate: only a strictly greater length replaces it (R124). -/
def better (data : List Byte) (pos : Nat) (best : Nat × Nat) (o : Nat) : Nat × Nat :=
  if best.1 < matchLengthAt data pos o then (matchLengthAt data pos o, o) else best

/-- The best match at `pos`: the candidates `max(0, pos - 20), …, pos - 1` in ascending order (R121, R124). -/
def bestMatch (data : List Byte) (pos : Nat) : Nat × Nat :=
  (List.range' (pos - 20) (pos - (pos - 20))).foldl (better data pos) (0, 0)

/-- The token stream of `LZ.COMPRESS` from `pos` on (R130); `fuel` bounds the tokens. -/
def lzEncodedFrom (data : List Byte) : Nat → Nat → List Byte
  | 0, _ => []
  | fuel + 1, pos =>
    match data[pos]? with
    | none => []
    | some b =>
      let best := bestMatch data pos
      if 3 ≤ best.1 then
        0x01 :: BitVec.ofNat 8 (pos - best.2) :: BitVec.ofNat 8 best.1 :: lzEncodedFrom data fuel (pos + best.1)
      else 0x00 :: b :: lzEncodedFrom data fuel (pos + 1)

/-- The result of `LZ.COMPRESS` (R88, R130). -/
def lzEncoded (data : List Byte) : List Byte := lzEncodedFrom data data.length 0

/-- `n` bytes copied from distance `offset`, each appended before the next is read (R148). -/
def copied (offset : Nat) : Nat → List Byte → List Byte
  | 0, out => out
  | n + 1, out => copied offset n (out ++ (out[out.length - offset]?).toList)

/-- The tokens of an LZ77 stream executed in order; `pos` is the index of the next token and `out` what the tokens before it
gave (R140 to R151). -/
def lzExpanded (pos : Nat) (out : List Byte) : List Byte → Returned
  | [] => .bytes out
  | tag :: rest =>
    if tag = 0x00 then
      match rest with
      | [] => .failure .invalidFormat .lzMissingLiteral pos 0 0
      | b :: rest => lzExpanded (pos + 2) (out ++ [b]) rest
    else if tag = 0x01 then
      match rest with
      | [] => .failure .invalidFormat .lzIncompleteMatch pos 0 0
      | [_] => .failure .invalidFormat .lzIncompleteMatch pos 1 0
      | offset :: length :: rest =>
        if out.length < offset.toNat then .failure .invalidFormat .lzOffsetRange pos offset.toNat out.length
        else if offset = 0 ∧ length ≠ 0 then .failure .invalidFormat .lzZeroOffset pos 0 length.toNat
        else lzExpanded (pos + 3) (copied offset.toNat length.toNat out) rest
    else .failure .invalidFormat .lzBadTag pos tag.toNat 0

/-- The result of `LZ.DECOMPRESS` (R89, R140). -/
def lzDecoded (bs : List Byte) : Returned := lzExpanded 0 [] bs

/-- The result of the operation a command word selects, on a bound input buffer (R86 to R89). -/
def operationResult (cmd : BitVec 2) (bs : List Byte) : Returned :=
  if cmd = 0b00 then .bytes (rleEncoded bs)
  else if cmd = 0b01 then rleDecoded bs
  else if cmd = 0b10 then .bytes (lzEncoded bs)
  else lzDecoded bs

end Sys2Proof.Machine
end

