-- ==== Sys2Proof/Safety.lean ====
section
/-! DEFINITION. The terms claims are made in: the argument and the result of an operation (spec/40_commands.md R85, R91), runs
of the machine, the frames of instructions, and the invariants of the machine. -/

namespace Sys2Proof.Machine

/-- The argument of an operation: `IN[0], …, IN[IN_LEN - 1]` (R28). -/
def inputBytes (s : State) : List Byte := (List.range s.inLen).map (inByte s)

/-- What has been produced: `OUT[0], …, OUT[OUT_LEN - 1]` (R42, R85). -/
def outputBytes (s : State) : List Byte := (List.range s.outLen).map (outByte s)

/-- What the HOST reads back: nothing before an operation has ended (R85). -/
def returned (s : State) : Option Returned :=
  match s.status with
  | .idle => none
  | .busy => none
  | .done => some (.bytes (outputBytes s))
  | .error => some (.failure s.errKind s.errCause s.errPos s.errInfo0 s.errInfo1)

/-- `n` steps of the machine. -/
def runSteps (n : Nat) (s : State) : Result := Host.Core.run Sys2Proof.core n s

/-- Some number of steps leads from `s` to `t`. -/
def Reaches (s t : State) : Prop := ∃ n, runSteps n s = .next t

/-- At least one step, and then some number of steps, leads from `s` to `t`. -/
def RunsTo (s t : State) : Prop := ∃ n, runSteps (n + 1) s = .next t

/-- The HOST has bound a buffer, has selected the command `cmd`, and performing START is all it has left to do
(steps 1 to 4 of R194). -/
structure ReadyToStart (cmd : BitVec 2) (s : State) : Prop where
  notBusy : s.status ≠ .busy
  bound : s.inValid = true
  selected : s.cmd = cmd
  startNext : s.agenda = [.host .start]

/-- `OUT` has room for `n` more bytes (R54). -/
def roomFor (n : Nat) (s : State) : Bool := Config.withinCap s.params.outCap (s.outLen + n)

/-- What no ENGINE step changes: what the HOST put there (R41), the parameters, and every byte of `IN`. -/
def SameInput (s t : State) : Prop :=
  t.cmd = s.cmd ∧ t.inValid = s.inValid ∧ t.inLen = s.inLen ∧ t.params = s.params ∧ ∀ i, inByte t i = inByte s i

/-- The failure record is unchanged (R17 to R20). -/
def SameFailure (s t : State) : Prop :=
  t.errKind = s.errKind ∧ t.errCause = s.errCause ∧ t.errPos = s.errPos ∧ t.errInfo0 = s.errInfo0 ∧
    t.errInfo1 = s.errInfo1

/-- The RLE encoder's working registers are unchanged (R23). -/
def SameRunRegs (s t : State) : Prop := t.runVal = s.runVal ∧ t.runCnt = s.runCnt

/-- The match finder's working registers are unchanged (R24). -/
def SameFinderRegs (s t : State) : Prop :=
  t.cand = s.cand ∧ t.k = s.k ∧ t.bestLen = s.bestLen ∧ t.bestO = s.bestO

/-- The match registers of the token decoder are unchanged (R25). -/
def SameMatchRegs (s t : State) : Prop :=
  t.mOff = s.mOff ∧ t.mLen = s.mLen ∧ t.src = s.src ∧ t.rem = s.rem

/-- The token decoder's working registers are unchanged (R25). -/
def SameDecoderRegs (s t : State) : Prop := t.dstate = s.dstate ∧ t.tag = s.tag ∧ SameMatchRegs s t

/-- Exactly the bytes `vs` were appended: they stand at `OUT[OUT_LEN], …`, `OUT_LEN` grew by their number, and every other
byte of `OUT` reads as before (R6, R42). -/
def Appended (vs : List Byte) (s t : State) : Prop :=
  t.outLen = s.outLen + vs.length ∧
    (∀ j : Fin vs.length, outByte t (s.outLen + j) = vs[j]) ∧
    ∀ i, (i < s.outLen ∨ s.outLen + vs.length ≤ i) → outByte t i = outByte s i

/-- `t` is `s` after the failure entry of R166: the record is written, `OUT_LEN` is zero, `STATUS` is `ERROR`; `POS`, the
input and the byte cells of `IN` are as they were. -/
def FailedWith (kind : ErrKind) (cause : ErrCause) (pos info0 info1 : Nat) (s t : State) : Prop :=
  t.errKind = kind ∧ t.errCause = cause ∧ t.errPos = pos ∧ t.errInfo0 = info0 ∧ t.errInfo1 = info1 ∧
    t.outLen = 0 ∧ t.status = .error ∧ t.pos = s.pos ∧ SameInput s t

/-- The bytes at `pos, …, pos + c - 1` of the input are `c` equal bytes, `c` in `1..255` (R101). -/
def EqualRun (s : State) (pos c : Nat) : Prop :=
  1 ≤ c ∧ c ≤ 255 ∧ pos + c ≤ s.inLen ∧ ∀ j, j < c → inByte s (pos + j) = inByte s pos

/-- The bytes at `o` and at `pos` agree over a length of `L`, which stays inside the input and below the cap (R122). -/
def MatchesOver (s : State) (pos o L : Nat) : Prop :=
  L ≤ 255 ∧ L ≤ s.inLen - pos ∧ ∀ j, j < L → inByte s (o + j) = inByte s (pos + j)

/-- The first check of R165 that fails at the ENGINE step about to be made, or `NONE`: for a token the tag, then the presence
of its payload, then the offset range, then the zero offset. -/
def firstFailedCheck (s : State) : ErrCause :=
  match s.phase with
  | .prologue => if s.inValid then .none else .notABuffer
  | .lengthTest => if s.inLen % 2 = 1 then .rleOddLength else .none
  | .body =>
    if s.inLen ≤ s.pos then .none
    else if s.cmd = 0b01 then (if inByte s s.pos = 0 then .rleZeroCount else .none)
    else if s.cmd = 0b11 then
      if inByte s s.pos ≠ 0x00 ∧ inByte s s.pos ≠ 0x01 then .lzBadTag
      else if inByte s s.pos = 0x00 then (if s.inLen ≤ s.pos + 1 then .lzMissingLiteral else .none)
      else if s.inLen ≤ s.pos + 2 then .lzIncompleteMatch
      else if s.outLen < (inByte s (s.pos + 1)).toNat then .lzOffsetRange
      else if inByte s (s.pos + 1) = 0 ∧ inByte s (s.pos + 2) ≠ 0 then .lzZeroOffset
      else .none
    else .none

/-- The working registers of the units a decoder does not use are unchanged (R23, R24). -/
def SameEncoderRegs (s t : State) : Prop := SameRunRegs s t ∧ SameFinderRegs s t

/-- The invariant of the machine: canonical memories inside their capacities, a failure record that agrees with `STATUS`,
and an operation in progress that stands where R83 lets it stand. -/
structure Inv (s : State) : Prop where
  /-- `IN` is in canonical form. -/
  inMemWf : Memory.wf s.inMem = true
  /-- `OUT` is in canonical form. -/
  outMemWf : Memory.wf s.outMem = true
  /-- Only cells of `IN` that exist are listed (R28). -/
  inCells : ∀ c ∈ s.inMem, Config.cellExists s.params.inCap c.1 = true
  /-- Only cells of `OUT` that exist are listed (R29). -/
  outCells : ∀ c ∈ s.outMem, Config.cellExists s.params.outCap c.1 = true
  /-- `IN_LEN` is within `IN_CAP` (R14). -/
  inLenOk : Config.withinCap s.params.inCap s.inLen = true
  /-- `OUT_LEN` is within `OUT_CAP` (R54). -/
  outLenOk : Config.withinCap s.params.outCap s.outLen = true
  /-- Every byte below `OUT_LEN` was appended (R42). -/
  outKnown : ∀ i, i < s.outLen → (Memory.read s.outMem i).isSome = true
  /-- Before any operation there is no output (R31). -/
  idleEmpty : s.status = .idle → s.outLen = 0
  /-- After a failure there is no partial result (R16). -/
  errorEmpty : s.status = .error → s.outLen = 0
  /-- `ERR_KIND` is the kind of `ERR_CAUSE` (R161). -/
  kindOfCause : s.errKind = causeKind s.errCause
  /-- `ERR_KIND` is `NONE` whenever `STATUS` is not `ERROR`, and never otherwise (R17). -/
  kindIffError : s.errKind ≠ .none ↔ s.status = .error
  /-- The detail registers are zero when `ERR_KIND = NONE` (R19, R20). -/
  detailClear : s.errKind = .none → s.errPos = 0 ∧ s.errInfo0 = 0 ∧ s.errInfo1 = 0
  /-- Before the first token nothing is consumed and nothing produced (R80, R193). -/
  atBeginning : s.status = .busy → s.phase ≠ .body → s.pos = 0 ∧ s.outLen = 0
  /-- Only `RLE.DECOMPRESS` has an odd-length test (R83). -/
  testOnlyInRle : s.status = .busy → s.phase = .lengthTest → s.cmd = 0b01
  /-- After the prologue a buffer is bound (R81). -/
  boundAfterPrologue : s.status = .busy → s.phase ≠ .prologue → s.inValid = true
  /-- `POS` never exceeds `IN_LEN` (R22, R152). -/
  posLe : s.status = .busy → s.pos ≤ s.inLen
  /-- `RLE.DECOMPRESS` consumes whole pairs of a stream of even length (R112, R114). -/
  pairsEven : s.status = .busy → s.cmd = 0b01 → s.phase = .body → s.pos % 2 = 0 ∧ s.inLen % 2 = 0
  /-- Between tokens `LZ.DECOMPRESS` expects a tag (R141). -/
  expectsTag : s.status = .busy → s.cmd = 0b11 → s.phase = .body → s.dstate = .expectTag

/-- Every register of `LEN_W` bits holds a value of `LEN_W` bits (R4, R92). -/
structure FitsLenW (s : State) : Prop where
  paramsWf : s.params.wf = true
  inLen : Config.fitsLenW s.params.lenW s.inLen = true
  outLen : Config.fitsLenW s.params.lenW s.outLen = true
  errPos : Config.fitsLenW s.params.lenW s.errPos = true
  errInfo0 : Config.fitsLenW s.params.lenW s.errInfo0 = true
  errInfo1 : Config.fitsLenW s.params.lenW s.errInfo1 = true
  pos : Config.fitsLenW s.params.lenW s.pos = true
  cand : Config.fitsLenW s.params.lenW s.cand = true
  bestO : Config.fitsLenW s.params.lenW s.bestO = true
  src : Config.fitsLenW s.params.lenW s.src = true

end Sys2Proof.Machine
end

