-- ==== Sys2Proof/Certificates/Slice0/Obligations.lean ====
section
/-! DEFINITION. The statements for the provers. -/

open Sys2Proof Sys2Proof.Machine

/-! ### Encoding -/

/-- Decoding the bytes of a well-formed instruction gives it back, with every operand (R61 to R64, R68 to R70). -/
def Obligations.DecodingInvertsEncoding : Prop :=
  ∀ i : Instr, i.wf = true → decode i.space (encode i) = .ok (i, [])

/-- What the decoder reads is well formed, belongs to the space it was read in, and encodes to the bytes read
(R60 to R70: each form has one encoding). -/
def Obligations.EncodingInvertsDecoding : Prop :=
  ∀ (space : Space) (bytes rest : List Byte) (i : Instr), decode space bytes = .ok (i, rest) →
    i.wf = true ∧ i.space = space ∧ encode i ++ rest = bytes

/-- Words written out from the tables of R61 to R64 and R68 to R70 decode to the instructions they stand for. -/
def Obligations.WordsOfTheSpecDecode : Prop :=
  decode .rleStream [0x03, 0x41] = .ok (.rlePair 3 0x41, []) ∧
    decode .rleStream [0x00, 0x42, 0x07] = .ok (.rleIllegalZeroCount 0x42, [0x07]) ∧
    decode .rleStream [0x07] = .ok (.rleIllegalOddLength 0x07, []) ∧
    decode .lzStream [0x00, 0x41, 0x01] = .ok (.lzLit (some 0x41), [0x01]) ∧
    decode .lzStream [0x01, 0x02, 0x0A] = .ok (.lzMatch (some 2) (some 10), []) ∧
    decode .lzStream [0x01, 0xFF] = .ok (.lzMatch (some 0xFF) none, []) ∧
    decode .lzStream [0x07, 0x01] = .ok (.lzIllegalTag 0x07, [0x01]) ∧
    decodeCommand 0b00 = .rleCompress ∧ decodeCommand 0b01 = .rleDecompress ∧
    decodeCommand 0b10 = .lzCompress ∧ decodeCommand 0b11 = .lzDecompress

/-- R65: an RLE token occupies two bytes; in an LZ77 stream the tag alone gives the length, 2 for `0x00`, 3 for `0x01`, and
any other tag spells no token. Decoding depends on the token's own bytes only. -/
def Obligations.TheTagAloneGivesTheTokenLength : Prop :=
  (∀ (c v : Byte) (rest : List Byte), ∃ i, decode .rleStream (c :: v :: rest) = .ok (i, rest) ∧ (encode i).length = 2) ∧
    (∀ (b : Byte) (rest : List Byte), decode .lzStream (0x00 :: b :: rest) = .ok (.lzLit (some b), rest)) ∧
    (∀ (o l : Byte) (rest : List Byte),
      decode .lzStream (0x01 :: o :: l :: rest) = .ok (.lzMatch (some o) (some l), rest)) ∧
    ∀ (t : Byte) (rest : List Byte), t ≠ 0x00 → t ≠ 0x01 → decode .lzStream (t :: rest) = .ok (.lzIllegalTag t, rest)

/-! ### One step of the machine -/

/-- A step runs the decoded instruction (R8, R83, R142): with an operation in progress and no move listed it is `exec` of
the fetched instruction; that is the token at `POS` for a decoder past its tests, the odd-length class for a failed test, and
the command in `CMD` otherwise. A listed move of the ENGINE or the HOST is made in its place (log entry 2). -/
def Obligations.StepRunsTheDecodedInstruction : Prop :=
  (∀ s : State, s.agenda = [] → s.status = .busy →
    step s = exec (fetch s) s ∧
      (s.phase = .prologue → step s = exec (decodeCommand s.cmd) s) ∧
      (s.phase = .lengthTest → s.cmd = 0b01 →
        step s = if s.inLen % 2 = 1 then exec (.rleIllegalOddLength (inByte s (s.inLen - 1))) s
          else exec .rleDecompress s) ∧
      (s.phase = .body → s.pos < s.inLen → s.cmd = 0b01 → ∀ i rest,
        decode .rleStream (tokenWindow s) = .ok (i, rest) → step s = exec i s) ∧
      (s.phase = .body → s.pos < s.inLen → s.cmd = 0b11 → ∀ i rest,
        decode .lzStream (tokenWindow s) = .ok (i, rest) → step s = exec i s) ∧
      (s.phase = .body → (s.inLen ≤ s.pos ∨ s.cmd = 0b00 ∨ s.cmd = 0b10) → step s = exec (decodeCommand s.cmd) s)) ∧
    (∀ (s : State) (rest : List Move), s.agenda = .engine :: rest → s.status = .busy →
      step s = exec (fetch { s with agenda := rest }) { s with agenda := rest }) ∧
    (∀ (s : State) (rest : List Move), s.agenda = .host .start :: rest →
      step s = exec .start { s with agenda := rest }) ∧
    ∀ (s : State) (a : HostAction) (rest : List Move), s.agenda = .host a :: rest →
      step s = hostAct a { s with agenda := rest }

/-- The token window is the bytes of `IN` from `POS` on, at most three and never beyond `IN_LEN` (R28, R60, R66). -/
def Obligations.TheTokenWindowStaysInsideTheInput : Prop :=
  ∀ s : State, (tokenWindow s).length = min 3 (s.inLen - s.pos) ∧
    ∀ j b, (tokenWindow s)[j]? = some b → s.pos + j < s.inLen ∧ b = inByte s (s.pos + j)

/-- R83: the ENGINE has a step exactly when `STATUS = BUSY`; otherwise it changes no state. -/
def Obligations.TheEngineIsIdleUnlessBusy : Prop :=
  ∀ s : State, s.status ≠ .busy → s.agenda = [] → ∀ n, runSteps n s = .next s

/-! ### START, prologue, completion -/

/-- R80 and R198: START writes what R80 lists and leaves everything else as it is; while `BUSY` it has no transition. The
clause on `phase`, a write R80 does not list, is the model's own (log entry 1, DEDUCED). -/
def Obligations.StartBeginsAnOperation : Prop :=
  ∀ s : State,
    (s.status ≠ .busy → ∃ t, exec .start s = .next t ∧ t.status = .busy ∧ t.outLen = 0 ∧ t.errKind = .none ∧
      t.errCause = .none ∧ t.errPos = 0 ∧ t.errInfo0 = 0 ∧ t.errInfo1 = 0 ∧ t.pos = 0 ∧ t.phase = .prologue ∧
      SameInput s t ∧ SameEncoderRegs s t ∧ SameDecoderRegs s t ∧ t.inMem = s.inMem ∧ t.outMem = s.outMem) ∧
    (s.status = .busy → exec .start s = .refused .startWhileBusy)

/-- R81: the first step after START is the first check of all four operations; without a bound buffer it fails, whatever
`IN` and `IN_LEN` hold; with one it passes, and R81 then writes nothing. What the model changes there is its own: the phase
(log entry 1, DEDUCED), and `DSTATE`, which `LZ.DECOMPRESS` initialises at this moment (log entry 16, DESIGN CHOICE; R30 asks
that it be initialised before it is read and names no moment). -/
def Obligations.ThePrologueChecksForABuffer : Prop :=
  (∀ s t : State, exec .start s = .next t → t.phase = .prologue ∧ fetch t = decodeCommand t.cmd) ∧
    ∀ (s : State) (w : BitVec 2), s.phase = .prologue →
      (s.inValid = false → ∃ t, exec (decodeCommand w) s = .next t ∧
        FailedWith .invalidInput .notABuffer 0 0 0 s t ∧ SameEncoderRegs s t ∧ SameDecoderRegs s t) ∧
      (s.inValid = true → ∃ t, exec (decodeCommand w) s = .next t ∧
        t.phase = (if w = 0b01 then .lengthTest else .body) ∧
        t.dstate = (if w = 0b11 then .expectTag else s.dstate) ∧ t.status = s.status ∧ t.pos = s.pos ∧
        Appended [] s t ∧ SameInput s t ∧ SameFailure s t ∧ SameEncoderRegs s t ∧ t.tag = s.tag ∧ SameMatchRegs s t)

/-- R82: with a bound buffer of length 0 every operation completes with an empty result. -/
def Obligations.EmptyInputGivesEmptyOutput : Prop :=
  ∀ (cmd : BitVec 2) (s : State), ReadyToStart cmd s → s.inLen = 0 →
    ∃ t, RunsTo s t ∧ returned t = some (.bytes []) ∧ t.outLen = 0

/-- The completing step of every command: `STATUS <- DONE` and nothing else (R84). -/
def Obligations.CompletionOnlyWritesStatus : Prop :=
  ∀ (s : State) (w : BitVec 2), s.phase = .body → s.inLen ≤ s.pos →
    exec (decodeCommand w) s = .next { s with status := .done }

/-- R84: an ENGINE step completes the operation exactly when all input has been consumed; it writes `STATUS <- DONE` only,
the failure record is clear as START left it, and the ENGINE stops. -/
def Obligations.OperationsCompleteExactlyAtTheEndOfInput : Prop :=
  ∀ s t : State, Inv s → s.status = .busy → s.agenda = [] → step s = .next t →
    (t.status = .done ↔ s.phase = .body ∧ s.pos = s.inLen) ∧
    (t.status = .done → t = { s with status := .done } ∧ t.errKind = .none ∧ t.errCause = .none ∧ t.errPos = 0 ∧
      t.errInfo0 = 0 ∧ t.errInfo1 = 0 ∧ returned t = some (.bytes (outputBytes s)) ∧ step t = .next t)

/-! ### The RLE encoder -/

/-- R101: one RLE encoder step emits the pair of the longest run that starts at `POS`, cut at 255. -/
def Obligations.TheRunEncoderEmitsTheLongestRun : Prop :=
  ∀ s : State, s.phase = .body → s.pos < s.inLen → roomFor 2 s = true →
    ∃ t c, exec .rleCompress s = .next t ∧ EqualRun s s.pos c ∧ (∀ d, EqualRun s s.pos d → d ≤ c) ∧
      Appended [BitVec.ofNat 8 c, inByte s s.pos] s t ∧ t.runVal = inByte s s.pos ∧ t.runCnt = BitVec.ofNat 8 c ∧
      t.pos = s.pos + c ∧ t.status = s.status ∧ SameInput s t ∧ SameFailure s t ∧ SameFinderRegs s t ∧
      SameDecoderRegs s t

/-- R102: `n` equal bytes become `n / 255` pairs of count 255 and one pair of the rest, if there is one. -/
def Obligations.RunsAreCutAt255 : Prop :=
  ∀ (s : State) (n : Nat) (b : Byte), ReadyToStart 0b00 s → s.params.outCap = none →
    inputBytes s = List.replicate n b →
    ∃ t, RunsTo s t ∧ returned t = some (.bytes ((List.replicate (n / 255) [0xFF, b]).flatten ++
      if n % 255 = 0 then [] else [BitVec.ofNat 8 (n % 255), b]))

/-- R104 (a), (b) and (d): the encoder's output has even length, no zero count, and two consecutive pairs of the same value
only where the first has count 255. -/
def Obligations.RunEncoderOutputIsCanonical : Prop :=
  ∀ s t : State, ReadyToStart 0b00 s → RunsTo s t → t.status = .done →
    t.outLen % 2 = 0 ∧ (∀ k, 2 * k < t.outLen → outByte t (2 * k) ≠ 0) ∧
    ∀ k, 2 * k + 3 < t.outLen → outByte t (2 * k + 1) = outByte t (2 * k + 3) → outByte t (2 * k) = 0xFF

/-! ### The RLE decoder -/

/-- R112: `RLE.PAIR` appends its value `count` times and moves `POS` by 2; a zero count fails before anything is appended;
in `RLE.DECOMPRESS` its operands are `IN[POS]` and `IN[POS + 1]`, which both exist. -/
def Obligations.PairsRepeatTheirValue : Prop :=
  (∀ (count value : Byte) (s : State),
    (count ≠ 0 → roomFor count.toNat s = true → ∃ t, exec (.rlePair count value) s = .next t ∧
      Appended (List.replicate count.toNat value) s t ∧ t.pos = s.pos + 2 ∧ t.status = s.status ∧ SameInput s t ∧
      SameFailure s t ∧ SameEncoderRegs s t ∧ SameDecoderRegs s t) ∧
    (count = 0 → ∃ t, exec (.rlePair count value) s = .next t ∧
      FailedWith .invalidFormat .rleZeroCount s.pos 0 0 s t ∧ SameEncoderRegs s t ∧ SameDecoderRegs s t)) ∧
    ∀ s : State, Inv s → s.status = .busy → s.agenda = [] → s.cmd = 0b01 → s.phase = .body → s.pos < s.inLen →
      s.pos + 1 < s.inLen ∧ step s = exec (.rlePair (inByte s s.pos) (inByte s (s.pos + 1))) s

/-- R113: a pair whose count byte is zero fails with `RLE_ZERO_COUNT` at its index, whatever its value byte; no output is
left. -/
def Obligations.ZeroCountFails : Prop :=
  ∀ (value : Byte) (s : State), ∃ t, exec (.rleIllegalZeroCount value) s = .next t ∧
    FailedWith .invalidFormat .rleZeroCount s.pos 0 0 s t ∧ SameEncoderRegs s t ∧ SameDecoderRegs s t ∧
    exec (.rlePair 0 value) s = .next t

/-- The meaning of `RLE.ILLEGAL_ODD_LENGTH` (R111): the recorded position is the last byte's, the detail is the length. -/
def Obligations.OddLengthRecordsTheLength : Prop :=
  ∀ (last : Byte) (s : State), ∃ t, exec (.rleIllegalOddLength last) s = .next t ∧
    FailedWith .invalidFormat .rleOddLength (s.inLen - 1) s.inLen 0 s t ∧ SameEncoderRegs s t ∧ SameDecoderRegs s t

/-- R111: in `RLE.DECOMPRESS` the odd-length test is made before any pair is executed and whatever the pairs hold; an odd
length fails, an even one (0 too) passes with nothing appended. That the test is the step after the prologue, three steps with
START, and the phase after it are the model's reading of R83 (log entry 1, DEDUCED). -/
def Obligations.OddLengthIsTestedBeforeAnyPair : Prop :=
  ∀ s : State, ReadyToStart 0b01 s →
    ∃ t, runSteps 3 s = .next t ∧
      (s.inLen % 2 = 1 → returned t = some (.failure .invalidFormat .rleOddLength (s.inLen - 1) s.inLen 0) ∧
        t.outLen = 0) ∧
      (s.inLen % 2 = 0 → t.status = .busy ∧ t.phase = .body ∧ t.pos = 0 ∧ t.outLen = 0)

/-- Past its tests a decode command executes the token at `POS` (R110, R140, R142): the whole tag selects the form, the
operands are the bytes after it; with a whole legal token and room for its bytes it completes. -/
def Obligations.TheDecodeCommandsRunTheTokenAtPos : Prop :=
  ∀ s : State, s.phase = .body → s.pos < s.inLen →
    (s.pos + 1 < s.inLen →
      exec .rleDecompress s = exec (.rlePair (inByte s s.pos) (inByte s (s.pos + 1))) s ∧
      (inByte s s.pos ≠ 0 → roomFor (inByte s s.pos).toNat s = true → ∃ t, exec .rleDecompress s = .next t ∧
        Appended (List.replicate (inByte s s.pos).toNat (inByte s (s.pos + 1))) s t ∧ t.pos = s.pos + 2)) ∧
    (inByte s s.pos = 0x00 → exec .lzDecompress s = exec (.lzLit (operandByte s 1)) s ∧
      (s.pos + 1 < s.inLen → roomFor 1 s = true → ∃ t, exec .lzDecompress s = .next t ∧
        Appended [inByte s (s.pos + 1)] s t ∧ t.pos = s.pos + 2)) ∧
    (inByte s s.pos = 0x01 → exec .lzDecompress s = exec (.lzMatch (operandByte s 1) (operandByte s 2)) s) ∧
    (inByte s s.pos ≠ 0x00 → inByte s s.pos ≠ 0x01 →
      exec .lzDecompress s = exec (.lzIllegalTag (inByte s s.pos)) s)

/-! ### The match finder -/

/-- R122: `MatchLen(pos, o)` is the largest length, at most 255 and inside the input, over which the bytes at `o` and `pos`
agree; it is 0 when the first bytes differ. -/
def Obligations.MatchLenIsTheLongestAgreement : Prop :=
  ∀ (s : State) (pos o : Nat), o < pos → pos < s.inLen →
    MatchesOver s pos o (matchLen s pos o) ∧ (∀ L, MatchesOver s pos o L → L ≤ matchLen s pos o) ∧
    (inByte s o ≠ inByte s pos → matchLen s pos o = 0)

/-- R121 and R126: the candidates are the up to 20 indices before `pos`, in ascending order; the length found stays inside
the input, and a match found has a distance of `1..min(pos, 20)`; there is no candidate at position 0. -/
def Obligations.TheWindowHoldsTwentyCandidates : Prop :=
  ∀ (s : State) (pos : Nat), pos < s.inLen →
    (∀ o, o ∈ candidates pos ↔ pos - 20 ≤ o ∧ o < pos) ∧ (candidates pos).Pairwise (· < ·) ∧
    (candidates pos).length = min pos 20 ∧
    (findBest pos s).bestLen.toNat ≤ min 255 (s.inLen - pos) ∧
    (1 ≤ (findBest pos s).bestLen.toNat →
      1 ≤ pos - (findBest pos s).bestO ∧ pos - (findBest pos s).bestO ≤ min pos 20) ∧
    (findBest 0 s).bestLen = 0

/-- R124: `BEST_LEN` is the greatest length over the window, and `BEST_O` the smallest candidate that has it; so among
equally long matches the token carries the largest distance. -/
def Obligations.FindBestTakesTheFirstLongest : Prop :=
  ∀ (s : State) (pos : Nat), pos < s.inLen →
    (∀ o, pos - 20 ≤ o → o < pos → matchLen s pos o ≤ (findBest pos s).bestLen.toNat) ∧
    (1 ≤ (findBest pos s).bestLen.toNat →
      pos - 20 ≤ (findBest pos s).bestO ∧ (findBest pos s).bestO < pos ∧
      matchLen s pos (findBest pos s).bestO = (findBest pos s).bestLen.toNat ∧
      ∀ o, pos - 20 ≤ o → o < pos → matchLen s pos o = (findBest pos s).bestLen.toNat →
        (findBest pos s).bestO ≤ o ∧ pos - o ≤ pos - (findBest pos s).bestO)

/-- R120: `FindBest` reads `IN` and `IN_LEN` only (two states that agree there get the same pair), never fails, and writes
`CAND`, `K`, `BEST_LEN` and `BEST_O` only; in particular it never touches `OUT`. -/
def Obligations.TheMatchFinderReadsTheInputOnly : Prop :=
  (∀ (s s' : State) (pos : Nat), pos < s.inLen → s'.inLen = s.inLen →
    (∀ i, i < s.inLen → inByte s' i = inByte s i) →
    (findBest pos s').bestLen = (findBest pos s).bestLen ∧
      (1 ≤ (findBest pos s).bestLen.toNat →
        (findBest pos s').bestO = (findBest pos s).bestO ∧ pos - 20 ≤ (findBest pos s).bestO ∧
          (findBest pos s).bestO < pos)) ∧
    ∀ (s : State) (pos : Nat), ∃ c k bl bo,
      findBest pos s = { s with cand := c, k := k, bestLen := bl, bestO := bo }

/-! ### The LZ77 encoder -/

/-- R131: a best match of at least 3 bytes is emitted as `01 offset length`, and the covered bytes are skipped. -/
def Obligations.LongMatchesAreEmitted : Prop :=
  ∀ s : State, s.phase = .body → s.pos < s.inLen → 3 ≤ (findBest s.pos s).bestLen.toNat → roomFor 3 s = true →
    ∃ t, exec .lzCompress s = .next t ∧
      Appended [0x01, BitVec.ofNat 8 (s.pos - (findBest s.pos s).bestO), (findBest s.pos s).bestLen] s t ∧
      1 ≤ s.pos - (findBest s.pos s).bestO ∧ s.pos - (findBest s.pos s).bestO ≤ 20 ∧
      t.pos = s.pos + (findBest s.pos s).bestLen.toNat ∧ t.pos ≤ s.inLen ∧ t.status = s.status ∧
      SameFinderRegs (findBest s.pos s) t ∧ SameInput s t ∧ SameFailure s t ∧ SameRunRegs s t ∧ SameDecoderRegs s t

/-- R132: a best match of at most 2 bytes leaves no trace; the byte at `POS` is emitted as the literal `00 byte`. -/
def Obligations.ShortMatchesGiveWayToLiterals : Prop :=
  ∀ s : State, s.phase = .body → s.pos < s.inLen → (findBest s.pos s).bestLen.toNat ≤ 2 → roomFor 2 s = true →
    ∃ t, exec .lzCompress s = .next t ∧ Appended [0x00, inByte s s.pos] s t ∧ t.pos = s.pos + 1 ∧
      t.status = s.status ∧ SameFinderRegs (findBest s.pos s) t ∧ SameInput s t ∧ SameFailure s t ∧ SameRunRegs s t ∧
      SameDecoderRegs s t

/-- R134 (e): a non-empty output of the LZ77 encoder begins with the literal of the first byte. -/
def Obligations.TheFirstTokenIsALiteral : Prop :=
  ∀ s t : State, ReadyToStart 0b10 s → 0 < s.inLen → RunsTo s t → t.status = .done →
    outByte t 0 = 0x00 ∧ outByte t 1 = inByte s 0 ∧ 2 ≤ t.outLen

/-! ### The LZ77 decoder -/

/-- R143: `LZ.LIT byte` appends its byte, any value, and moves `POS` by 2. -/
def Obligations.LiteralsAppendTheirByte : Prop :=
  ∀ (b : Byte) (s : State), s.pos + 1 < s.inLen → roomFor 1 s = true →
    ∃ t, exec (.lzLit (some b)) s = .next t ∧ Appended [b] s t ∧ t.pos = s.pos + 2 ∧ t.dstate = .expectTag ∧
      t.tag = 0x00 ∧ t.status = s.status ∧ SameInput s t ∧ SameFailure s t ∧ SameEncoderRegs s t ∧ SameMatchRegs s t

/-- R144: a tag `0x00` with no byte after it fails with `LZ_MISSING_LITERAL` at the tag's index; no output is left. -/
def Obligations.AMissingLiteralFails : Prop :=
  ∀ (byte : Option Byte) (s : State), (byte = none ∨ s.inLen ≤ s.pos + 1) →
    ∃ t, exec (.lzLit byte) s = .next t ∧ FailedWith .invalidFormat .lzMissingLiteral s.pos 0 0 s t ∧
      SameEncoderRegs s t ∧ SameMatchRegs s t

/-- R146: a tag `0x01` followed by fewer than two bytes fails with `LZ_INCOMPLETE_MATCH` and the number of bytes that do
follow, whatever a byte that follows holds. -/
def Obligations.AnIncompleteMatchFails : Prop :=
  ∀ (offset length : Option Byte) (s : State), s.pos < s.inLen → s.inLen ≤ s.pos + 2 →
    ∃ t, exec (.lzMatch offset length) s = .next t ∧
      FailedWith .invalidFormat .lzIncompleteMatch s.pos (s.inLen - s.pos - 1) 0 s t ∧
      (t.errInfo0 = 0 ∨ t.errInfo0 = 1) ∧ SameEncoderRegs s t ∧ SameMatchRegs s t

/-- R147: an offset greater than the bytes produced fails with `LZ_OFFSET_RANGE`, the offset and the output length, whatever
the length (0 too). -/
def Obligations.AnOffsetBeyondTheOutputFails : Prop :=
  ∀ (offset length : Byte) (s : State), s.pos + 2 < s.inLen → s.outLen < offset.toNat →
    ∃ t, exec (.lzMatch (some offset) (some length)) s = .next t ∧
      FailedWith .invalidFormat .lzOffsetRange s.pos offset.toNat s.outLen s t ∧ SameEncoderRegs s t

/-- R151: offset 0 with bytes to copy fails with `LZ_ZERO_OFFSET` and the length (this spec's own cause, D10); with length 0
it is accepted and appends nothing. -/
def Obligations.AZeroOffsetFailsUnlessNothingIsCopied : Prop :=
  ∀ (length : Byte) (s : State), s.pos + 2 < s.inLen →
    (1 ≤ length.toNat → ∃ t, exec (.lzMatch (some 0) (some length)) s = .next t ∧
      FailedWith .invalidFormat .lzZeroOffset s.pos 0 length.toNat s t ∧ SameEncoderRegs s t) ∧
    (length = 0 → ∃ t, exec (.lzMatch (some 0) (some length)) s = .next t ∧ Appended [] s t ∧ t.pos = s.pos + 3 ∧
      t.status = s.status ∧ SameInput s t ∧ SameFailure s t ∧ SameEncoderRegs s t)

/-- R148: a match within the output appends `B[j mod offset]` for `j < length`, where `B` is the last `offset` bytes of the
output before it; each appended byte equals the byte `offset` places before it, whether that was there before or was
appended by this copy. Every length is accepted, 0 to 2 too (R150). -/
def Obligations.MatchesCopyByteByByte : Prop :=
  ∀ (offset length : Byte) (s : State), s.pos + 2 < s.inLen → offset ≠ 0 → offset.toNat ≤ s.outLen →
    roomFor length.toNat s = true →
    ∃ t, exec (.lzMatch (some offset) (some length)) s = .next t ∧
      Appended ((List.range length.toNat).map fun j =>
        outByte s (s.outLen - offset.toNat + j % offset.toNat)) s t ∧
      (∀ j, j < length.toNat → outByte t (s.outLen + j) = outByte t (s.outLen - offset.toNat + j)) ∧
      t.pos = s.pos + 3 ∧ t.dstate = .expectTag ∧ t.tag = 0x01 ∧ t.mOff = offset ∧ t.mLen = length ∧
      t.src = s.outLen - offset.toNat + length.toNat ∧ t.rem = 0 ∧ t.status = s.status ∧ SameInput s t ∧
      SameFailure s t ∧ SameEncoderRegs s t

/-- R149: an unassigned tag fails with `LZ_BAD_TAG`, its index and its value; no byte is skipped. -/
def Obligations.AnIllegalTagFails : Prop :=
  (∀ (tag : Byte) (s : State), ∃ t, exec (.lzIllegalTag tag) s = .next t ∧
    FailedWith .invalidFormat .lzBadTag s.pos tag.toNat 0 s t ∧ SameEncoderRegs s t ∧ SameMatchRegs s t) ∧
    ∀ s : State, s.status = .busy → s.agenda = [] → s.cmd = 0b11 → s.phase = .body → s.pos < s.inLen →
      2 ≤ (inByte s s.pos).toNat → step s = exec (.lzIllegalTag (inByte s s.pos)) s

/-! ### Failures -/

/-- R166: failure entry writes the record, clears `OUT_LEN` and sets `STATUS`, all at once, and nothing else; control goes
nowhere and the ENGINE has no further step. -/
def Obligations.FailureEntryWritesTheRecordOnly : Prop :=
  ∀ (kind : ErrKind) (cause : ErrCause) (pos info0 info1 : Nat) (s : State),
    ∃ t, raise kind cause pos info0 info1 s = .next t ∧ FailedWith kind cause pos info0 info1 s t ∧
      SameEncoderRegs s t ∧ SameDecoderRegs s t ∧ t.inMem = s.inMem ∧ t.outMem = s.outMem ∧ t.phase = s.phase ∧
      t.agenda = s.agenda ∧ (s.agenda = [] → ∀ n, runSteps n t = .next t)

/-- R167: a step that fails has appended nothing, leaves no partial result and the input as it was, and its record is what
the HOST reads back. -/
def Obligations.FailuresArePreciseAndLeaveNoResult : Prop :=
  ∀ s t : State, s.status = .busy → s.agenda = [] → step s = .next t → t.status = .error →
    t.outLen = 0 ∧ t.outMem = s.outMem ∧ t.inMem = s.inMem ∧ t.pos = s.pos ∧ SameInput s t ∧
      returned t = some (.failure t.errKind t.errCause t.errPos t.errInfo0 t.errInfo1) ∧ outputBytes t = []

/-- R165: the failure a step reports is the first check that fails, in the order of R165; a step none of whose checks fails
does not end in `ERROR`. -/
def Obligations.TheFirstFailedCheckIsReported : Prop :=
  ∀ s t : State, Inv s → s.status = .busy → s.agenda = [] → step s = .next t →
    t.errCause = firstFailedCheck s ∧ (t.status = .error ↔ firstFailedCheck s ≠ .none)

/-- R162 and R163: `InvalidInput` comes from the prologue of an unbound buffer only, `InvalidFormat` from the two decode
operations only; so the compress operations fail for want of a buffer only. -/
def Obligations.OnlyDecodersReportInvalidFormat : Prop :=
  ∀ s t : State, Inv s → s.status = .busy → s.agenda = [] → step s = .next t → t.status = .error →
    (t.errKind = .invalidInput ↔ s.phase = .prologue ∧ s.inValid = false) ∧
    (t.errKind = .invalidFormat → s.cmd = 0b01 ∨ s.cmd = 0b11) ∧
    (s.cmd = 0b00 ∨ s.cmd = 0b10 → t.errCause = .notABuffer)

/-- R168: the only ways on from a failure are START, which clears the record, and reset. -/
def Obligations.OnlyStartOrResetLeavesAFailure : Prop :=
  ∀ s t : State, s.status = .error → step s = .next t →
    (t.status = .error ∧ returned t = returned s) ∨
      (∃ rest, s.agenda = .host .start :: rest ∧ t.status = .busy ∧ t.errKind = .none ∧ t.errCause = .none ∧
        t.errPos = 0 ∧ t.errInfo0 = 0 ∧ t.errInfo1 = 0) ∨
      ∃ rest, s.agenda = .host .reset :: rest ∧ t.status = .idle ∧ t.errKind = .none

/-- R15 and R85: the result of an operation stays readable, byte for byte, until the next START or reset. -/
def Obligations.ResultsPersistUntilStartOrReset : Prop :=
  ∀ s t : State, (s.status = .done ∨ s.status = .error) → step s = .next t →
    (∀ rest, s.agenda ≠ .host .start :: rest) → (∀ rest, s.agenda ≠ .host .reset :: rest) →
    t.status = s.status ∧ returned t = returned s

/-- The kind of each cause (the table of R161) and the codes of R15, R17, R18 and the register numbers of R21. -/
def Obligations.CodesAndNumbersOfTheInterface : Prop :=
  [statusCode .idle, statusCode .busy, statusCode .done, statusCode .error] = [0, 1, 2, 3] ∧
    [errKindCode .none, errKindCode .invalidInput, errKindCode .invalidFormat] = [0, 1, 2] ∧
    [ErrCause.none, .notABuffer, .rleOddLength, .rleZeroCount, .lzMissingLiteral, .lzIncompleteMatch, .lzOffsetRange,
        .lzBadTag, .lzZeroOffset].map (fun c => ((errCauseCode c).toNat, causeKind c)) =
      [(0, .none), (1, .invalidInput), (2, .invalidFormat), (3, .invalidFormat), (4, .invalidFormat),
        (5, .invalidFormat), (6, .invalidFormat), (7, .invalidFormat), (8, .invalidFormat)] ∧
    [HostReg.cmd, .start, .inValid, .inLen, .status, .outLen, .errKind, .errCause, .errPos, .errInfo0,
        .errInfo1].map hostRegNumber = [0, 1, 2, 3, 4, 5, 6, 7, 8, 9, 10]

/-! ### The HOST and reset -/

/-- R197 and R198: while `BUSY` the HOST may read `STATUS` and nothing else; no other access and no START is admitted
(reset is no access of the HOST's, R190). -/
def Obligations.WhileBusyTheHostMayOnlyReadStatus : Prop :=
  ∀ (s : State) (a : HostAction), s.status = .busy → a ≠ .reset →
    (a = .readReg .status → hostAct a s = .next s ∧ hostReadReg .status s = .next 1) ∧
    (a ≠ .readReg .status → ∃ r, hostAct a s = .refused r)

/-- R11, R13, R14 and R28: while not `BUSY` the HOST writes `CMD`, `IN_VALID`, `IN_LEN` and the cells of `IN`; each write
changes the one register or the one byte it names. A write to a cell that does not exist faults (log entry 13, DESIGN CHOICE). -/
def Obligations.HostWritesChangeOneThing : Prop :=
  ∀ s : State, s.status ≠ .busy →
    (∀ v, hostAct (.writeCmd v) s = .next { s with cmd := v }) ∧
    (∀ v, hostAct (.writeInValid v) s = .next { s with inValid := v }) ∧
    (∀ n, Config.withinCap s.params.inCap n = true → hostAct (.writeInLen n) s = .next { s with inLen := n }) ∧
    (∀ i v, Config.cellExists s.params.inCap i = true →
      ∃ m, hostAct (.writeIn i v) s = .next { s with inMem := m } ∧
        ∀ j, inByte { s with inMem := m } j = if j = i then v else inByte s j) ∧
    ∀ i v, Config.cellExists s.params.inCap i = false → hostAct (.writeIn i v) s = .fault (.noSuchInCell i)

/-- R21, R29, R40 and R48: while not `BUSY` the HOST reads each register whole, under its name, `OUT_LEN` when `DONE` or `ERROR`;
through the windows it reads the bytes of `IN`, and those of `OUT` when `DONE`; a read changes no state. That the reads the spec
does not give are refused (log entries 14 and 17) and that a window access beyond a capacity faults (log entry 13) is the
model's (DESIGN CHOICE). -/
def Obligations.HostReadsEveryRegister : Prop :=
  ∀ s : State, s.status ≠ .busy →
    (hostReadReg .cmd s = .next s.cmd.toNat ∧ hostReadReg .inValid s = .next s.inValid.toNat ∧
      hostReadReg .inLen s = .next s.inLen ∧ hostReadReg .status s = .next (statusCode s.status).toNat ∧
      hostReadReg .errKind s = .next (errKindCode s.errKind).toNat ∧
      hostReadReg .errCause s = .next (errCauseCode s.errCause).toNat ∧ hostReadReg .errPos s = .next s.errPos ∧
      hostReadReg .errInfo0 s = .next s.errInfo0 ∧ hostReadReg .errInfo1 s = .next s.errInfo1) ∧
    (s.status = .done ∨ s.status = .error → hostReadReg .outLen s = .next s.outLen) ∧
    (∀ i, Config.cellExists s.params.inCap i = true → hostReadIn i s = .next (inByte s i)) ∧
    (∀ i, s.status = .done → Config.cellExists s.params.outCap i = true → hostReadOut i s = .next (outByte s i)) ∧
    ((∀ r v, hostReadReg r s = .next v → hostAct (.readReg r) s = .next s) ∧
      (∀ i v, hostReadIn i s = .next v → hostAct (.readIn i) s = .next s) ∧
      ∀ i v, hostReadOut i s = .next v → hostAct (.readOut i) s = .next s) ∧
    hostAct (.readReg .start) s = .refused .startIsWriteOnly ∧
    (s.status = .idle → hostAct (.readReg .outLen) s = .refused .noResultToRead) ∧
    (∀ i, s.status ≠ .done → hostAct (.readOut i) s = .refused .noResultToRead) ∧
    (∀ i, Config.cellExists s.params.inCap i = false → hostAct (.readIn i) s = .fault (.noSuchInCell i)) ∧
    ∀ i, s.status = .done → Config.cellExists s.params.outCap i = false →
      hostAct (.readOut i) s = .fault (.noSuchOutCell i)

/-- R190 and R192: reset gives every register of R31 its value, also in the middle of an operation; nothing of it is a
result, and the ENGINE has no step until START. That the parameters and the moves still to come stay is the model's choice (log
entry 15, DESIGN CHOICE). -/
def Obligations.ResetGivesTheResetState : Prop :=
  ∀ s : State, ∃ t, hostAct .reset s = .next t ∧ t.cmd = 0b00 ∧ t.inValid = false ∧ t.inLen = 0 ∧ t.status = .idle ∧
    t.outLen = 0 ∧ t.errKind = .none ∧ t.errCause = .none ∧ t.errPos = 0 ∧ t.errInfo0 = 0 ∧ t.errInfo1 = 0 ∧
    returned t = none ∧ t.params = s.params ∧ t.agenda = s.agenda ∧ (s.agenda = [] → ∀ n, runSteps n t = .next t)

/-- R31: the values the spec gives the state after reset. -/
def Obligations.RegistersAfterReset : Prop :=
  State.reset.cmd = 0b00 ∧ State.reset.inValid = false ∧ State.reset.inLen = 0 ∧ State.reset.status = .idle ∧
    State.reset.outLen = 0 ∧ State.reset.errKind = .none ∧ State.reset.errCause = .none ∧ State.reset.errPos = 0 ∧
    State.reset.errInfo0 = 0 ∧ State.reset.errInfo1 = 0

/-- R191: a START performed right after reset ends in `InvalidInput` / `NOT_A_BUFFER`. -/
def Obligations.StartRightAfterResetFails : Prop :=
  ∀ s : State, ∃ t, runSteps 3 { s with agenda := [.host .reset, .host .start] } = .next t ∧
    returned t = some (.failure .invalidInput .notABuffer 0 0 0)

/-! ### Memory and capacity -/

/-- R42: an ENGINE step that does not fail appends to `OUT` and does nothing else to it: the bytes produced before stay, and
no cell below the old or at or above the new `OUT_LEN` is written; a step that fails writes no cell at all. -/
def Obligations.TheEngineOnlyAppends : Prop :=
  ∀ s t : State, s.status = .busy → s.agenda = [] → step s = .next t →
    (t.status ≠ .error → ∃ vs, Appended vs s t ∧ outputBytes t = outputBytes s ++ vs ∧
      ∀ i, (i < s.outLen ∨ t.outLen ≤ i) → Memory.read t.outMem i = Memory.read s.outMem i) ∧
    (t.status = .error → t.outMem = s.outMem)

/-- R41: no run of the ENGINE changes `IN`, `IN_LEN`, `IN_VALID` or `CMD`. -/
def Obligations.TheEngineNeverWritesTheInput : Prop :=
  ∀ s t : State, s.agenda = [] → Reaches s t → SameInput s t ∧ t.inMem = s.inMem

/-- R54: an `Append` with `OUT_LEN = OUT_CAP` and `IN_LEN > IN_CAP` are refused, each under a name of its own; with the
default capacities neither occurs. So every instruction that would append bytes that do not all fit is refused whole: a token
past its checks, and the token an encoder produces; nothing is wrapped, dropped or truncated, and it is neither `DONE` nor a
failure. -/
def Obligations.OverCapacityIsRefused : Prop :=
  (∀ (s : State) (v : Byte), s.params.outCap = some s.outLen → append v s = .refused .outputOverCapacity) ∧
    (∀ (s : State) (n c : Nat), s.params.inCap = some c → c < n → s.status ≠ .busy →
      hostAct (.writeInLen n) s = .refused .inputOverCapacity) ∧
    (∀ (s : State) (v : Byte), s.params.outCap = none → ∃ t, append v s = .next t) ∧
    (∀ (s : State) (n : Nat), s.params.inCap = none → s.status ≠ .busy → ∃ t, hostAct (.writeInLen n) s = .next t) ∧
    (∀ (count value : Byte) (s : State), count ≠ 0 → roomFor count.toNat s = false →
      exec (.rlePair count value) s = .refused .outputOverCapacity) ∧
    (∀ (b : Byte) (s : State), s.pos + 1 < s.inLen → roomFor 1 s = false →
      exec (.lzLit (some b)) s = .refused .outputOverCapacity) ∧
    (∀ (offset length : Byte) (s : State), s.pos + 2 < s.inLen → offset ≠ 0 → offset.toNat ≤ s.outLen →
      1 ≤ length.toNat → roomFor length.toNat s = false →
      exec (.lzMatch (some offset) (some length)) s = .refused .outputOverCapacity) ∧
    ∀ s : State, s.phase = .body → s.pos < s.inLen →
      (roomFor 2 s = false → exec .rleCompress s = .refused .outputOverCapacity) ∧
      (roomFor (if 3 ≤ (findBest s.pos s).bestLen.toNat then 3 else 2) s = false →
        exec .lzCompress s = .refused .outputOverCapacity) ∧
      (s.pos + 1 < s.inLen → inByte s s.pos ≠ 0 → roomFor (inByte s s.pos).toNat s = false →
        exec .rleDecompress s = .refused .outputOverCapacity) ∧
      (inByte s s.pos = 0x00 → s.pos + 1 < s.inLen → roomFor 1 s = false →
        exec .lzDecompress s = .refused .outputOverCapacity) ∧
      (inByte s s.pos = 0x01 → s.pos + 2 < s.inLen → inByte s (s.pos + 1) ≠ 0 →
        (inByte s (s.pos + 1)).toNat ≤ s.outLen → inByte s (s.pos + 2) ≠ 0 →
        roomFor (inByte s (s.pos + 2)).toNat s = false →
        exec .lzDecompress s = .refused .outputOverCapacity)

/-- With an unbounded output buffer every instruction answers a next state on every operand and in every state, but for a
START while `BUSY` (R54, R178: exceeding a capacity is the one situation without a meaning). -/
def Obligations.EveryInstructionCompletesWithoutACapacity : Prop :=
  ∀ (i : Instr) (s : State), s.params.outCap = none → (i = .start → s.status ≠ .busy) → ∃ t, exec i s = .next t

/-! ### Invariants -/

/-- Every step of either agent keeps the invariant of the machine. -/
def Obligations.StepKeepsTheInvariant : Prop :=
  ∀ s t : State, Inv s → step s = .next t → Inv t

/-- The invariant holds right after reset. -/
def Obligations.ResetMeetsTheInvariant : Prop := Inv State.reset

/-- R4 and R92: with `IN_CAP` and `OUT_CAP` below `2^LEN_W` no length or cursor register ever exceeds `LEN_W` bits, so none
wraps (`LEN_W` at least 8 is the model's reading, log entry 5). -/
def Obligations.LengthRegistersNeverOverflow : Prop :=
  ∀ s t : State, Inv s → FitsLenW s → step s = .next t → FitsLenW t

/-! ### Whole operations -/

/-- D2, R86 to R89: from START the machine reaches the result that the operation as a whole gives for the input buffer, for
each of the four commands. -/
def Obligations.StepsRefineTheWholeOperation : Prop :=
  ∀ (cmd : BitVec 2) (s : State), ReadyToStart cmd s → s.params.outCap = none →
    ∃ t, RunsTo s t ∧ returned t = some (operationResult cmd (inputBytes s))

/-- R202: every operation, once START has been performed (at least one step), terminates, and a step of its main loop either
fails or moves `POS` forward within the input. The number `IN_LEN + 4` is the model's: it counts START, prologue, odd-length
test and completion as one step each (R83; log entries 1 and 2); the spec gives finiteness only (R201, U14). -/
def Obligations.EveryOperationTerminates : Prop :=
  (∀ (cmd : BitVec 2) (s : State), ReadyToStart cmd s → s.params.outCap = none →
    ∃ n t, 1 ≤ n ∧ n ≤ s.inLen + 4 ∧ runSteps n s = .next t ∧ (t.status = .done ∨ t.status = .error)) ∧
    ∀ s t : State, Inv s → s.status = .busy → s.agenda = [] → s.phase = .body → s.pos < s.inLen → step s = .next t →
      t.status = .error ∨ (s.pos < t.pos ∧ t.pos ≤ t.inLen)

/-- R55: bounds on the length of a result as functions of `IN_LEN`. -/
def Obligations.ResultLengthsAreBounded : Prop :=
  ∀ (cmd : BitVec 2) (s t : State), ReadyToStart cmd s → RunsTo s t →
    (t.status = .done →
      (cmd = 0b00 → t.outLen % 2 = 0 ∧ t.outLen ≤ 2 * s.inLen ∧ 2 * ((s.inLen + 254) / 255) ≤ t.outLen) ∧
      (cmd = 0b01 → t.outLen ≤ 255 * (s.inLen / 2)) ∧
      (cmd = 0b10 → t.outLen ≤ 2 * s.inLen) ∧
      (cmd = 0b11 → t.outLen ≤ 85 * s.inLen)) ∧
    (t.status = .error → t.outLen = 0)

/-- R91: the outcome is a function of `CMD`, `IN_VALID`, `IN_LEN` and the input bytes only: two instances that agree on them
go through operations of the same length to the same outcome, whatever ran before, and the operation changes none of them. -/
def Obligations.OutcomesDependOnTheInputOnly : Prop :=
  ∀ s s' : State, s.status ≠ .busy → s'.status ≠ .busy → s.agenda = [.host .start] → s'.agenda = [.host .start] →
    s'.cmd = s.cmd → s'.inValid = s.inValid → s'.inLen = s.inLen → s'.params = s.params →
    (∀ i, i < s.inLen → inByte s' i = inByte s i) →
    ∀ n t, runSteps n s = .next t → ∃ t', runSteps n s' = .next t' ∧
      (1 ≤ n → t'.status = t.status ∧ returned t' = returned t) ∧ SameInput s t ∧ SameInput s' t'

/-- R90 for the RLE codec: decompressing what `RLE.COMPRESS` gave for a buffer gives the buffer back. -/
def Obligations.RunLengthCodingRoundTrips : Prop :=
  ∀ s : State, ReadyToStart 0b00 s → s.params.outCap = none →
    ∃ t, RunsTo s t ∧ t.status = .done ∧
      ∀ u : State, ReadyToStart 0b01 u → u.params.outCap = none → inputBytes u = outputBytes t →
        ∃ v, RunsTo u v ∧ returned v = some (.bytes (inputBytes s))

/-- R90 for the LZ77 codec: decompressing what `LZ.COMPRESS` gave for a buffer gives the buffer back. -/
def Obligations.MatchCodingRoundTrips : Prop :=
  ∀ s : State, ReadyToStart 0b10 s → s.params.outCap = none →
    ∃ t, RunsTo s t ∧ t.status = .done ∧
      ∀ u : State, ReadyToStart 0b11 u → u.params.outCap = none → inputBytes u = outputBytes t →
        ∃ v, RunsTo u v ∧ returned v = some (.bytes (inputBytes s))
end

