-- ==== Sys2Proof/Laws/State.lean ====
section
/-! SUPPORT. What each named update of the state does to each field, and to the bytes read through it. -/

namespace Sys2Proof.Machine

/-- The state after the bytes `vs` have been appended. -/
def pushed (vs : List Byte) (s : State) : State :=
  { s with outMem := writeBytes s.outMem s.outLen vs, outLen := s.outLen + vs.length }

section pushByteFields -- `Append`'s two writes (R6)
@[simp] theorem pushByte_cmd (v : Byte) (s : State) : (pushByte v s).cmd = s.cmd := rfl
@[simp] theorem pushByte_inValid (v : Byte) (s : State) : (pushByte v s).inValid = s.inValid := rfl
@[simp] theorem pushByte_inLen (v : Byte) (s : State) : (pushByte v s).inLen = s.inLen := rfl
@[simp] theorem pushByte_status (v : Byte) (s : State) : (pushByte v s).status = s.status := rfl
@[simp] theorem pushByte_outLen (v : Byte) (s : State) : (pushByte v s).outLen = s.outLen + 1 := rfl
@[simp] theorem pushByte_errKind (v : Byte) (s : State) : (pushByte v s).errKind = s.errKind := rfl
@[simp] theorem pushByte_errCause (v : Byte) (s : State) : (pushByte v s).errCause = s.errCause := rfl
@[simp] theorem pushByte_errPos (v : Byte) (s : State) : (pushByte v s).errPos = s.errPos := rfl
@[simp] theorem pushByte_errInfo0 (v : Byte) (s : State) : (pushByte v s).errInfo0 = s.errInfo0 := rfl
@[simp] theorem pushByte_errInfo1 (v : Byte) (s : State) : (pushByte v s).errInfo1 = s.errInfo1 := rfl
@[simp] theorem pushByte_pos (v : Byte) (s : State) : (pushByte v s).pos = s.pos := rfl
@[simp] theorem pushByte_runVal (v : Byte) (s : State) : (pushByte v s).runVal = s.runVal := rfl
@[simp] theorem pushByte_runCnt (v : Byte) (s : State) : (pushByte v s).runCnt = s.runCnt := rfl
@[simp] theorem pushByte_cand (v : Byte) (s : State) : (pushByte v s).cand = s.cand := rfl
@[simp] theorem pushByte_k (v : Byte) (s : State) : (pushByte v s).k = s.k := rfl
@[simp] theorem pushByte_bestLen (v : Byte) (s : State) : (pushByte v s).bestLen = s.bestLen := rfl
@[simp] theorem pushByte_bestO (v : Byte) (s : State) : (pushByte v s).bestO = s.bestO := rfl
@[simp] theorem pushByte_dstate (v : Byte) (s : State) : (pushByte v s).dstate = s.dstate := rfl
@[simp] theorem pushByte_tag (v : Byte) (s : State) : (pushByte v s).tag = s.tag := rfl
@[simp] theorem pushByte_mOff (v : Byte) (s : State) : (pushByte v s).mOff = s.mOff := rfl
@[simp] theorem pushByte_mLen (v : Byte) (s : State) : (pushByte v s).mLen = s.mLen := rfl
@[simp] theorem pushByte_src (v : Byte) (s : State) : (pushByte v s).src = s.src := rfl
@[simp] theorem pushByte_rem (v : Byte) (s : State) : (pushByte v s).rem = s.rem := rfl
@[simp] theorem pushByte_inMem (v : Byte) (s : State) : (pushByte v s).inMem = s.inMem := rfl
@[simp] theorem pushByte_outMem (v : Byte) (s : State) : (pushByte v s).outMem = Memory.write s.outMem s.outLen v := rfl
@[simp] theorem pushByte_phase (v : Byte) (s : State) : (pushByte v s).phase = s.phase := rfl
@[simp] theorem pushByte_agenda (v : Byte) (s : State) : (pushByte v s).agenda = s.agenda := rfl
@[simp] theorem pushByte_params (v : Byte) (s : State) : (pushByte v s).params = s.params := rfl
@[simp] theorem pushByte_epoch (v : Byte) (s : State) : (pushByte v s).epoch = s.epoch := rfl
@[simp] theorem pushByte_resets (v : Byte) (s : State) : (pushByte v s).resets = s.resets := rfl
end pushByteFields

section pushedFields -- a sequence of appends
@[simp] theorem pushed_cmd (vs : List Byte) (s : State) : (pushed vs s).cmd = s.cmd := rfl
@[simp] theorem pushed_inValid (vs : List Byte) (s : State) : (pushed vs s).inValid = s.inValid := rfl
@[simp] theorem pushed_inLen (vs : List Byte) (s : State) : (pushed vs s).inLen = s.inLen := rfl
@[simp] theorem pushed_status (vs : List Byte) (s : State) : (pushed vs s).status = s.status := rfl
@[simp] theorem pushed_outLen (vs : List Byte) (s : State) : (pushed vs s).outLen = s.outLen + vs.length := rfl
@[simp] theorem pushed_errKind (vs : List Byte) (s : State) : (pushed vs s).errKind = s.errKind := rfl
@[simp] theorem pushed_errCause (vs : List Byte) (s : State) : (pushed vs s).errCause = s.errCause := rfl
@[simp] theorem pushed_errPos (vs : List Byte) (s : State) : (pushed vs s).errPos = s.errPos := rfl
@[simp] theorem pushed_errInfo0 (vs : List Byte) (s : State) : (pushed vs s).errInfo0 = s.errInfo0 := rfl
@[simp] theorem pushed_errInfo1 (vs : List Byte) (s : State) : (pushed vs s).errInfo1 = s.errInfo1 := rfl
@[simp] theorem pushed_pos (vs : List Byte) (s : State) : (pushed vs s).pos = s.pos := rfl
@[simp] theorem pushed_runVal (vs : List Byte) (s : State) : (pushed vs s).runVal = s.runVal := rfl
@[simp] theorem pushed_runCnt (vs : List Byte) (s : State) : (pushed vs s).runCnt = s.runCnt := rfl
@[simp] theorem pushed_cand (vs : List Byte) (s : State) : (pushed vs s).cand = s.cand := rfl
@[simp] theorem pushed_k (vs : List Byte) (s : State) : (pushed vs s).k = s.k := rfl
@[simp] theorem pushed_bestLen (vs : List Byte) (s : State) : (pushed vs s).bestLen = s.bestLen := rfl
@[simp] theorem pushed_bestO (vs : List Byte) (s : State) : (pushed vs s).bestO = s.bestO := rfl
@[simp] theorem pushed_dstate (vs : List Byte) (s : State) : (pushed vs s).dstate = s.dstate := rfl
@[simp] theorem pushed_tag (vs : List Byte) (s : State) : (pushed vs s).tag = s.tag := rfl
@[simp] theorem pushed_mOff (vs : List Byte) (s : State) : (pushed vs s).mOff = s.mOff := rfl
@[simp] theorem pushed_mLen (vs : List Byte) (s : State) : (pushed vs s).mLen = s.mLen := rfl
@[simp] theorem pushed_src (vs : List Byte) (s : State) : (pushed vs s).src = s.src := rfl
@[simp] theorem pushed_rem (vs : List Byte) (s : State) : (pushed vs s).rem = s.rem := rfl
@[simp] theorem pushed_inMem (vs : List Byte) (s : State) : (pushed vs s).inMem = s.inMem := rfl
@[simp] theorem pushed_outMem (vs : List Byte) (s : State) : (pushed vs s).outMem = writeBytes s.outMem s.outLen vs := rfl
@[simp] theorem pushed_phase (vs : List Byte) (s : State) : (pushed vs s).phase = s.phase := rfl
@[simp] theorem pushed_agenda (vs : List Byte) (s : State) : (pushed vs s).agenda = s.agenda := rfl
@[simp] theorem pushed_params (vs : List Byte) (s : State) : (pushed vs s).params = s.params := rfl
@[simp] theorem pushed_epoch (vs : List Byte) (s : State) : (pushed vs s).epoch = s.epoch := rfl
@[simp] theorem pushed_resets (vs : List Byte) (s : State) : (pushed vs s).resets = s.resets := rfl
end pushedFields

section failedFields -- failure entry (R166)
@[simp] theorem failed_cmd (kd : ErrKind) (c : ErrCause) (p i0 i1 : Nat) (s : State) : (failed kd c p i0 i1 s).cmd = s.cmd := rfl
@[simp] theorem failed_inValid (kd : ErrKind) (c : ErrCause) (p i0 i1 : Nat) (s : State) : (failed kd c p i0 i1 s).inValid = s.inValid := rfl
@[simp] theorem failed_inLen (kd : ErrKind) (c : ErrCause) (p i0 i1 : Nat) (s : State) : (failed kd c p i0 i1 s).inLen = s.inLen := rfl
@[simp] theorem failed_status (kd : ErrKind) (c : ErrCause) (p i0 i1 : Nat) (s : State) : (failed kd c p i0 i1 s).status = .error := rfl
@[simp] theorem failed_outLen (kd : ErrKind) (c : ErrCause) (p i0 i1 : Nat) (s : State) : (failed kd c p i0 i1 s).outLen = 0 := rfl
@[simp] theorem failed_errKind (kd : ErrKind) (c : ErrCause) (p i0 i1 : Nat) (s : State) : (failed kd c p i0 i1 s).errKind = kd := rfl
@[simp] theorem failed_errCause (kd : ErrKind) (c : ErrCause) (p i0 i1 : Nat) (s : State) : (failed kd c p i0 i1 s).errCause = c := rfl
@[simp] theorem failed_errPos (kd : ErrKind) (c : ErrCause) (p i0 i1 : Nat) (s : State) : (failed kd c p i0 i1 s).errPos = p := rfl
@[simp] theorem failed_errInfo0 (kd : ErrKind) (c : ErrCause) (p i0 i1 : Nat) (s : State) : (failed kd c p i0 i1 s).errInfo0 = i0 := rfl
@[simp] theorem failed_errInfo1 (kd : ErrKind) (c : ErrCause) (p i0 i1 : Nat) (s : State) : (failed kd c p i0 i1 s).errInfo1 = i1 := rfl
@[simp] theorem failed_pos (kd : ErrKind) (c : ErrCause) (p i0 i1 : Nat) (s : State) : (failed kd c p i0 i1 s).pos = s.pos := rfl
@[simp] theorem failed_runVal (kd : ErrKind) (c : ErrCause) (p i0 i1 : Nat) (s : State) : (failed kd c p i0 i1 s).runVal = s.runVal := rfl
@[simp] theorem failed_runCnt (kd : ErrKind) (c : ErrCause) (p i0 i1 : Nat) (s : State) : (failed kd c p i0 i1 s).runCnt = s.runCnt := rfl
@[simp] theorem failed_cand (kd : ErrKind) (c : ErrCause) (p i0 i1 : Nat) (s : State) : (failed kd c p i0 i1 s).cand = s.cand := rfl
@[simp] theorem failed_k (kd : ErrKind) (c : ErrCause) (p i0 i1 : Nat) (s : State) : (failed kd c p i0 i1 s).k = s.k := rfl
@[simp] theorem failed_bestLen (kd : ErrKind) (c : ErrCause) (p i0 i1 : Nat) (s : State) : (failed kd c p i0 i1 s).bestLen = s.bestLen := rfl
@[simp] theorem failed_bestO (kd : ErrKind) (c : ErrCause) (p i0 i1 : Nat) (s : State) : (failed kd c p i0 i1 s).bestO = s.bestO := rfl
@[simp] theorem failed_dstate (kd : ErrKind) (c : ErrCause) (p i0 i1 : Nat) (s : State) : (failed kd c p i0 i1 s).dstate = s.dstate := rfl
@[simp] theorem failed_tag (kd : ErrKind) (c : ErrCause) (p i0 i1 : Nat) (s : State) : (failed kd c p i0 i1 s).tag = s.tag := rfl
@[simp] theorem failed_mOff (kd : ErrKind) (c : ErrCause) (p i0 i1 : Nat) (s : State) : (failed kd c p i0 i1 s).mOff = s.mOff := rfl
@[simp] theorem failed_mLen (kd : ErrKind) (c : ErrCause) (p i0 i1 : Nat) (s : State) : (failed kd c p i0 i1 s).mLen = s.mLen := rfl
@[simp] theorem failed_src (kd : ErrKind) (c : ErrCause) (p i0 i1 : Nat) (s : State) : (failed kd c p i0 i1 s).src = s.src := rfl
@[simp] theorem failed_rem (kd : ErrKind) (c : ErrCause) (p i0 i1 : Nat) (s : State) : (failed kd c p i0 i1 s).rem = s.rem := rfl
@[simp] theorem failed_inMem (kd : ErrKind) (c : ErrCause) (p i0 i1 : Nat) (s : State) : (failed kd c p i0 i1 s).inMem = s.inMem := rfl
@[simp] theorem failed_outMem (kd : ErrKind) (c : ErrCause) (p i0 i1 : Nat) (s : State) : (failed kd c p i0 i1 s).outMem = s.outMem := rfl
@[simp] theorem failed_phase (kd : ErrKind) (c : ErrCause) (p i0 i1 : Nat) (s : State) : (failed kd c p i0 i1 s).phase = s.phase := rfl
@[simp] theorem failed_agenda (kd : ErrKind) (c : ErrCause) (p i0 i1 : Nat) (s : State) : (failed kd c p i0 i1 s).agenda = s.agenda := rfl
@[simp] theorem failed_params (kd : ErrKind) (c : ErrCause) (p i0 i1 : Nat) (s : State) : (failed kd c p i0 i1 s).params = s.params := rfl
@[simp] theorem failed_epoch (kd : ErrKind) (c : ErrCause) (p i0 i1 : Nat) (s : State) : (failed kd c p i0 i1 s).epoch = s.epoch + 1 := rfl
@[simp] theorem failed_resets (kd : ErrKind) (c : ErrCause) (p i0 i1 : Nat) (s : State) : (failed kd c p i0 i1 s).resets = s.resets := rfl
end failedFields

section startedFields -- START (R80)
@[simp] theorem started_cmd (s : State) : (started s).cmd = s.cmd := rfl
@[simp] theorem started_inValid (s : State) : (started s).inValid = s.inValid := rfl
@[simp] theorem started_inLen (s : State) : (started s).inLen = s.inLen := rfl
@[simp] theorem started_status (s : State) : (started s).status = .busy := rfl
@[simp] theorem started_outLen (s : State) : (started s).outLen = 0 := rfl
@[simp] theorem started_errKind (s : State) : (started s).errKind = .none := rfl
@[simp] theorem started_errCause (s : State) : (started s).errCause = .none := rfl
@[simp] theorem started_errPos (s : State) : (started s).errPos = 0 := rfl
@[simp] theorem started_errInfo0 (s : State) : (started s).errInfo0 = 0 := rfl
@[simp] theorem started_errInfo1 (s : State) : (started s).errInfo1 = 0 := rfl
@[simp] theorem started_pos (s : State) : (started s).pos = 0 := rfl
@[simp] theorem started_runVal (s : State) : (started s).runVal = s.runVal := rfl
@[simp] theorem started_runCnt (s : State) : (started s).runCnt = s.runCnt := rfl
@[simp] theorem started_cand (s : State) : (started s).cand = s.cand := rfl
@[simp] theorem started_k (s : State) : (started s).k = s.k := rfl
@[simp] theorem started_bestLen (s : State) : (started s).bestLen = s.bestLen := rfl
@[simp] theorem started_bestO (s : State) : (started s).bestO = s.bestO := rfl
@[simp] theorem started_dstate (s : State) : (started s).dstate = s.dstate := rfl
@[simp] theorem started_tag (s : State) : (started s).tag = s.tag := rfl
@[simp] theorem started_mOff (s : State) : (started s).mOff = s.mOff := rfl
@[simp] theorem started_mLen (s : State) : (started s).mLen = s.mLen := rfl
@[simp] theorem started_src (s : State) : (started s).src = s.src := rfl
@[simp] theorem started_rem (s : State) : (started s).rem = s.rem := rfl
@[simp] theorem started_inMem (s : State) : (started s).inMem = s.inMem := rfl
@[simp] theorem started_outMem (s : State) : (started s).outMem = s.outMem := rfl
@[simp] theorem started_phase (s : State) : (started s).phase = .prologue := rfl
@[simp] theorem started_agenda (s : State) : (started s).agenda = s.agenda := rfl
@[simp] theorem started_params (s : State) : (started s).params = s.params := rfl
@[simp] theorem started_epoch (s : State) : (started s).epoch = s.epoch + 1 := rfl
@[simp] theorem started_resets (s : State) : (started s).resets = s.resets := rfl
end startedFields

section completedFields -- completion (R84)
@[simp] theorem completed_cmd (s : State) : (completed s).cmd = s.cmd := rfl
@[simp] theorem completed_inValid (s : State) : (completed s).inValid = s.inValid := rfl
@[simp] theorem completed_inLen (s : State) : (completed s).inLen = s.inLen := rfl
@[simp] theorem completed_status (s : State) : (completed s).status = .done := rfl
@[simp] theorem completed_outLen (s : State) : (completed s).outLen = s.outLen := rfl
@[simp] theorem completed_errKind (s : State) : (completed s).errKind = s.errKind := rfl
@[simp] theorem completed_errCause (s : State) : (completed s).errCause = s.errCause := rfl
@[simp] theorem completed_errPos (s : State) : (completed s).errPos = s.errPos := rfl
@[simp] theorem completed_errInfo0 (s : State) : (completed s).errInfo0 = s.errInfo0 := rfl
@[simp] theorem completed_errInfo1 (s : State) : (completed s).errInfo1 = s.errInfo1 := rfl
@[simp] theorem completed_pos (s : State) : (completed s).pos = s.pos := rfl
@[simp] theorem completed_runVal (s : State) : (completed s).runVal = s.runVal := rfl
@[simp] theorem completed_runCnt (s : State) : (completed s).runCnt = s.runCnt := rfl
@[simp] theorem completed_cand (s : State) : (completed s).cand = s.cand := rfl
@[simp] theorem completed_k (s : State) : (completed s).k = s.k := rfl
@[simp] theorem completed_bestLen (s : State) : (completed s).bestLen = s.bestLen := rfl
@[simp] theorem completed_bestO (s : State) : (completed s).bestO = s.bestO := rfl
@[simp] theorem completed_dstate (s : State) : (completed s).dstate = s.dstate := rfl
@[simp] theorem completed_tag (s : State) : (completed s).tag = s.tag := rfl
@[simp] theorem completed_mOff (s : State) : (completed s).mOff = s.mOff := rfl
@[simp] theorem completed_mLen (s : State) : (completed s).mLen = s.mLen := rfl
@[simp] theorem completed_src (s : State) : (completed s).src = s.src := rfl
@[simp] theorem completed_rem (s : State) : (completed s).rem = s.rem := rfl
@[simp] theorem completed_inMem (s : State) : (completed s).inMem = s.inMem := rfl
@[simp] theorem completed_outMem (s : State) : (completed s).outMem = s.outMem := rfl
@[simp] theorem completed_phase (s : State) : (completed s).phase = s.phase := rfl
@[simp] theorem completed_agenda (s : State) : (completed s).agenda = s.agenda := rfl
@[simp] theorem completed_params (s : State) : (completed s).params = s.params := rfl
@[simp] theorem completed_epoch (s : State) : (completed s).epoch = s.epoch := rfl
@[simp] theorem completed_resets (s : State) : (completed s).resets = s.resets := rfl
end completedFields

section tagFetchedFields -- tag fetch (R142)
@[simp] theorem tagFetched_cmd (tg : Byte) (d : DState) (s : State) : (tagFetched tg d s).cmd = s.cmd := rfl
@[simp] theorem tagFetched_inValid (tg : Byte) (d : DState) (s : State) : (tagFetched tg d s).inValid = s.inValid := rfl
@[simp] theorem tagFetched_inLen (tg : Byte) (d : DState) (s : State) : (tagFetched tg d s).inLen = s.inLen := rfl
@[simp] theorem tagFetched_status (tg : Byte) (d : DState) (s : State) : (tagFetched tg d s).status = s.status := rfl
@[simp] theorem tagFetched_outLen (tg : Byte) (d : DState) (s : State) : (tagFetched tg d s).outLen = s.outLen := rfl
@[simp] theorem tagFetched_errKind (tg : Byte) (d : DState) (s : State) : (tagFetched tg d s).errKind = s.errKind := rfl
@[simp] theorem tagFetched_errCause (tg : Byte) (d : DState) (s : State) : (tagFetched tg d s).errCause = s.errCause := rfl
@[simp] theorem tagFetched_errPos (tg : Byte) (d : DState) (s : State) : (tagFetched tg d s).errPos = s.errPos := rfl
@[simp] theorem tagFetched_errInfo0 (tg : Byte) (d : DState) (s : State) : (tagFetched tg d s).errInfo0 = s.errInfo0 := rfl
@[simp] theorem tagFetched_errInfo1 (tg : Byte) (d : DState) (s : State) : (tagFetched tg d s).errInfo1 = s.errInfo1 := rfl
@[simp] theorem tagFetched_pos (tg : Byte) (d : DState) (s : State) : (tagFetched tg d s).pos = s.pos := rfl
@[simp] theorem tagFetched_runVal (tg : Byte) (d : DState) (s : State) : (tagFetched tg d s).runVal = s.runVal := rfl
@[simp] theorem tagFetched_runCnt (tg : Byte) (d : DState) (s : State) : (tagFetched tg d s).runCnt = s.runCnt := rfl
@[simp] theorem tagFetched_cand (tg : Byte) (d : DState) (s : State) : (tagFetched tg d s).cand = s.cand := rfl
@[simp] theorem tagFetched_k (tg : Byte) (d : DState) (s : State) : (tagFetched tg d s).k = s.k := rfl
@[simp] theorem tagFetched_bestLen (tg : Byte) (d : DState) (s : State) : (tagFetched tg d s).bestLen = s.bestLen := rfl
@[simp] theorem tagFetched_bestO (tg : Byte) (d : DState) (s : State) : (tagFetched tg d s).bestO = s.bestO := rfl
@[simp] theorem tagFetched_dstate (tg : Byte) (d : DState) (s : State) : (tagFetched tg d s).dstate = d := rfl
@[simp] theorem tagFetched_tag (tg : Byte) (d : DState) (s : State) : (tagFetched tg d s).tag = tg := rfl
@[simp] theorem tagFetched_mOff (tg : Byte) (d : DState) (s : State) : (tagFetched tg d s).mOff = s.mOff := rfl
@[simp] theorem tagFetched_mLen (tg : Byte) (d : DState) (s : State) : (tagFetched tg d s).mLen = s.mLen := rfl
@[simp] theorem tagFetched_src (tg : Byte) (d : DState) (s : State) : (tagFetched tg d s).src = s.src := rfl
@[simp] theorem tagFetched_rem (tg : Byte) (d : DState) (s : State) : (tagFetched tg d s).rem = s.rem := rfl
@[simp] theorem tagFetched_inMem (tg : Byte) (d : DState) (s : State) : (tagFetched tg d s).inMem = s.inMem := rfl
@[simp] theorem tagFetched_outMem (tg : Byte) (d : DState) (s : State) : (tagFetched tg d s).outMem = s.outMem := rfl
@[simp] theorem tagFetched_phase (tg : Byte) (d : DState) (s : State) : (tagFetched tg d s).phase = s.phase := rfl
@[simp] theorem tagFetched_agenda (tg : Byte) (d : DState) (s : State) : (tagFetched tg d s).agenda = s.agenda := rfl
@[simp] theorem tagFetched_params (tg : Byte) (d : DState) (s : State) : (tagFetched tg d s).params = s.params := rfl
@[simp] theorem tagFetched_epoch (tg : Byte) (d : DState) (s : State) : (tagFetched tg d s).epoch = s.epoch := rfl
@[simp] theorem tagFetched_resets (tg : Byte) (d : DState) (s : State) : (tagFetched tg d s).resets = s.resets := rfl
end tagFetchedFields

section tokenDoneFields -- the end of a token (R141)
@[simp] theorem tokenDone_cmd (n : Nat) (s : State) : (tokenDone n s).cmd = s.cmd := rfl
@[simp] theorem tokenDone_inValid (n : Nat) (s : State) : (tokenDone n s).inValid = s.inValid := rfl
@[simp] theorem tokenDone_inLen (n : Nat) (s : State) : (tokenDone n s).inLen = s.inLen := rfl
@[simp] theorem tokenDone_status (n : Nat) (s : State) : (tokenDone n s).status = s.status := rfl
@[simp] theorem tokenDone_outLen (n : Nat) (s : State) : (tokenDone n s).outLen = s.outLen := rfl
@[simp] theorem tokenDone_errKind (n : Nat) (s : State) : (tokenDone n s).errKind = s.errKind := rfl
@[simp] theorem tokenDone_errCause (n : Nat) (s : State) : (tokenDone n s).errCause = s.errCause := rfl
@[simp] theorem tokenDone_errPos (n : Nat) (s : State) : (tokenDone n s).errPos = s.errPos := rfl
@[simp] theorem tokenDone_errInfo0 (n : Nat) (s : State) : (tokenDone n s).errInfo0 = s.errInfo0 := rfl
@[simp] theorem tokenDone_errInfo1 (n : Nat) (s : State) : (tokenDone n s).errInfo1 = s.errInfo1 := rfl
@[simp] theorem tokenDone_pos (n : Nat) (s : State) : (tokenDone n s).pos = s.pos + n := rfl
@[simp] theorem tokenDone_runVal (n : Nat) (s : State) : (tokenDone n s).runVal = s.runVal := rfl
@[simp] theorem tokenDone_runCnt (n : Nat) (s : State) : (tokenDone n s).runCnt = s.runCnt := rfl
@[simp] theorem tokenDone_cand (n : Nat) (s : State) : (tokenDone n s).cand = s.cand := rfl
@[simp] theorem tokenDone_k (n : Nat) (s : State) : (tokenDone n s).k = s.k := rfl
@[simp] theorem tokenDone_bestLen (n : Nat) (s : State) : (tokenDone n s).bestLen = s.bestLen := rfl
@[simp] theorem tokenDone_bestO (n : Nat) (s : State) : (tokenDone n s).bestO = s.bestO := rfl
@[simp] theorem tokenDone_dstate (n : Nat) (s : State) : (tokenDone n s).dstate = .expectTag := rfl
@[simp] theorem tokenDone_tag (n : Nat) (s : State) : (tokenDone n s).tag = s.tag := rfl
@[simp] theorem tokenDone_mOff (n : Nat) (s : State) : (tokenDone n s).mOff = s.mOff := rfl
@[simp] theorem tokenDone_mLen (n : Nat) (s : State) : (tokenDone n s).mLen = s.mLen := rfl
@[simp] theorem tokenDone_src (n : Nat) (s : State) : (tokenDone n s).src = s.src := rfl
@[simp] theorem tokenDone_rem (n : Nat) (s : State) : (tokenDone n s).rem = s.rem := rfl
@[simp] theorem tokenDone_inMem (n : Nat) (s : State) : (tokenDone n s).inMem = s.inMem := rfl
@[simp] theorem tokenDone_outMem (n : Nat) (s : State) : (tokenDone n s).outMem = s.outMem := rfl
@[simp] theorem tokenDone_phase (n : Nat) (s : State) : (tokenDone n s).phase = s.phase := rfl
@[simp] theorem tokenDone_agenda (n : Nat) (s : State) : (tokenDone n s).agenda = s.agenda := rfl
@[simp] theorem tokenDone_params (n : Nat) (s : State) : (tokenDone n s).params = s.params := rfl
@[simp] theorem tokenDone_epoch (n : Nat) (s : State) : (tokenDone n s).epoch = s.epoch := rfl
@[simp] theorem tokenDone_resets (n : Nat) (s : State) : (tokenDone n s).resets = s.resets := rfl
end tokenDoneFields

section matchFetchedFields -- the fields of a match (R145)
@[simp] theorem matchFetched_cmd (o l : Byte) (s : State) : (matchFetched o l s).cmd = s.cmd := rfl
@[simp] theorem matchFetched_inValid (o l : Byte) (s : State) : (matchFetched o l s).inValid = s.inValid := rfl
@[simp] theorem matchFetched_inLen (o l : Byte) (s : State) : (matchFetched o l s).inLen = s.inLen := rfl
@[simp] theorem matchFetched_status (o l : Byte) (s : State) : (matchFetched o l s).status = s.status := rfl
@[simp] theorem matchFetched_outLen (o l : Byte) (s : State) : (matchFetched o l s).outLen = s.outLen := rfl
@[simp] theorem matchFetched_errKind (o l : Byte) (s : State) : (matchFetched o l s).errKind = s.errKind := rfl
@[simp] theorem matchFetched_errCause (o l : Byte) (s : State) : (matchFetched o l s).errCause = s.errCause := rfl
@[simp] theorem matchFetched_errPos (o l : Byte) (s : State) : (matchFetched o l s).errPos = s.errPos := rfl
@[simp] theorem matchFetched_errInfo0 (o l : Byte) (s : State) : (matchFetched o l s).errInfo0 = s.errInfo0 := rfl
@[simp] theorem matchFetched_errInfo1 (o l : Byte) (s : State) : (matchFetched o l s).errInfo1 = s.errInfo1 := rfl
@[simp] theorem matchFetched_pos (o l : Byte) (s : State) : (matchFetched o l s).pos = s.pos := rfl
@[simp] theorem matchFetched_runVal (o l : Byte) (s : State) : (matchFetched o l s).runVal = s.runVal := rfl
@[simp] theorem matchFetched_runCnt (o l : Byte) (s : State) : (matchFetched o l s).runCnt = s.runCnt := rfl
@[simp] theorem matchFetched_cand (o l : Byte) (s : State) : (matchFetched o l s).cand = s.cand := rfl
@[simp] theorem matchFetched_k (o l : Byte) (s : State) : (matchFetched o l s).k = s.k := rfl
@[simp] theorem matchFetched_bestLen (o l : Byte) (s : State) : (matchFetched o l s).bestLen = s.bestLen := rfl
@[simp] theorem matchFetched_bestO (o l : Byte) (s : State) : (matchFetched o l s).bestO = s.bestO := rfl
@[simp] theorem matchFetched_dstate (o l : Byte) (s : State) : (matchFetched o l s).dstate = .consumingMatch := rfl
@[simp] theorem matchFetched_tag (o l : Byte) (s : State) : (matchFetched o l s).tag = Config.tagMatch := rfl
@[simp] theorem matchFetched_mOff (o l : Byte) (s : State) : (matchFetched o l s).mOff = o := rfl
@[simp] theorem matchFetched_mLen (o l : Byte) (s : State) : (matchFetched o l s).mLen = l := rfl
@[simp] theorem matchFetched_src (o l : Byte) (s : State) : (matchFetched o l s).src = s.src := rfl
@[simp] theorem matchFetched_rem (o l : Byte) (s : State) : (matchFetched o l s).rem = s.rem := rfl
@[simp] theorem matchFetched_inMem (o l : Byte) (s : State) : (matchFetched o l s).inMem = s.inMem := rfl
@[simp] theorem matchFetched_outMem (o l : Byte) (s : State) : (matchFetched o l s).outMem = s.outMem := rfl
@[simp] theorem matchFetched_phase (o l : Byte) (s : State) : (matchFetched o l s).phase = s.phase := rfl
@[simp] theorem matchFetched_agenda (o l : Byte) (s : State) : (matchFetched o l s).agenda = s.agenda := rfl
@[simp] theorem matchFetched_params (o l : Byte) (s : State) : (matchFetched o l s).params = s.params := rfl
@[simp] theorem matchFetched_epoch (o l : Byte) (s : State) : (matchFetched o l s).epoch = s.epoch := rfl
@[simp] theorem matchFetched_resets (o l : Byte) (s : State) : (matchFetched o l s).resets = s.resets := rfl
end matchFetchedFields

section copyPreparedFields -- the copy's registers (R145)
@[simp] theorem copyPrepared_cmd (s : State) : (copyPrepared s).cmd = s.cmd := rfl
@[simp] theorem copyPrepared_inValid (s : State) : (copyPrepared s).inValid = s.inValid := rfl
@[simp] theorem copyPrepared_inLen (s : State) : (copyPrepared s).inLen = s.inLen := rfl
@[simp] theorem copyPrepared_status (s : State) : (copyPrepared s).status = s.status := rfl
@[simp] theorem copyPrepared_outLen (s : State) : (copyPrepared s).outLen = s.outLen := rfl
@[simp] theorem copyPrepared_errKind (s : State) : (copyPrepared s).errKind = s.errKind := rfl
@[simp] theorem copyPrepared_errCause (s : State) : (copyPrepared s).errCause = s.errCause := rfl
@[simp] theorem copyPrepared_errPos (s : State) : (copyPrepared s).errPos = s.errPos := rfl
@[simp] theorem copyPrepared_errInfo0 (s : State) : (copyPrepared s).errInfo0 = s.errInfo0 := rfl
@[simp] theorem copyPrepared_errInfo1 (s : State) : (copyPrepared s).errInfo1 = s.errInfo1 := rfl
@[simp] theorem copyPrepared_pos (s : State) : (copyPrepared s).pos = s.pos := rfl
@[simp] theorem copyPrepared_runVal (s : State) : (copyPrepared s).runVal = s.runVal := rfl
@[simp] theorem copyPrepared_runCnt (s : State) : (copyPrepared s).runCnt = s.runCnt := rfl
@[simp] theorem copyPrepared_cand (s : State) : (copyPrepared s).cand = s.cand := rfl
@[simp] theorem copyPrepared_k (s : State) : (copyPrepared s).k = s.k := rfl
@[simp] theorem copyPrepared_bestLen (s : State) : (copyPrepared s).bestLen = s.bestLen := rfl
@[simp] theorem copyPrepared_bestO (s : State) : (copyPrepared s).bestO = s.bestO := rfl
@[simp] theorem copyPrepared_dstate (s : State) : (copyPrepared s).dstate = s.dstate := rfl
@[simp] theorem copyPrepared_tag (s : State) : (copyPrepared s).tag = s.tag := rfl
@[simp] theorem copyPrepared_mOff (s : State) : (copyPrepared s).mOff = s.mOff := rfl
@[simp] theorem copyPrepared_mLen (s : State) : (copyPrepared s).mLen = s.mLen := rfl
@[simp] theorem copyPrepared_src (s : State) : (copyPrepared s).src = s.outLen - s.mOff.toNat := rfl
@[simp] theorem copyPrepared_rem (s : State) : (copyPrepared s).rem = s.mLen := rfl
@[simp] theorem copyPrepared_inMem (s : State) : (copyPrepared s).inMem = s.inMem := rfl
@[simp] theorem copyPrepared_outMem (s : State) : (copyPrepared s).outMem = s.outMem := rfl
@[simp] theorem copyPrepared_phase (s : State) : (copyPrepared s).phase = s.phase := rfl
@[simp] theorem copyPrepared_agenda (s : State) : (copyPrepared s).agenda = s.agenda := rfl
@[simp] theorem copyPrepared_params (s : State) : (copyPrepared s).params = s.params := rfl
@[simp] theorem copyPrepared_epoch (s : State) : (copyPrepared s).epoch = s.epoch := rfl
@[simp] theorem copyPrepared_resets (s : State) : (copyPrepared s).resets = s.resets := rfl
end copyPreparedFields

section beginSearchFields -- the beginning of a search (R124)
@[simp] theorem beginSearch_cmd (p : Nat) (s : State) : (beginSearch p s).cmd = s.cmd := rfl
@[simp] theorem beginSearch_inValid (p : Nat) (s : State) : (beginSearch p s).inValid = s.inValid := rfl
@[simp] theorem beginSearch_inLen (p : Nat) (s : State) : (beginSearch p s).inLen = s.inLen := rfl
@[simp] theorem beginSearch_status (p : Nat) (s : State) : (beginSearch p s).status = s.status := rfl
@[simp] theorem beginSearch_outLen (p : Nat) (s : State) : (beginSearch p s).outLen = s.outLen := rfl
@[simp] theorem beginSearch_errKind (p : Nat) (s : State) : (beginSearch p s).errKind = s.errKind := rfl
@[simp] theorem beginSearch_errCause (p : Nat) (s : State) : (beginSearch p s).errCause = s.errCause := rfl
@[simp] theorem beginSearch_errPos (p : Nat) (s : State) : (beginSearch p s).errPos = s.errPos := rfl
@[simp] theorem beginSearch_errInfo0 (p : Nat) (s : State) : (beginSearch p s).errInfo0 = s.errInfo0 := rfl
@[simp] theorem beginSearch_errInfo1 (p : Nat) (s : State) : (beginSearch p s).errInfo1 = s.errInfo1 := rfl
@[simp] theorem beginSearch_pos (p : Nat) (s : State) : (beginSearch p s).pos = s.pos := rfl
@[simp] theorem beginSearch_runVal (p : Nat) (s : State) : (beginSearch p s).runVal = s.runVal := rfl
@[simp] theorem beginSearch_runCnt (p : Nat) (s : State) : (beginSearch p s).runCnt = s.runCnt := rfl
@[simp] theorem beginSearch_cand (p : Nat) (s : State) : (beginSearch p s).cand = s.cand := rfl
@[simp] theorem beginSearch_k (p : Nat) (s : State) : (beginSearch p s).k = s.k := rfl
@[simp] theorem beginSearch_bestLen (p : Nat) (s : State) : (beginSearch p s).bestLen = 0 := rfl
@[simp] theorem beginSearch_bestO (p : Nat) (s : State) : (beginSearch p s).bestO = lenWBits s.params (Config.freeBestO s.epoch p) := rfl
@[simp] theorem beginSearch_dstate (p : Nat) (s : State) : (beginSearch p s).dstate = s.dstate := rfl
@[simp] theorem beginSearch_tag (p : Nat) (s : State) : (beginSearch p s).tag = s.tag := rfl
@[simp] theorem beginSearch_mOff (p : Nat) (s : State) : (beginSearch p s).mOff = s.mOff := rfl
@[simp] theorem beginSearch_mLen (p : Nat) (s : State) : (beginSearch p s).mLen = s.mLen := rfl
@[simp] theorem beginSearch_src (p : Nat) (s : State) : (beginSearch p s).src = s.src := rfl
@[simp] theorem beginSearch_rem (p : Nat) (s : State) : (beginSearch p s).rem = s.rem := rfl
@[simp] theorem beginSearch_inMem (p : Nat) (s : State) : (beginSearch p s).inMem = s.inMem := rfl
@[simp] theorem beginSearch_outMem (p : Nat) (s : State) : (beginSearch p s).outMem = s.outMem := rfl
@[simp] theorem beginSearch_phase (p : Nat) (s : State) : (beginSearch p s).phase = s.phase := rfl
@[simp] theorem beginSearch_agenda (p : Nat) (s : State) : (beginSearch p s).agenda = s.agenda := rfl
@[simp] theorem beginSearch_params (p : Nat) (s : State) : (beginSearch p s).params = s.params := rfl
@[simp] theorem beginSearch_epoch (p : Nat) (s : State) : (beginSearch p s).epoch = s.epoch := rfl
@[simp] theorem beginSearch_resets (p : Nat) (s : State) : (beginSearch p s).resets = s.resets := rfl
end beginSearchFields

section resetStateFields -- reset (R190)
@[simp] theorem resetState_cmd (s : State) : (resetState s).cmd = State.reset.cmd := rfl
@[simp] theorem resetState_inValid (s : State) : (resetState s).inValid = State.reset.inValid := rfl
@[simp] theorem resetState_inLen (s : State) : (resetState s).inLen = State.reset.inLen := rfl
@[simp] theorem resetState_status (s : State) : (resetState s).status = State.reset.status := rfl
@[simp] theorem resetState_outLen (s : State) : (resetState s).outLen = State.reset.outLen := rfl
@[simp] theorem resetState_errKind (s : State) : (resetState s).errKind = State.reset.errKind := rfl
@[simp] theorem resetState_errCause (s : State) : (resetState s).errCause = State.reset.errCause := rfl
@[simp] theorem resetState_errPos (s : State) : (resetState s).errPos = State.reset.errPos := rfl
@[simp] theorem resetState_errInfo0 (s : State) : (resetState s).errInfo0 = State.reset.errInfo0 := rfl
@[simp] theorem resetState_errInfo1 (s : State) : (resetState s).errInfo1 = State.reset.errInfo1 := rfl
@[simp] theorem resetState_pos (s : State) : (resetState s).pos = State.reset.pos := rfl
@[simp] theorem resetState_runVal (s : State) : (resetState s).runVal = State.reset.runVal := rfl
@[simp] theorem resetState_runCnt (s : State) : (resetState s).runCnt = State.reset.runCnt := rfl
@[simp] theorem resetState_cand (s : State) : (resetState s).cand = State.reset.cand := rfl
@[simp] theorem resetState_k (s : State) : (resetState s).k = State.reset.k := rfl
@[simp] theorem resetState_bestLen (s : State) : (resetState s).bestLen = State.reset.bestLen := rfl
@[simp] theorem resetState_bestO (s : State) : (resetState s).bestO = State.reset.bestO := rfl
@[simp] theorem resetState_dstate (s : State) : (resetState s).dstate = State.reset.dstate := rfl
@[simp] theorem resetState_tag (s : State) : (resetState s).tag = State.reset.tag := rfl
@[simp] theorem resetState_mOff (s : State) : (resetState s).mOff = State.reset.mOff := rfl
@[simp] theorem resetState_mLen (s : State) : (resetState s).mLen = State.reset.mLen := rfl
@[simp] theorem resetState_src (s : State) : (resetState s).src = State.reset.src := rfl
@[simp] theorem resetState_rem (s : State) : (resetState s).rem = State.reset.rem := rfl
@[simp] theorem resetState_inMem (s : State) : (resetState s).inMem = State.reset.inMem := rfl
@[simp] theorem resetState_outMem (s : State) : (resetState s).outMem = State.reset.outMem := rfl
@[simp] theorem resetState_phase (s : State) : (resetState s).phase = State.reset.phase := rfl
@[simp] theorem resetState_agenda (s : State) : (resetState s).agenda = s.agenda := rfl
@[simp] theorem resetState_params (s : State) : (resetState s).params = s.params := rfl
@[simp] theorem resetState_epoch (s : State) : (resetState s).epoch = s.epoch + 1 := rfl
@[simp] theorem resetState_resets (s : State) : (resetState s).resets = s.resets + 1 := rfl
end resetStateFields

@[simp] theorem pushByte_inByte (v : Byte) (s : State) (i : Nat) : inByte (pushByte v s) i = inByte s i := rfl
@[simp] theorem pushed_inByte (vs : List Byte) (s : State) (i : Nat) : inByte (pushed vs s) i = inByte s i := rfl
@[simp] theorem failed_inByte (kd : ErrKind) (c : ErrCause) (p i0 i1 : Nat) (s : State) (i : Nat) : inByte (failed kd c p i0 i1 s) i = inByte s i := rfl
@[simp] theorem started_inByte (s : State) (i : Nat) : inByte (started s) i = inByte s i := rfl
@[simp] theorem completed_inByte (s : State) (i : Nat) : inByte (completed s) i = inByte s i := rfl
@[simp] theorem tagFetched_inByte (tg : Byte) (d : DState) (s : State) (i : Nat) : inByte (tagFetched tg d s) i = inByte s i := rfl
@[simp] theorem tokenDone_inByte (n : Nat) (s : State) (i : Nat) : inByte (tokenDone n s) i = inByte s i := rfl
@[simp] theorem matchFetched_inByte (o l : Byte) (s : State) (i : Nat) : inByte (matchFetched o l s) i = inByte s i := rfl
@[simp] theorem copyPrepared_inByte (s : State) (i : Nat) : inByte (copyPrepared s) i = inByte s i := rfl
@[simp] theorem beginSearch_inByte (p : Nat) (s : State) (i : Nat) : inByte (beginSearch p s) i = inByte s i := rfl
@[simp] theorem completed_outByte (s : State) (i : Nat) : outByte (completed s) i = outByte s i := rfl
@[simp] theorem tagFetched_outByte (tg : Byte) (d : DState) (s : State) (i : Nat) : outByte (tagFetched tg d s) i = outByte s i := rfl
@[simp] theorem tokenDone_outByte (n : Nat) (s : State) (i : Nat) : outByte (tokenDone n s) i = outByte s i := rfl
@[simp] theorem matchFetched_outByte (o l : Byte) (s : State) (i : Nat) : outByte (matchFetched o l s) i = outByte s i := rfl
@[simp] theorem copyPrepared_outByte (s : State) (i : Nat) : outByte (copyPrepared s) i = outByte s i := rfl
@[simp] theorem beginSearch_outByte (p : Nat) (s : State) (i : Nat) : outByte (beginSearch p s) i = outByte s i := rfl

end Sys2Proof.Machine
end

