-- ==== Sys2Proof/Laws/Memory.lean ====
section
/-! SUPPORT. The laws of the byte memories: read after write, the canonical form, and which cells are listed. -/

namespace Sys2Proof.Machine

@[simp] theorem Memory.read_nil (a : Nat) : Memory.read [] a = none := rfl

theorem Memory.read_cons (b : Nat) (v : Byte) (m : Memory) (a : Nat) :
    Memory.read ((b, v) :: m) a = if a = b then some v else Memory.read m a := rfl

/-- Reading any index after a write: the written one gives the byte, every other reads as before. -/
theorem Memory.read_write (m : Memory) (a : Nat) (v : Byte) (i : Nat) :
    Memory.read (Memory.write m a v) i = if i = a then some v else Memory.read m i := by
  induction m with
  | nil => rfl
  | cons c m ih =>
    obtain ⟨b, w⟩ := c
    unfold Memory.write
    split
    · rfl
    · split
      · subst_vars
        simp only [Memory.read_cons]
        split <;> rfl
      · simp only [Memory.read_cons, ih]
        split <;> rename_i h
        · rw [if_neg (by omega)]
        · rfl

@[simp] theorem Memory.read_write_same (m : Memory) (a : Nat) (v : Byte) :
    Memory.read (Memory.write m a v) a = some v := by simp [Memory.read_write]

theorem Memory.read_write_other (m : Memory) {a i : Nat} (v : Byte) (h : i ≠ a) :
    Memory.read (Memory.write m a v) i = Memory.read m i := by simp [Memory.read_write, h]

theorem Memory.wf_tail {c : Host.Cell} {m : Memory} (h : Memory.wf (c :: m) = true) : Memory.wf m = true := by
  cases m with
  | nil => rfl
  | cons d m => simp only [Memory.wf, Bool.and_eq_true] at h; exact h.2

/-- A canonical memory with a smaller index in front is canonical. -/
theorem Memory.wf_cons {a : Nat} {v : Byte} {m : Memory} (h : Memory.wf m = true) (lt : ∀ c ∈ m, a < c.1) :
    Memory.wf ((a, v) :: m) = true := by
  cases m with
  | nil => rfl
  | cons d m =>
    simp only [Memory.wf, Bool.and_eq_true, decide_eq_true_eq]
    exact ⟨lt d (by simp), h⟩

/-- In a canonical memory the first index is below all others. -/
theorem Memory.wf_head_lt {a : Nat} {v : Byte} {m : Memory} (h : Memory.wf ((a, v) :: m) = true) :
    ∀ c ∈ m, a < c.1 := by
  induction m generalizing a v with
  | nil => simp
  | cons d m ih =>
    obtain ⟨b, w⟩ := d
    simp only [Memory.wf, Bool.and_eq_true, decide_eq_true_eq] at h
    intro c hc
    rcases List.mem_cons.1 hc with rfl | hc
    · exact h.1
    · exact Nat.lt_trans h.1 (ih h.2 c hc)

/-- The cells listed after a write are the written one and those listed before. -/
theorem Memory.mem_write {m : Memory} {a : Nat} {v : Byte} {c : Host.Cell} (h : c ∈ Memory.write m a v) :
    c = (a, v) ∨ c ∈ m := by
  induction m with
  | nil => simpa [Memory.write] using h
  | cons d m ih =>
    obtain ⟨b, w⟩ := d
    unfold Memory.write at h
    split at h
    · simpa using h
    · split at h
      · rcases List.mem_cons.1 h with rfl | h
        · exact .inl rfl
        · exact .inr (List.mem_cons_of_mem _ h)
      · rcases List.mem_cons.1 h with rfl | h
        · exact .inr (by simp)
        · exact (ih h).imp_right (List.mem_cons_of_mem _)

/-- A write keeps the canonical form. -/
theorem Memory.wf_write {m : Memory} (a : Nat) (v : Byte) (h : Memory.wf m = true) :
    Memory.wf (Memory.write m a v) = true := by
  induction m with
  | nil => rfl
  | cons d m ih =>
    obtain ⟨b, w⟩ := d
    unfold Memory.write
    split
    · exact Memory.wf_cons h fun c hc => by
        rcases List.mem_cons.1 hc with rfl | hc
        · assumption
        · exact Nat.lt_trans ‹_› (Memory.wf_head_lt h c hc)
    · split
      · subst_vars
        exact Memory.wf_cons (Memory.wf_tail h) (Memory.wf_head_lt h)
      · refine Memory.wf_cons (ih (Memory.wf_tail h)) fun c hc => ?_
        rcases Memory.mem_write hc with rfl | hc
        · show b < a
          omega
        · exact Memory.wf_head_lt h c hc

/-- Placing bytes at consecutive indices keeps the canonical form. -/
theorem writeBytes_wf {m : Memory} (i : Nat) (vs : List Byte) (h : Memory.wf m = true) :
    Memory.wf (writeBytes m i vs) = true := by
  induction vs generalizing m i with
  | nil => exact h
  | cons v vs ih => exact ih (i + 1) (Memory.wf_write i v h)

@[simp] theorem reset_inMem_wf : Memory.wf State.reset.inMem = true := rfl

@[simp] theorem reset_outMem_wf : Memory.wf State.reset.outMem = true := rfl

end Sys2Proof.Machine
end

