-- ==== Sys2Proof/Laws/Ops.lean ====
section
/-! SUPPORT. One lemma for each shared operation that says everything it can do. -/

namespace Sys2Proof.Machine

/-! ### Going on -/

@[simp] theorem andThen_next (s : State) (f : State → Result) : andThen (.next s) f = f s := rfl

@[simp] theorem andThen_refused (e : Refusal) (f : State → Result) : andThen (.refused e) f = .refused e := rfl

@[simp] theorem andThen_fault (e : Fault) (f : State → Result) : andThen (.fault e) f = .fault e := rfl

/-- An action that goes on answers a next state only through the next state before it. -/
theorem andThen_eq_next {r : Result} {f : State → Result} {t : State} (h : andThen r f = .next t) :
    ∃ s, r = .next s ∧ f s = .next t := by
  cases r with
  | next s => exact ⟨s, rfl, h⟩
  | fault e => cases h
  | refused e => cases h

/-! ### Appending -/

@[simp] theorem pushed_nil (s : State) : pushed [] s = s := rfl

theorem pushed_cons (v : Byte) (vs : List Byte) (s : State) : pushed (v :: vs) s = pushed vs (pushByte v s) := by
  simp only [pushed, pushByte, writeBytes, List.length_cons]
  congr 1
  omega

theorem pushed_append (vs ws : List Byte) (s : State) : pushed (vs ++ ws) s = pushed ws (pushed vs s) := by
  induction vs generalizing s with
  | nil => rfl
  | cons v vs ih => rw [List.cons_append, pushed_cons, ih, ← pushed_cons]

theorem cellExists_of_withinCap {cap : Option Nat} {n k : Nat} (h : Config.withinCap cap (n + (k + 1)) = true) :
    Config.cellExists cap n = true := by
  cases cap with
  | none => rfl
  | some c => simp only [Config.withinCap, Config.cellExists, decide_eq_true_eq] at *; omega

theorem withinCap_of_cellExists {cap : Option Nat} {n : Nat} (h : Config.cellExists cap n = true) :
    Config.withinCap cap (n + 1) = true := by
  cases cap with
  | none => rfl
  | some c => simp only [Config.withinCap, Config.cellExists, decide_eq_true_eq] at *; omega

theorem withinCap_mono {cap : Option Nat} {m n : Nat} (h : Config.withinCap cap n = true) (hle : m ≤ n) :
    Config.withinCap cap m = true := by
  cases cap with
  | none => rfl
  | some c => simp only [Config.withinCap, decide_eq_true_eq] at *; omega

/-- `Append` answers a next state exactly when the cell at `OUT_LEN` exists. -/
theorem append_eq_next {v : Byte} {s t : State} :
    append v s = .next t ↔ Config.cellExists s.params.outCap s.outLen = true ∧ t = pushByte v s := by
  unfold append
  by_cases h : Config.cellExists s.params.outCap s.outLen = true
  · rw [if_pos h]
    exact ⟨fun e => ⟨h, by cases e; rfl⟩, fun e => by rw [e.2]⟩
  · rw [if_neg h]
    exact ⟨(nomatch ·), fun e => absurd e.1 h⟩

/-- With room for them, the bytes are appended. -/
theorem appendAll_of_room {vs : List Byte} {s : State} (h : roomFor vs.length s = true) :
    appendAll vs s = .next (pushed vs s) := by
  induction vs generalizing s with
  | nil => rfl
  | cons v vs ih =>
    have hc : Config.cellExists s.params.outCap s.outLen = true := cellExists_of_withinCap h
    rw [appendAll, append_eq_next.2 ⟨hc, rfl⟩, andThen_next, pushed_cons]
    refine ih ?_
    simpa only [roomFor, List.length_cons, pushByte_params, pushByte_outLen, Nat.add_assoc, Nat.add_comm 1] using h

/-- What `appendAll` can answer: the bytes are appended, and unless there are none they had room. -/
theorem appendAll_eq_next {vs : List Byte} {s t : State} (h : appendAll vs s = .next t) :
    t = pushed vs s ∧ (vs = [] ∨ roomFor vs.length s = true) := by
  induction vs generalizing s with
  | nil => cases h; exact ⟨rfl, .inl rfl⟩
  | cons v vs ih =>
    obtain ⟨u, hu, h⟩ := andThen_eq_next h
    obtain ⟨hc, rfl⟩ := append_eq_next.1 hu
    obtain ⟨rfl, hr⟩ := ih h
    refine ⟨(pushed_cons v vs s).symm, .inr ?_⟩
    rcases hr with rfl | hr
    · exact withinCap_of_cellExists hc
    · simpa only [roomFor, List.length_cons, pushByte_params, pushByte_outLen, Nat.add_assoc, Nat.add_comm 1] using hr

/-- Without room for them, the bytes have no meaning: the refusal of R54. -/
theorem appendAll_refuses {vs : List Byte} {s : State} (hne : vs ≠ []) (h : roomFor vs.length s = false) :
    appendAll vs s = .refused .outputOverCapacity := by
  induction vs generalizing s with
  | nil => exact absurd rfl hne
  | cons v vs ih =>
    rw [appendAll, append]
    split
    · rename_i hc
      rw [andThen_next]
      have hr : roomFor vs.length (pushByte v s) = false := by
        simpa only [roomFor, List.length_cons, pushByte_params, pushByte_outLen, Nat.add_assoc, Nat.add_comm 1] using h
      cases vs with
      | nil =>
        have := withinCap_of_cellExists hc
        simp_all [roomFor]
      | cons w ws => exact ih (by simp) hr
    · rfl

/-- Reading a memory after bytes were placed from index `a` on. -/
theorem read_writeBytes (m : Memory) (a : Nat) (vs : List Byte) (i : Nat) :
    Memory.read (writeBytes m a vs) i =
      if h : a ≤ i ∧ i - a < vs.length then some (vs[i - a]'h.2) else Memory.read m i := by
  induction vs generalizing m a with
  | nil => simp [writeBytes]
  | cons v vs ih =>
    rw [writeBytes, ih, Memory.read_write]
    by_cases h1 : i = a
    · subst h1
      rw [dif_neg (by omega), if_pos rfl, dif_pos (by simp)]
      simp
    · by_cases h2 : a + 1 ≤ i ∧ i - (a + 1) < vs.length
      · rw [dif_pos h2, dif_pos (by simp only [List.length_cons]; omega)]
        congr 1
        simp only [show i - a = (i - (a + 1)) + 1 by omega, List.getElem_cons_succ]
      · rw [dif_neg h2, if_neg h1, dif_neg (by simp only [List.length_cons]; omega)]

/-- A byte produced before reads as before. -/
theorem pushed_outByte_before (vs : List Byte) {s : State} {i : Nat} (h : i < s.outLen) :
    outByte (pushed vs s) i = outByte s i := by
  unfold outByte
  rw [pushed_outLen, if_pos (by omega), if_pos h, pushed_outMem, read_writeBytes, dif_neg (by omega), pushed_epoch]

/-- An appended byte reads back. -/
theorem pushed_outByte_new (vs : List Byte) (s : State) {j : Nat} (h : j < vs.length) :
    outByte (pushed vs s) (s.outLen + j) = vs[j] := by
  unfold outByte
  rw [pushed_outLen, if_pos (by omega), pushed_outMem]
  rw [read_writeBytes, dif_pos (by omega)]
  simp

/-- A cell above the new `OUT_LEN` stays unspecified. -/
theorem pushed_outByte_above (vs : List Byte) (s : State) {i : Nat} (h : s.outLen + vs.length ≤ i) :
    outByte (pushed vs s) i = outByte s i := by
  unfold outByte
  rw [pushed_outLen, if_neg (by omega), if_neg (by omega)]
  rfl

/-- Appending is `Appended`, whatever other registers change with it, as long as `OUT` does not. -/
theorem appended_of_pushed {vs : List Byte} {s t : State} (ho : t.outLen = s.outLen + vs.length)
    (hm : ∀ i, outByte t i = outByte (pushed vs s) i) : Appended vs s t :=
  ⟨ho, fun j => by rw [hm, pushed_outByte_new vs s j.2]; rfl, fun i hi => by
    rw [hm]
    rcases hi with hi | hi
    · exact pushed_outByte_before vs hi
    · exact pushed_outByte_above vs s hi⟩

/-- What has been produced after an append is what had been, then the bytes. -/
theorem outputBytes_of_appended {vs : List Byte} {s t : State} (h : Appended vs s t) :
    outputBytes t = outputBytes s ++ vs := by
  obtain ⟨hl, hn, hb⟩ := h
  unfold outputBytes
  rw [hl, List.range_add, List.map_append, List.map_map]
  congr 1
  · exact List.map_congr_left fun i hi => hb i (.inl (List.mem_range.1 hi))
  · refine List.ext_getElem (by simp) fun j h1 h2 => ?_
    simpa using hn ⟨j, h2⟩

/-! ### The copy of a match -/

/-- The bytes a copy from `src` appends: the bytes from `src` to `OUT_LEN`, repeated periodically (R148). -/
def periodicBytes (s : State) (src n : Nat) : List Byte :=
  (List.range n).map fun j => outByte s (src + j % (s.outLen - src))

@[simp] theorem periodicBytes_length (s : State) (src n : Nat) : (periodicBytes s src n).length = n := by
  simp [periodicBytes]

theorem periodicBytes_succ (s : State) {src : Nat} (n : Nat) (h : src < s.outLen) :
    periodicBytes s src (n + 1) = outByte s src :: periodicBytes (pushByte (outByte s src) s) (src + 1) n := by
  unfold periodicBytes
  rw [List.range_succ_eq_map, List.map_cons, List.map_map]
  refine congrArg₂ List.cons (by simp) ?_
  · refine List.map_congr_left fun j _ => ?_
    have hp : pushByte (outByte s src) s = pushed [outByte s src] s := rfl
    have hoff : (pushed [outByte s src] s).outLen - (src + 1) = s.outLen - src := by simp
    have hpos : 0 < s.outLen - src := by omega
    simp only [Function.comp, Nat.succ_eq_add_one, hp, hoff]
    have hmod := Nat.add_mod j 1 (s.outLen - src)
    have hlt := Nat.mod_lt j hpos
    by_cases hw : j % (s.outLen - src) + 1 < s.outLen - src
    · have : (j + 1) % (s.outLen - src) = j % (s.outLen - src) + 1 := by
        rw [hmod]
        by_cases h1 : s.outLen - src = 1
        · omega
        · rw [Nat.mod_eq_of_lt (a := 1) (by omega), Nat.mod_eq_of_lt hw]
      rw [this, pushed_outByte_before (s := s) (i := src + 1 + j % (s.outLen - src)) _ (by omega)]
      congr 1
      omega
    · have : (j + 1) % (s.outLen - src) = 0 := by
        have e : j % (s.outLen - src) + 1 = s.outLen - src := by omega
        rw [hmod]
        by_cases h1 : s.outLen - src = 1
        · rw [h1, Nat.mod_one]
        · rw [Nat.mod_eq_of_lt (a := 1) (by omega), e, Nat.mod_self]
      rw [this, show src + 1 + j % (s.outLen - src) = s.outLen + 0 by omega,
        pushed_outByte_new _ _ (by simp)]
      simp

/-- With room for the bytes, the copy appends them and leaves `SRC` behind the last byte read. -/
theorem copyLoop_of_room {n : Nat} {s : State} (hs : n = 0 ∨ s.src < s.outLen) (h : n = 0 ∨ roomFor n s = true) :
    copyLoop n s = .next { pushed (periodicBytes s s.src n) s with
      src := s.src + n, rem := s.rem - BitVec.ofNat 8 n } := by
  induction n generalizing s with
  | zero => simp [copyLoop, periodicBytes]
  | succ n ih =>
    have hs : s.src < s.outLen := by omega
    have h : roomFor (n + 1) s = true := by simpa using h
    rw [copyLoop, append_eq_next.2 ⟨cellExists_of_withinCap h, rfl⟩, andThen_next, ih]
    · rw [periodicBytes_succ s n hs, pushed_cons]
      congr 1
      simp only [pushed, pushByte, periodicBytes_length, State.mk.injEq, true_and, and_true]
      refine ⟨by omega, ?_, rfl⟩
      rw [BitVec.sub_sub, Nat.add_comm n 1, BitVec.ofNat_add]
      rfl
    · right; simp; omega
    · right
      simpa only [roomFor, pushByte_params, pushByte_outLen, Nat.add_assoc, Nat.add_comm 1] using h

/-- A copy answers a next state only where its bytes have room. -/
theorem copyLoop_needs_room {n : Nat} {s t : State} (h : copyLoop n s = .next t) : n = 0 ∨ roomFor n s = true := by
  induction n generalizing s with
  | zero => exact .inl rfl
  | succ n ih =>
    obtain ⟨u, hu, h⟩ := andThen_eq_next h
    obtain ⟨hc, rfl⟩ := append_eq_next.1 hu
    right
    rcases ih h with rfl | hr
    · exact withinCap_of_cellExists hc
    · simpa only [roomFor, pushByte_params, pushByte_outLen, Nat.add_assoc, Nat.add_comm 1] using hr

/-- Without room for its bytes, a copy has no meaning: the refusal of R54. -/
theorem copyLoop_refuses {n : Nat} {s : State} (hn : n ≠ 0) (h : roomFor n s = false) :
    copyLoop n s = .refused .outputOverCapacity := by
  induction n generalizing s with
  | zero => exact absurd rfl hn
  | succ n ih =>
    rw [copyLoop, append]
    split
    · rename_i hc
      rw [andThen_next]
      by_cases h0 : n = 0
      · subst h0
        rw [roomFor, withinCap_of_cellExists hc] at h
        cases h
      · refine ih h0 ?_
        simpa only [roomFor, pushByte_params, pushByte_outLen, Nat.add_assoc, Nat.add_comm 1] using h
    · rfl

/-- What the copy can answer. -/
theorem copyLoop_eq_next {n : Nat} {s t : State} (hs : n = 0 ∨ s.src < s.outLen) (h : copyLoop n s = .next t) :
    t = { pushed (periodicBytes s s.src n) s with src := s.src + n, rem := s.rem - BitVec.ofNat 8 n } := by
  rw [copyLoop_of_room hs (copyLoop_needs_room h)] at h
  cases h
  rfl

/-! ### Failure, completion, prologue -/

@[simp] theorem raise_eq (kd : ErrKind) (c : ErrCause) (p i0 i1 : Nat) (s : State) :
    raise kd c p i0 i1 s = .next (failed kd c p i0 i1 s) := rfl

@[simp] theorem complete_eq (s : State) : complete s = .next (completed s) := rfl

/-- A failure leaves the record of R166 and the input as it was. -/
theorem failedWith_failed (kd : ErrKind) (c : ErrCause) (p i0 i1 : Nat) (s : State) :
    FailedWith kd c p i0 i1 s (failed kd c p i0 i1 s) :=
  ⟨rfl, rfl, rfl, rfl, rfl, rfl, rfl, rfl, rfl, rfl, rfl, rfl, fun _ => rfl⟩

/-- What the prologue can answer (R81). -/
theorem prologue_eq (p : Phase) (s : State) :
    prologue p s = .next (if s.inValid then { s with phase := p } else failed .invalidInput .notABuffer 0 0 0 s) := by
  unfold prologue
  split <;> rfl

end Sys2Proof.Machine
end

