-- ==== Sys2Proof/Laws/MatchFinder.lean ====
section
/-! SUPPORT. What the match finder returns (spec/43_lz77_match_finder.md R120 to R126) and what it leaves alone. -/

namespace Sys2Proof.Machine

/-! ### The length of one candidate -/

/-- `L` is the length of the longest match of candidate `o` at `pos` (R122): the bytes agree below `L`, and `L` is the cap, or
the input ends, or the next bytes differ. -/
structure IsMatchLen (s : State) (pos o L : Nat) : Prop where
  le_cap : L ≤ Config.maxMatch
  agree : ∀ j, j < L → pos + j < s.inLen ∧ inByte s (o + j) = inByte s (pos + j)
  maximal : L = Config.maxMatch ∨ s.inLen ≤ pos + L ∨ inByte s (o + L) ≠ inByte s (pos + L)

theorem matchLoop_isMatchLen (s : State) (pos o : Nat) :
    ∀ fuel k, fuel + k = Config.maxMatch →
      (∀ j, j < k → pos + j < s.inLen ∧ inByte s (o + j) = inByte s (pos + j)) →
      IsMatchLen s pos o (matchLoop s pos o fuel k)
  | 0, k, hk, ha => ⟨by simp only [matchLoop]; omega, ha, .inl (by simp only [matchLoop]; omega)⟩
  | fuel + 1, k, hk, ha => by
    unfold matchLoop
    split
    · rename_i h
      refine matchLoop_isMatchLen s pos o fuel (k + 1) (by omega) fun j hj => ?_
      rcases Nat.lt_succ_iff_lt_or_eq.1 hj with hj | rfl
      · exact ha j hj
      · exact h.2
    · rename_i h
      refine ⟨by omega, ha, ?_⟩
      by_contra hc
      simp only [not_or, not_le, not_not] at hc
      exact h ⟨by omega, hc.2⟩

theorem matchLen_isMatchLen (s : State) (pos o : Nat) : IsMatchLen s pos o (matchLen s pos o) :=
  matchLoop_isMatchLen s pos o _ 0 rfl fun _ h => absurd h (Nat.not_lt_zero _)

/-- The longest match has one length only. -/
theorem IsMatchLen.unique {s : State} {pos o L M : Nat} (hL : IsMatchLen s pos o L) (hM : IsMatchLen s pos o M) : L = M := by
  rcases Nat.lt_trichotomy L M with h | h | h
  · have := hM.le_cap
    have := hM.agree L h
    rcases hL.maximal with e | e | e
    · omega
    · omega
    · exact absurd this.2 e
  · exact h
  · have := hL.le_cap
    have := hL.agree M h
    rcases hM.maximal with e | e | e
    · omega
    · omega
    · exact absurd this.2 e

theorem matchLen_le (s : State) (pos o : Nat) : matchLen s pos o ≤ 255 := (matchLen_isMatchLen s pos o).le_cap

theorem matchLen_le_rest (s : State) (pos o : Nat) : matchLen s pos o ≤ s.inLen - pos := by
  by_contra h
  have := (matchLen_isMatchLen s pos o).agree (s.inLen - pos) (by omega)
  omega

/-- `MatchLen` reads `IN` and `IN_LEN` only (R120). -/
theorem matchLen_congr {s t : State} (hl : t.inLen = s.inLen) (hb : ∀ i, inByte t i = inByte s i) (pos o : Nat) :
    matchLen t pos o = matchLen s pos o := by
  have h := matchLen_isMatchLen t pos o
  refine IsMatchLen.unique (s := s) (pos := pos) (o := o) ⟨h.le_cap, fun j hj => ?_, ?_⟩ (matchLen_isMatchLen s pos o)
  · have := h.agree j hj
    rwa [hl, hb, hb] at this
  · have := h.maximal
    rwa [hl, hb, hb] at this

/-! ### The window -/

theorem mem_candidates {pos o : Nat} : o ∈ candidates pos ↔ pos - 20 ≤ o ∧ o < pos := by
  simp only [candidates, windowStart, Config.windowSize, List.mem_range'_1]
  omega

@[simp] theorem candidates_length (pos : Nat) : (candidates pos).length = min pos 20 := by
  simp only [candidates, windowStart, Config.windowSize, List.length_range']
  omega

/-! ### The search -/

/-- The state `s` with the match finder's four registers set. -/
def withFinder (s : State) (c : Nat) (k bl : Byte) (bo : Nat) : State :=
  { s with cand := c, k := k, bestLen := bl, bestO := bo }

/-- After the candidates `os` have been tried, `t` holds the best of them (R124). -/
structure BestOf (s : State) (pos : Nat) (os : List Nat) (t : State) : Prop where
  frame : t = withFinder s t.cand t.k t.bestLen t.bestO
  greatest : ∀ o ∈ os, matchLen s pos o ≤ t.bestLen.toNat
  first : 1 ≤ t.bestLen.toNat → t.bestO ∈ os ∧ matchLen s pos t.bestO = t.bestLen.toNat ∧
    ∀ o ∈ os, o < t.bestO → matchLen s pos o < t.bestLen.toNat
  none : t.bestLen.toNat = 0 → t.bestO = lenWBits s.params (Config.freeBestO s.epoch pos)

theorem toNat_ofNat_of_le {n : Nat} (h : n ≤ 255) : (BitVec.ofNat 8 n).toNat = n := by
  simp only [BitVec.toNat_ofNat]
  omega

theorem tryCandidate_bestOf {s t : State} {pos o : Nat} {os : List Nat} (h : BestOf s pos os t)
    (hlt : ∀ p ∈ os, p < o) : BestOf s pos (os ++ [o]) (tryCandidate pos t o) := by
  have hm : matchLen t pos o = matchLen s pos o := by
    refine matchLen_congr ?_ (fun i => ?_) pos o <;> rw [h.frame] <;> rfl
  have hle := matchLen_le s pos o
  unfold tryCandidate
  simp only [hm]
  split
  · rename_i hgt
    refine ⟨?_, ?_, ?_, ?_⟩
    · rw [h.frame]; rfl
    · intro p hp
      simp only [toNat_ofNat_of_le hle]
      rcases List.mem_append.1 hp with hp | hp
      · exact Nat.le_of_lt (Nat.lt_of_le_of_lt (h.greatest p hp) hgt)
      · rw [List.mem_singleton.1 hp]
    · simp only [toNat_ofNat_of_le hle]
      refine fun _ => ⟨by simp, trivial, fun p hp hpo => ?_⟩
      rcases List.mem_append.1 hp with hp | hp
      · exact Nat.lt_of_le_of_lt (h.greatest p hp) hgt
      · exact absurd (List.mem_singleton.1 hp) (by omega)
    · simp only [toNat_ofNat_of_le hle]
      intro h0
      omega
  · rename_i hgt
    refine ⟨?_, ?_, ?_, h.none⟩
    · rw [h.frame]; rfl
    · intro p hp
      rcases List.mem_append.1 hp with hp | hp
      · exact h.greatest p hp
      · rw [List.mem_singleton.1 hp]; exact Nat.le_of_not_lt hgt
    · intro h1
      obtain ⟨hmem, heq, hfirst⟩ := h.first h1
      refine ⟨List.mem_append_left _ hmem, heq, fun p hp hpo => ?_⟩
      rcases List.mem_append.1 hp with hp | hp
      · exact hfirst p hp hpo
      · have hb : t.bestO < o := hlt _ hmem
        have hpb : p < t.bestO := hpo
        have he : p = o := List.mem_singleton.1 hp
        omega

theorem foldl_tryCandidate_bestOf {s : State} {pos : Nat} :
    ∀ (os done : List Nat) (t : State), BestOf s pos done t → (done ++ os).Pairwise (· < ·) →
      BestOf s pos (done ++ os) (os.foldl (tryCandidate pos) t)
  | [], done, t, h, _ => by simpa using h
  | o :: os, done, t, h, hp => by
    have hlt : ∀ p ∈ done, p < o := fun p hpd => (List.pairwise_append.1 hp).2.2 p hpd o (by simp)
    have := foldl_tryCandidate_bestOf os (done ++ [o]) (tryCandidate pos t o) (tryCandidate_bestOf h hlt)
      (by simpa using hp)
    simpa using this

/-- What `FindBest` answers (R124): the greatest length over the window, and the first candidate that has it. -/
theorem findBest_bestOf (s : State) (pos : Nat) : BestOf s pos (candidates pos) (findBest pos s) := by
  have h0 : BestOf s pos [] (beginSearch pos s) :=
    ⟨rfl, fun _ h => absurd h (List.not_mem_nil), fun h => absurd h (by simp), fun _ => rfl⟩
  have := foldl_tryCandidate_bestOf (candidates pos) [] _ h0
    (by simpa [candidates] using List.pairwise_lt_range' (s := windowStart pos) (n := pos - windowStart pos))
  exact this

/-- `FindBest` writes its four registers and nothing else (R120). -/
theorem findBest_frame (s : State) (pos : Nat) :
    findBest pos s = withFinder s (findBest pos s).cand (findBest pos s).k (findBest pos s).bestLen
      (findBest pos s).bestO := (findBest_bestOf s pos).frame

/-! ### What the search leaves alone, field by field (R120) -/

section findBestFields
variable (p : Nat) (s : State)
@[simp] theorem findBest_cmd : (findBest p s).cmd = s.cmd := by rw [findBest_frame]; rfl
@[simp] theorem findBest_inValid : (findBest p s).inValid = s.inValid := by rw [findBest_frame]; rfl
@[simp] theorem findBest_inLen : (findBest p s).inLen = s.inLen := by rw [findBest_frame]; rfl
@[simp] theorem findBest_status : (findBest p s).status = s.status := by rw [findBest_frame]; rfl
@[simp] theorem findBest_outLen : (findBest p s).outLen = s.outLen := by rw [findBest_frame]; rfl
@[simp] theorem findBest_errKind : (findBest p s).errKind = s.errKind := by rw [findBest_frame]; rfl
@[simp] theorem findBest_errCause : (findBest p s).errCause = s.errCause := by rw [findBest_frame]; rfl
@[simp] theorem findBest_errPos : (findBest p s).errPos = s.errPos := by rw [findBest_frame]; rfl
@[simp] theorem findBest_errInfo0 : (findBest p s).errInfo0 = s.errInfo0 := by rw [findBest_frame]; rfl
@[simp] theorem findBest_errInfo1 : (findBest p s).errInfo1 = s.errInfo1 := by rw [findBest_frame]; rfl
@[simp] theorem findBest_pos : (findBest p s).pos = s.pos := by rw [findBest_frame]; rfl
@[simp] theorem findBest_runVal : (findBest p s).runVal = s.runVal := by rw [findBest_frame]; rfl
@[simp] theorem findBest_runCnt : (findBest p s).runCnt = s.runCnt := by rw [findBest_frame]; rfl
@[simp] theorem findBest_dstate : (findBest p s).dstate = s.dstate := by rw [findBest_frame]; rfl
@[simp] theorem findBest_tag : (findBest p s).tag = s.tag := by rw [findBest_frame]; rfl
@[simp] theorem findBest_mOff : (findBest p s).mOff = s.mOff := by rw [findBest_frame]; rfl
@[simp] theorem findBest_mLen : (findBest p s).mLen = s.mLen := by rw [findBest_frame]; rfl
@[simp] theorem findBest_src : (findBest p s).src = s.src := by rw [findBest_frame]; rfl
@[simp] theorem findBest_rem : (findBest p s).rem = s.rem := by rw [findBest_frame]; rfl
@[simp] theorem findBest_inMem : (findBest p s).inMem = s.inMem := by rw [findBest_frame]; rfl
@[simp] theorem findBest_outMem : (findBest p s).outMem = s.outMem := by rw [findBest_frame]; rfl
@[simp] theorem findBest_phase : (findBest p s).phase = s.phase := by rw [findBest_frame]; rfl
@[simp] theorem findBest_agenda : (findBest p s).agenda = s.agenda := by rw [findBest_frame]; rfl
@[simp] theorem findBest_params : (findBest p s).params = s.params := by rw [findBest_frame]; rfl
@[simp] theorem findBest_epoch : (findBest p s).epoch = s.epoch := by rw [findBest_frame]; rfl
@[simp] theorem findBest_resets : (findBest p s).resets = s.resets := by rw [findBest_frame]; rfl
@[simp] theorem inByte_findBest (i : Nat) : inByte (findBest p s) i = inByte s i := by rw [findBest_frame]; rfl
@[simp] theorem outByte_findBest (i : Nat) : outByte (findBest p s) i = outByte s i := by rw [findBest_frame]; rfl
end findBestFields

/-- A best length of at least 1 comes from a candidate inside the window (R120, R126). -/
theorem findBest_bestO {s : State} {pos : Nat} (h : 1 ≤ (findBest pos s).bestLen.toNat) :
    pos - 20 ≤ (findBest pos s).bestO ∧ (findBest pos s).bestO < pos ∧
      matchLen s pos (findBest pos s).bestO = (findBest pos s).bestLen.toNat :=
  have h' := (findBest_bestOf s pos).first h
  ⟨(mem_candidates.1 h'.1).1, (mem_candidates.1 h'.1).2, h'.2.1⟩

theorem findBest_bestLen_le_rest (s : State) (pos : Nat) :
    (findBest pos s).bestLen.toNat ≤ s.inLen - pos := by
  by_cases h : 1 ≤ (findBest pos s).bestLen.toNat
  · rw [← (findBest_bestO h).2.2]
    exact matchLen_le_rest s pos _
  · omega

/-- The last candidate examined, and so `CAND`, lies below `pos` or is what it was. -/
theorem foldl_tryCandidate_cand (pos : Nat) :
    ∀ (os : List Nat) (t : State), (∀ o ∈ os, o < pos) →
      (os.foldl (tryCandidate pos) t).cand < pos ∨ (os.foldl (tryCandidate pos) t).cand = t.cand
  | [], _, _ => .inr rfl
  | o :: os, t, h => by
    have hc : (tryCandidate pos t o).cand = o := by unfold tryCandidate; simp only; split <;> rfl
    rcases foldl_tryCandidate_cand pos os (tryCandidate pos t o) (fun p hp => h p (by simp [hp])) with h1 | h1
    · exact .inl h1
    · exact .inl (by rw [List.foldl_cons, h1, hc]; exact h o (by simp))

theorem findBest_cand (s : State) (pos : Nat) :
    (findBest pos s).cand < pos ∨ (findBest pos s).cand = s.cand :=
  foldl_tryCandidate_cand pos (candidates pos) (beginSearch pos s) fun _ ho => (mem_candidates.1 ho).2

end Sys2Proof.Machine
end

