-- ==== Sys2Proof/Laws/Lz.lean ====
section
/-! SUPPORT. What the LZ77 instructions and the LZ77 encoder's step can answer. -/

namespace Sys2Proof.Machine

/-! ### The encoder's step -/

/-- The state after the emit-match step (R131). -/
def afterEmitMatch (s : State) : State :=
  { pushed [Config.tagMatch, BitVec.ofNat 8 (s.pos - s.bestO), s.bestLen] s with pos := s.pos + s.bestLen.toNat }

/-- The state after the emit-literal step (R132). -/
def afterEmitLiteral (s : State) : State :=
  { pushed [Config.tagLiteral, inByte s s.pos] s with pos := s.pos + 1 }

theorem emitMatch_of_room {s : State} (h : roomFor 3 s = true) : emitMatch s = .next (afterEmitMatch s) := by
  unfold emitMatch
  rw [appendAll_of_room (by simpa using h), andThen_next]
  rfl

theorem emitLiteral_of_room {s : State} (h : roomFor 2 s = true) : emitLiteral s = .next (afterEmitLiteral s) := by
  unfold emitLiteral
  rw [appendAll_of_room (by simpa using h), andThen_next]
  rfl

theorem emitMatch_eq_next {s t : State} (h : emitMatch s = .next t) :
    t = afterEmitMatch s ∧ roomFor 3 s = true := by
  have hr : roomFor 3 s = true := by
    obtain ⟨u, hu, _⟩ := andThen_eq_next h
    obtain ⟨_, h0 | hr⟩ := appendAll_eq_next hu
    · cases h0
    · exact hr
  rw [emitMatch_of_room hr] at h
  cases h
  exact ⟨rfl, hr⟩

theorem emitLiteral_eq_next {s t : State} (h : emitLiteral s = .next t) :
    t = afterEmitLiteral s ∧ roomFor 2 s = true := by
  have hr : roomFor 2 s = true := by
    obtain ⟨u, hu, _⟩ := andThen_eq_next h
    obtain ⟨_, h0 | hr⟩ := appendAll_eq_next hu
    · cases h0
    · exact hr
  rw [emitLiteral_of_room hr] at h
  cases h
  exact ⟨rfl, hr⟩

@[simp] theorem roomFor_findBest (n p : Nat) (s : State) : roomFor n (findBest p s) = roomFor n s := by
  rw [findBest_frame]
  rfl

/-- What the encoder's step can answer: a match of at least 3 bytes, or a literal (R130). -/
theorem lzEncodeStep_eq_next {s t : State} (h : lzEncodeStep s = .next t) :
    (3 ≤ (findBest s.pos s).bestLen.toNat ∧ roomFor 3 s = true ∧ t = afterEmitMatch (findBest s.pos s)) ∨
      ((findBest s.pos s).bestLen.toNat ≤ 2 ∧ roomFor 2 s = true ∧ t = afterEmitLiteral (findBest s.pos s)) := by
  unfold lzEncodeStep at h
  simp only at h
  split at h
  · rename_i h3
    obtain ⟨rfl, hr⟩ := emitMatch_eq_next h
    exact .inl ⟨h3, by simpa using hr, rfl⟩
  · rename_i h3
    obtain ⟨rfl, hr⟩ := emitLiteral_eq_next h
    exact .inr ⟨by simp only [Config.minMatch] at h3; omega, by simpa using hr, rfl⟩

theorem lzEncodeStep_of_match {s : State} (h : 3 ≤ (findBest s.pos s).bestLen.toNat) (hr : roomFor 3 s = true) :
    lzEncodeStep s = .next (afterEmitMatch (findBest s.pos s)) := by
  unfold lzEncodeStep
  simp only
  rw [if_pos (show Config.minMatch ≤ _ from h), emitMatch_of_room (by simpa using hr)]

theorem lzEncodeStep_of_literal {s : State} (h : (findBest s.pos s).bestLen.toNat ≤ 2) (hr : roomFor 2 s = true) :
    lzEncodeStep s = .next (afterEmitLiteral (findBest s.pos s)) := by
  unfold lzEncodeStep
  simp only
  rw [if_neg (by simp only [Config.minMatch]; omega), emitLiteral_of_room (by simpa using hr)]

/-- The token the encoder chooses has no room: the refusal of R54. -/
theorem lzEncodeStep_refuses {s : State}
    (hr : roomFor (if 3 ≤ (findBest s.pos s).bestLen.toNat then 3 else 2) s = false) :
    lzEncodeStep s = .refused .outputOverCapacity := by
  unfold lzEncodeStep
  simp only
  by_cases h : 3 ≤ (findBest s.pos s).bestLen.toNat
  · rw [if_pos h] at hr
    rw [if_pos (show Config.minMatch ≤ _ from h), emitMatch, appendAll_refuses (by simp) (by simpa using hr),
      andThen_refused]
  · rw [if_neg h] at hr
    rw [if_neg (show ¬Config.minMatch ≤ _ from h), emitLiteral, appendAll_refuses (by simp) (by simpa using hr),
      andThen_refused]

/-! ### The decoder's tokens -/

/-- The state after `LZ.LIT b` (R143). -/
def afterLiteral (b : Byte) (s : State) : State :=
  tokenDone 2 (pushed [b] (tagFetched Config.tagLiteral .consumingLiteral s))

/-- The state after a missing literal byte (R144). -/
def afterMissingLiteral (s : State) : State :=
  failed .invalidFormat .lzMissingLiteral s.pos 0 0 (tagFetched Config.tagLiteral .consumingLiteral s)

theorem execLzLit_none (s : State) : execLzLit none s = .next (afterMissingLiteral s) := rfl

theorem execLzLit_truncated (b : Option Byte) {s : State} (h : s.inLen ≤ s.pos + 1) :
    execLzLit b s = .next (afterMissingLiteral s) := by
  cases b with
  | none => rfl
  | some b =>
    simp only [execLzLit]
    rw [if_pos h]
    rfl

theorem execLzLit_of_room {b : Byte} {s : State} (h : s.pos + 1 < s.inLen) (hr : roomFor 1 s = true) :
    execLzLit (some b) s = .next (afterLiteral b s) := by
  simp only [execLzLit]
  rw [if_neg (by omega),
    append_eq_next (s := tagFetched Config.tagLiteral .consumingLiteral s) |>.2
      ⟨cellExists_of_withinCap (k := 0) hr, rfl⟩, andThen_next]
  rfl

theorem execLzLit_refuses {b : Byte} {s : State} (h : s.pos + 1 < s.inLen) (hr : roomFor 1 s = false) :
    execLzLit (some b) s = .refused .outputOverCapacity := by
  simp only [execLzLit]
  rw [if_neg (by omega), append, if_neg, andThen_refused]
  exact fun hc => by rw [roomFor] at hr; exact absurd (withinCap_of_cellExists hc) (by simpa using hr)

theorem execLzLit_eq_next {b : Option Byte} {s t : State} (h : execLzLit b s = .next t) :
    ((b = none ∨ s.inLen ≤ s.pos + 1) ∧ t = afterMissingLiteral s) ∨
      ∃ v, b = some v ∧ s.pos + 1 < s.inLen ∧ roomFor 1 s = true ∧ t = afterLiteral v s := by
  cases b with
  | none => cases h; exact .inl ⟨.inl rfl, rfl⟩
  | some b =>
    by_cases hp : s.inLen ≤ s.pos + 1
    · rw [execLzLit_truncated _ hp] at h
      cases h
      exact .inl ⟨.inr hp, rfl⟩
    · have h' := h
      simp only [execLzLit] at h'
      rw [if_neg hp] at h'
      obtain ⟨u, hu, _⟩ := andThen_eq_next h'
      have hr : roomFor 1 s = true := withinCap_of_cellExists (append_eq_next.1 hu).1
      rw [execLzLit_of_room (by omega) hr] at h
      cases h
      exact .inr ⟨b, rfl, by omega, hr, rfl⟩

/-- The state after an incomplete match token (R146). -/
def afterIncompleteMatch (s : State) : State :=
  failed .invalidFormat .lzIncompleteMatch s.pos (s.inLen - s.pos - 1) 0
    (tagFetched Config.tagMatch .consumingMatch s)

/-- The state after an offset beyond the output (R147). -/
def afterOffsetRange (o l : Byte) (s : State) : State :=
  failed .invalidFormat .lzOffsetRange s.pos o.toNat s.outLen (matchFetched o l s)

/-- The state after a zero offset with bytes to copy (R151). -/
def afterZeroOffset (o l : Byte) (s : State) : State :=
  failed .invalidFormat .lzZeroOffset s.pos 0 l.toNat (matchFetched o l s)

/-- The state after the copy of a match (R145, R148). -/
def afterMatch (o l : Byte) (s : State) : State :=
  { pushed (periodicBytes s (s.outLen - o.toNat) l.toNat) s with
    tag := Config.tagMatch, dstate := .expectTag, mOff := o, mLen := l,
    src := s.outLen - o.toNat + l.toNat, rem := 0, pos := s.pos + 3 }

theorem execLzMatch_truncated (o l : Option Byte) {s : State} (h : s.inLen ≤ s.pos + 2) :
    execLzMatch o l s = .next (afterIncompleteMatch s) := by
  unfold execLzMatch
  split
  · rw [if_pos h]
    rfl
  · rfl
  · rfl

theorem execLzMatch_missing {o l : Option Byte} (h : o = none ∨ l = none) (s : State) :
    execLzMatch o l s = .next (afterIncompleteMatch s) := by
  rcases h with rfl | rfl
  · cases l <;> rfl
  · cases o <;> rfl

theorem execLzMatch_offsetRange {o l : Byte} {s : State} (hp : s.pos + 2 < s.inLen) (ho : s.outLen < o.toNat) :
    execLzMatch (some o) (some l) s = .next (afterOffsetRange o l s) := by
  simp only [execLzMatch]
  rw [if_neg (by omega), if_pos ho]
  rfl

theorem execLzMatch_zeroOffset {l : Byte} {s : State} (hp : s.pos + 2 < s.inLen) (hl : 1 ≤ l.toNat) :
    execLzMatch (some 0) (some l) s = .next (afterZeroOffset 0 l s) := by
  simp only [execLzMatch]
  rw [if_neg (by omega), if_neg (by simp), if_pos ⟨trivial, hl⟩]
  rfl

theorem execLzMatch_of_room {o l : Byte} {s : State} (hp : s.pos + 2 < s.inLen) (ho : o.toNat ≤ s.outLen)
    (hz : o ≠ 0 ∨ l = 0) (hr : l = 0 ∨ roomFor l.toNat s = true) :
    execLzMatch (some o) (some l) s = .next (afterMatch o l s) := by
  simp only [execLzMatch]
  rw [if_neg (by omega), if_neg (by omega), if_neg, copyLoop_of_room, andThen_next]
  · have hrem : l - BitVec.ofNat 8 l.toNat = 0 := by simp
    simp only [copyPrepared_rem, matchFetched_mLen, hrem]
    rfl
  · rcases hz with hz | rfl
    · right
      have := o.isLt
      simp only [copyPrepared_src, copyPrepared_outLen, matchFetched_outLen, matchFetched_mOff]
      have : 0 < o.toNat := Nat.pos_of_ne_zero fun e => hz (BitVec.eq_of_toNat_eq e)
      omega
    · exact .inl rfl
  · exact hr.imp (fun e => by rw [e]; rfl) id
  · rintro ⟨rfl, h1⟩
    rcases hz with hz | rfl
    · exact hz rfl
    · simp at h1

theorem execLzMatch_refuses {o l : Byte} {s : State} (hp : s.pos + 2 < s.inLen) (hz : o ≠ 0) (ho : o.toNat ≤ s.outLen)
    (hl : 1 ≤ l.toNat) (hr : roomFor l.toNat s = false) :
    execLzMatch (some o) (some l) s = .refused .outputOverCapacity := by
  simp only [execLzMatch]
  rw [if_neg (by omega), if_neg (by omega), if_neg (fun h => hz h.1),
    copyLoop_refuses (s := copyPrepared (matchFetched o l s)) (by omega) hr, andThen_refused]

/-- What `LZ.MATCH` can answer, in the order of its checks (R145). -/
theorem execLzMatch_eq_next {o l : Option Byte} {s t : State} (h : execLzMatch o l s = .next t) :
    ((o = none ∨ l = none ∨ s.inLen ≤ s.pos + 2) ∧ t = afterIncompleteMatch s) ∨ ∃ v w, o = some v ∧ l = some w ∧ s.pos + 2 < s.inLen ∧
      ((s.outLen < v.toNat ∧ t = afterOffsetRange v w s) ∨ (v = 0 ∧ w ≠ 0 ∧ t = afterZeroOffset v w s) ∨
        (v.toNat ≤ s.outLen ∧ (v ≠ 0 ∨ w = 0) ∧ (w = 0 ∨ roomFor w.toNat s = true) ∧ t = afterMatch v w s)) := by
  rcases o with _ | v
  · rw [execLzMatch_missing (.inl rfl)] at h; cases h; exact .inl ⟨.inl rfl, rfl⟩
  rcases l with _ | w
  · rw [execLzMatch_missing (.inr rfl)] at h; cases h; exact .inl ⟨.inr (.inl rfl), rfl⟩
  by_cases hp : s.inLen ≤ s.pos + 2
  · rw [execLzMatch_truncated _ _ hp] at h; cases h; exact .inl ⟨.inr (.inr hp), rfl⟩
  refine .inr ⟨v, w, rfl, rfl, by omega, ?_⟩
  by_cases ho : s.outLen < v.toNat
  · rw [execLzMatch_offsetRange (by omega) ho] at h; cases h; exact .inl ⟨ho, rfl⟩
  refine .inr ?_
  by_cases hz : v = 0 ∧ w ≠ 0
  · obtain ⟨rfl, hw⟩ := hz
    have hw1 : 0 < w.toNat := Nat.pos_of_ne_zero fun e => hw (BitVec.eq_of_toNat_eq e)
    rw [execLzMatch_zeroOffset (by omega) hw1] at h
    cases h
    exact .inl ⟨rfl, hw, rfl⟩
  have hz' : v ≠ 0 ∨ w = 0 := by
    by_cases hv : v = 0
    · exact .inr (not_not.1 fun hw => hz ⟨hv, hw⟩)
    · exact .inl hv
  have hr : w = 0 ∨ roomFor w.toNat s = true := by
    have h' := h
    simp only [execLzMatch] at h'
    rw [if_neg hp, if_neg ho, if_neg] at h'
    · obtain ⟨u, hu, _⟩ := andThen_eq_next h'
      exact (copyLoop_needs_room hu).imp (fun e => BitVec.eq_of_toNat_eq e) id
    · rintro ⟨rfl, h1⟩
      rcases hz' with e | rfl
      · exact e rfl
      · simp at h1
  rw [execLzMatch_of_room (by omega) (by omega) hz' hr] at h
  cases h
  exact .inr ⟨by omega, hz', hr, rfl⟩

/-- The state after an unassigned tag (R149). -/
def afterIllegalTag (tg : Byte) (s : State) : State :=
  failed .invalidFormat .lzBadTag s.pos tg.toNat 0 (tagFetched tg .expectTag s)

theorem execLzIllegalTag_eq (tg : Byte) (s : State) : execLzIllegalTag tg s = .next (afterIllegalTag tg s) := rfl

end Sys2Proof.Machine
end

