-- ==== Sys2Proof/Laws/Rle.lean ====
section
/-! SUPPORT. What the RLE instructions and the RLE encoder's step can answer. -/

namespace Sys2Proof.Machine

/-! ### The run at `POS` -/

/-- `c` is the length of the run of equal bytes that starts at `POS`, cut at 255 (the closed form of R101). -/
structure IsRunLength (s : State) (c : Nat) : Prop where
  pos : 1 ≤ c
  le_cap : c ≤ Config.maxRun
  inside : s.pos + c ≤ s.inLen
  equal : ∀ j, j < c → inByte s (s.pos + j) = inByte s s.pos
  maximal : c = Config.maxRun ∨ s.pos + c = s.inLen ∨ inByte s (s.pos + c) ≠ inByte s s.pos

theorem countRun_isRunLength (s : State) :
    ∀ fuel n, Config.maxRun ≤ fuel + n → 1 ≤ n → n ≤ Config.maxRun → s.pos + n ≤ s.inLen →
      (∀ j, j < n → inByte s (s.pos + j) = inByte s s.pos) → IsRunLength s (countRun s (inByte s s.pos) fuel n)
  | 0, n, hf, h1, hn, hi, he => ⟨h1, hn, hi, he, .inl (by simp only [countRun]; omega)⟩
  | fuel + 1, n, hf, h1, hn, hi, he => by
    unfold countRun
    split
    · rename_i h
      refine countRun_isRunLength s fuel (n + 1) (by omega) (by omega) (by omega) (by omega) fun j hj => ?_
      rcases Nat.lt_succ_iff_lt_or_eq.1 hj with hj | rfl
      · exact he j hj
      · exact h.2.1
    · rename_i h
      refine ⟨h1, hn, hi, he, ?_⟩
      by_contra hc
      simp only [not_or, not_not] at hc
      exact h ⟨by omega, hc.2.2, by omega⟩

theorem runLength_isRunLength {s : State} (h : s.pos < s.inLen) : IsRunLength s (runLength s) :=
  countRun_isRunLength s _ 1 (by decide) (Nat.le_refl 1) (by decide) h fun j hj => by
    rw [Nat.lt_one_iff.1 hj, Nat.add_zero]

/-- The run has one length only. -/
theorem IsRunLength.unique {s : State} {c d : Nat} (hc : IsRunLength s c) (hd : IsRunLength s d) : c = d := by
  have aux : ∀ {a b : Nat}, IsRunLength s a → IsRunLength s b → ¬ a < b := fun {a b} ha hb h => by
    have := hb.le_cap
    have := hb.inside
    rcases ha.maximal with e | e | e
    · omega
    · omega
    · exact e (hb.equal a h)
  exact Nat.le_antisymm (Nat.le_of_not_lt (aux hd hc)) (Nat.le_of_not_lt (aux hc hd))

/-! ### The encoder's step -/

/-- The state after the RLE encoder step that emits a run of `c` bytes. -/
def afterRun (c : Nat) (s : State) : State :=
  { pushed [BitVec.ofNat 8 c, inByte s s.pos] s with
    runVal := inByte s s.pos, runCnt := BitVec.ofNat 8 c, pos := s.pos + c }

theorem rleEncodeStep_of_room {s : State} (hp : s.pos < s.inLen) (hr : roomFor 2 s = true) :
    rleEncodeStep s = .next (afterRun (runLength s) s) := by
  have hc := (runLength_isRunLength hp).le_cap
  unfold rleEncodeStep
  simp only
  rw [appendAll_of_room (by simpa [roomFor] using hr), andThen_next]
  congr 1
  simp only [afterRun, pushed, State.mk.injEq, true_and, and_true]
  congr 1
  exact Nat.mod_eq_of_lt (by simp only [Config.maxRun] at hc; omega)

theorem rleEncodeStep_refuses {s : State} (hr : roomFor 2 s = false) :
    rleEncodeStep s = .refused .outputOverCapacity := by
  unfold rleEncodeStep
  simp only
  rw [appendAll_refuses (by simp) (by simpa [roomFor] using hr), andThen_refused]

theorem rleEncodeStep_eq_next {s t : State} (hp : s.pos < s.inLen) (h : rleEncodeStep s = .next t) :
    t = afterRun (runLength s) s ∧ roomFor 2 s = true := by
  have hr : roomFor 2 s = true := by
    obtain ⟨u, hu, _⟩ := andThen_eq_next h
    obtain ⟨_, h0 | hr⟩ := appendAll_eq_next hu
    · cases h0
    · exact hr
  rw [rleEncodeStep_of_room hp hr] at h
  cases h
  exact ⟨rfl, hr⟩

/-! ### The decoder's tokens -/

/-- The state after `RLE.PAIR count, value` with a non-zero count. -/
def afterPair (count value : Byte) (s : State) : State :=
  { pushed (List.replicate count.toNat value) s with pos := s.pos + 2 }

theorem execRlePair_zero (value : Byte) (s : State) :
    execRlePair 0 value s = .next (failed .invalidFormat .rleZeroCount s.pos 0 0 s) := rfl

theorem execRlePair_of_room {count value : Byte} {s : State} (h0 : count ≠ 0) (hr : roomFor count.toNat s = true) :
    execRlePair count value s = .next (afterPair count value s) := by
  unfold execRlePair
  rw [if_neg h0, appendAll_of_room (by simpa using hr), andThen_next]
  rfl

theorem toNat_pos {b : Byte} (h : b ≠ 0) : 0 < b.toNat :=
  Nat.pos_of_ne_zero fun e => h (BitVec.eq_of_toNat_eq e)

theorem execRlePair_refuses {count value : Byte} {s : State} (h0 : count ≠ 0) (hr : roomFor count.toNat s = false) :
    execRlePair count value s = .refused .outputOverCapacity := by
  have := toNat_pos h0
  unfold execRlePair
  rw [if_neg h0, appendAll_refuses (fun e => by simp at e; omega) (by simpa using hr), andThen_refused]

theorem execRlePair_eq_next {count value : Byte} {s t : State} (h : execRlePair count value s = .next t) :
    (count = 0 ∧ t = failed .invalidFormat .rleZeroCount s.pos 0 0 s) ∨
      (count ≠ 0 ∧ roomFor count.toNat s = true ∧ t = afterPair count value s) := by
  by_cases h0 : count = 0
  · subst h0
    cases h
    exact .inl ⟨rfl, rfl⟩
  · have hr : roomFor count.toNat s = true := by
      have h' := h
      unfold execRlePair at h'
      rw [if_neg h0] at h'
      obtain ⟨u, hu, _⟩ := andThen_eq_next h'
      obtain ⟨_, hv | hr⟩ := appendAll_eq_next hu
      · have := toNat_pos h0
        have := congrArg List.length hv
        simp at this
        omega
      · simpa using hr
    rw [execRlePair_of_room h0 hr] at h
    cases h
    exact .inr ⟨h0, hr, rfl⟩

/-- What the decoder's step answers where the pair is whole (R110). -/
theorem rleDecodeStep_eq {s : State} (h : s.pos + 1 < s.inLen) :
    rleDecodeStep s = execRlePair (inByte s s.pos) (inByte s (s.pos + 1)) s := by
  unfold rleDecodeStep
  rw [operandByte, if_pos h]
  simp only
  split
  · rename_i h0
    rw [h0]
    rfl
  · rfl

end Sys2Proof.Machine
end

