-- ==== Sys2Proof/Laws/Commands.lean ====
section
/-! SUPPORT. Everything one ENGINE step of each command can do (spec/40_commands.md R83), and that running the token at `POS`
is the same as running the command in `CMD`. -/

namespace Sys2Proof.Machine

/-! ### What a step of each command can answer -/

/-- Everything an ENGINE step of `RLE.COMPRESS` can do. -/
theorem execRleCompress_cases {s t : State} (h : execRleCompress s = .next t) :
    (s.phase = .prologue ∧ s.inValid = false ∧ t = failed .invalidInput .notABuffer 0 0 0 s) ∨
      (s.phase = .prologue ∧ s.inValid = true ∧ t = { s with phase := .body }) ∨
      (s.phase ≠ .prologue ∧ s.inLen ≤ s.pos ∧ t = completed s) ∨
      (s.phase ≠ .prologue ∧ s.pos < s.inLen ∧ roomFor 2 s = true ∧ t = afterRun (runLength s) s) := by
  cases hp : s.phase <;> simp only [execRleCompress, hp] at h
  · rw [prologue_eq] at h
    cases hv : s.inValid <;> simp only [hv] at h <;> cases h
    · exact .inl ⟨rfl, rfl, rfl⟩
    · exact .inr (.inl ⟨rfl, rfl, rfl⟩)
  all_goals
    by_cases hl : s.pos < s.inLen
    · rw [if_pos hl] at h
      obtain ⟨rfl, hr⟩ := rleEncodeStep_eq_next hl h
      exact .inr (.inr (.inr ⟨nofun, hl, hr, rfl⟩))
    · rw [if_neg hl] at h
      cases h
      exact .inr (.inr (.inl ⟨nofun, Nat.le_of_not_lt hl, rfl⟩))

/-- Everything an ENGINE step of `LZ.COMPRESS` can do. -/
theorem execLzCompress_cases {s t : State} (h : execLzCompress s = .next t) :
    (s.phase = .prologue ∧ s.inValid = false ∧ t = failed .invalidInput .notABuffer 0 0 0 s) ∨
      (s.phase = .prologue ∧ s.inValid = true ∧ t = { s with phase := .body }) ∨
      (s.phase ≠ .prologue ∧ s.inLen ≤ s.pos ∧ t = completed s) ∨
      (s.phase ≠ .prologue ∧ s.pos < s.inLen ∧ 3 ≤ (findBest s.pos s).bestLen.toNat ∧ roomFor 3 s = true ∧
        t = afterEmitMatch (findBest s.pos s)) ∨
      (s.phase ≠ .prologue ∧ s.pos < s.inLen ∧ (findBest s.pos s).bestLen.toNat ≤ 2 ∧ roomFor 2 s = true ∧
        t = afterEmitLiteral (findBest s.pos s)) := by
  cases hp : s.phase <;> simp only [execLzCompress, hp] at h
  · rw [prologue_eq] at h
    cases hv : s.inValid <;> simp only [hv] at h <;> cases h
    · exact .inl ⟨rfl, rfl, rfl⟩
    · exact .inr (.inl ⟨rfl, rfl, rfl⟩)
  all_goals
    by_cases hl : s.pos < s.inLen
    · rw [if_pos hl] at h
      rcases lzEncodeStep_eq_next h with ⟨h3, hr, rfl⟩ | ⟨h2, hr, rfl⟩
      · exact .inr (.inr (.inr (.inl ⟨nofun, hl, h3, hr, rfl⟩)))
      · exact .inr (.inr (.inr (.inr ⟨nofun, hl, h2, hr, rfl⟩)))
    · rw [if_neg hl] at h
      cases h
      exact .inr (.inr (.inl ⟨nofun, Nat.le_of_not_lt hl, rfl⟩))

/-- Everything an ENGINE step of `RLE.DECOMPRESS` can do; the lone last byte cannot be met where `POS` and `IN_LEN` are even. -/
theorem execRleDecompress_cases {s t : State} (h : execRleDecompress s = .next t) :
    (s.phase = .prologue ∧ s.inValid = false ∧ t = failed .invalidInput .notABuffer 0 0 0 s) ∨
      (s.phase = .prologue ∧ s.inValid = true ∧ t = { s with phase := .lengthTest }) ∨
      (s.phase = .lengthTest ∧ s.inLen % 2 = 1 ∧ t = failed .invalidFormat .rleOddLength (s.inLen - 1) s.inLen 0 s) ∨
      (s.phase = .lengthTest ∧ s.inLen % 2 = 0 ∧ t = { s with phase := .body }) ∨
      (s.phase = .body ∧ s.inLen ≤ s.pos ∧ t = completed s) ∨
      (s.phase = .body ∧ s.pos + 1 = s.inLen ∧ t = failed .invalidFormat .rleOddLength (s.inLen - 1) s.inLen 0 s) ∨
      (s.phase = .body ∧ s.pos + 1 < s.inLen ∧ inByte s s.pos = 0 ∧
        t = failed .invalidFormat .rleZeroCount s.pos 0 0 s) ∨
      (s.phase = .body ∧ s.pos + 1 < s.inLen ∧ inByte s s.pos ≠ 0 ∧ roomFor (inByte s s.pos).toNat s = true ∧
        t = afterPair (inByte s s.pos) (inByte s (s.pos + 1)) s) := by
  cases hp : s.phase <;> simp only [execRleDecompress, hp] at h
  · rw [prologue_eq] at h
    cases hv : s.inValid <;> simp only [hv] at h <;> cases h
    · exact .inl ⟨rfl, rfl, rfl⟩
    · exact .inr (.inl ⟨rfl, rfl, rfl⟩)
  · simp only [isOdd, beq_iff_eq] at h
    split at h <;> rename_i ho <;> cases h
    · exact .inr (.inr (.inl ⟨rfl, ho, rfl⟩))
    · exact .inr (.inr (.inr (.inl ⟨rfl, by omega, rfl⟩)))
  · refine .inr (.inr (.inr (.inr ?_)))
    by_cases hl : s.pos < s.inLen
    · rw [if_pos hl] at h
      by_cases hl1 : s.pos + 1 < s.inLen
      · rw [rleDecodeStep_eq hl1] at h
        rcases execRlePair_eq_next h with ⟨h0, rfl⟩ | ⟨h0, hr, rfl⟩
        · exact .inr (.inr (.inl ⟨rfl, hl1, h0, rfl⟩))
        · exact .inr (.inr (.inr ⟨rfl, hl1, h0, hr, rfl⟩))
      · unfold rleDecodeStep at h
        rw [operandByte, if_neg hl1] at h
        cases h
        exact .inr (.inl ⟨rfl, by omega, rfl⟩)
    · rw [if_neg hl] at h
      cases h
      exact .inl ⟨rfl, Nat.le_of_not_lt hl, rfl⟩

/-- Everything an ENGINE step of `LZ.DECOMPRESS` can do. -/
theorem execLzDecompress_cases {s t : State} (h : execLzDecompress s = .next t) :
    (s.phase = .prologue ∧ s.inValid = false ∧ t = failed .invalidInput .notABuffer 0 0 0 s) ∨
      (s.phase = .prologue ∧ s.inValid = true ∧ t = { s with phase := .body, dstate := .expectTag }) ∨
      (s.phase ≠ .prologue ∧ s.inLen ≤ s.pos ∧ t = completed s) ∨
      (s.phase ≠ .prologue ∧ s.pos < s.inLen ∧ inByte s s.pos ≠ 0 ∧ inByte s s.pos ≠ 1 ∧
        t = afterIllegalTag (inByte s s.pos) s) ∨
      (s.phase ≠ .prologue ∧ s.pos + 1 = s.inLen ∧ inByte s s.pos = 0 ∧ t = afterMissingLiteral s) ∨
      (s.phase ≠ .prologue ∧ s.pos + 1 < s.inLen ∧ inByte s s.pos = 0 ∧ roomFor 1 s = true ∧
        t = afterLiteral (inByte s (s.pos + 1)) s) ∨
      (s.phase ≠ .prologue ∧ s.pos < s.inLen ∧ s.inLen ≤ s.pos + 2 ∧ inByte s s.pos = 1 ∧
        t = afterIncompleteMatch s) ∨
      (s.phase ≠ .prologue ∧ s.pos + 2 < s.inLen ∧ inByte s s.pos = 1 ∧
        ((s.outLen < (inByte s (s.pos + 1)).toNat ∧
            t = afterOffsetRange (inByte s (s.pos + 1)) (inByte s (s.pos + 2)) s) ∨
          (inByte s (s.pos + 1) = 0 ∧ inByte s (s.pos + 2) ≠ 0 ∧
            t = afterZeroOffset (inByte s (s.pos + 1)) (inByte s (s.pos + 2)) s) ∨
          ((inByte s (s.pos + 1)).toNat ≤ s.outLen ∧ (inByte s (s.pos + 1) ≠ 0 ∨ inByte s (s.pos + 2) = 0) ∧
            (inByte s (s.pos + 2) = 0 ∨ roomFor (inByte s (s.pos + 2)).toNat s = true) ∧
            t = afterMatch (inByte s (s.pos + 1)) (inByte s (s.pos + 2)) s))) := by
  cases hp : s.phase <;> simp only [execLzDecompress, hp] at h
  · by_cases hv : s.inValid = true
    · rw [if_pos hv, prologue_eq, if_pos (show State.inValid _ = true from hv)] at h
      cases h
      exact .inr (.inl ⟨rfl, hv, rfl⟩)
    · rw [if_neg hv, prologue_eq, if_neg hv] at h
      cases h
      exact .inl ⟨rfl, Bool.eq_false_iff.2 hv, rfl⟩
  all_goals
    refine .inr (.inr ?_)
    by_cases hl : s.pos < s.inLen
    · refine .inr ?_
      rw [if_pos hl] at h
      simp only [lzDecodeStep] at h
      by_cases h0 : inByte s s.pos = 0
      · rw [if_pos (show _ = Config.tagLiteral from h0)] at h
        rcases execLzLit_eq_next h with ⟨hm, rfl⟩ | ⟨v, hv, hl1, hr, rfl⟩
        · refine .inr (.inl ⟨nofun, ?_, h0, rfl⟩)
          rcases hm with hm | hm
          · by_contra hc
            rw [operandByte, if_pos (by omega)] at hm
            cases hm
          · omega
        · rw [operandByte, if_pos hl1] at hv
          cases hv
          exact .inr (.inr (.inl ⟨nofun, hl1, h0, hr, rfl⟩))
      · rw [if_neg (show ¬ _ = Config.tagLiteral from h0)] at h
        by_cases h1 : inByte s s.pos = 1
        · rw [if_pos (show _ = Config.tagMatch from h1)] at h
          by_cases hl2 : s.pos + 2 < s.inLen
          · rw [operandByte, if_pos (by omega), operandByte, if_pos hl2] at h
            rcases execLzMatch_eq_next h with ⟨hm | hm | hm, rfl⟩ | ⟨v, w, hv, hw, _, hc⟩
            · cases hm
            · cases hm
            · omega
            · cases hv
              cases hw
              exact .inr (.inr (.inr (.inr ⟨nofun, hl2, h1, hc⟩)))
          · rw [execLzMatch_truncated _ _ (by omega)] at h
            cases h
            exact .inr (.inr (.inr (.inl ⟨nofun, hl, by omega, h1, rfl⟩)))
        · rw [if_neg (show ¬ _ = Config.tagMatch from h1)] at h
          cases h
          exact .inl ⟨nofun, hl, h0, h1, rfl⟩
    · rw [if_neg hl] at h
      cases h
      exact .inl ⟨nofun, Nat.le_of_not_lt hl, rfl⟩

/-! ### The token at `POS` -/

theorem tokenWindow_ne_nil {s : State} (h : s.pos < s.inLen) :
    ∃ rest, tokenWindow s = inByte s s.pos :: rest := by
  unfold tokenWindow
  obtain ⟨n, hn⟩ : ∃ n, min 3 (s.inLen - s.pos) = n + 1 := ⟨min 3 (s.inLen - s.pos) - 1, by omega⟩
  exact ⟨_, by rw [hn, List.range_succ_eq_map, List.map_cons]; rfl⟩

/-- The window by the number of bytes that are left. -/
theorem tokenWindow_one {s : State} (h : s.pos + 1 = s.inLen) : tokenWindow s = [inByte s s.pos] := by
  simp [tokenWindow, show min 3 (s.inLen - s.pos) = 1 by omega]

theorem tokenWindow_two {s : State} (h : s.pos + 2 = s.inLen) :
    tokenWindow s = [inByte s s.pos, inByte s (s.pos + 1)] := by
  simp [tokenWindow, show min 3 (s.inLen - s.pos) = 2 by omega, List.range_succ]

theorem tokenWindow_three {s : State} (h : s.pos + 2 < s.inLen) :
    tokenWindow s = [inByte s s.pos, inByte s (s.pos + 1), inByte s (s.pos + 2)] := by
  simp [tokenWindow, show min 3 (s.inLen - s.pos) = 3 by omega, List.range_succ]

/-- Executing the RLE token at `POS` is the step of `RLE.DECOMPRESS` (R110). -/
theorem exec_fetchToken_rle {s : State} (h : s.pos < s.inLen) :
    exec (fetchToken .rleDecompress s) s = rleDecodeStep s := by
  have hcase : s.pos + 1 = s.inLen ∨ s.pos + 2 = s.inLen ∨ s.pos + 2 < s.inLen := by omega
  rcases hcase with h1 | h2 | h3
  · simp only [fetchToken, tokenSpace, decode, tokenWindow_one h1, decodeRle, exec]
    unfold rleDecodeStep
    rw [operandByte, if_neg (by omega)]
  · simp only [fetchToken, tokenSpace, decode, tokenWindow_two h2, decodeRle]
    rw [rleDecodeStep_eq (by omega)]
    by_cases h0 : inByte s s.pos = 0
    · rw [if_pos h0, h0]; rfl
    · rw [if_neg h0]; rfl
  · simp only [fetchToken, tokenSpace, decode, tokenWindow_three h3, decodeRle]
    rw [rleDecodeStep_eq (by omega)]
    by_cases h0 : inByte s s.pos = 0
    · rw [if_pos h0, h0]; rfl
    · rw [if_neg h0]; rfl

/-- Executing the LZ77 token at `POS` is the step of `LZ.DECOMPRESS` (R140, R142). -/
theorem exec_fetchToken_lz {s : State} (h : s.pos < s.inLen) :
    exec (fetchToken .lzDecompress s) s = lzDecodeStep s := by
  have hcase : s.pos + 1 = s.inLen ∨ s.pos + 2 = s.inLen ∨ s.pos + 2 < s.inLen := by omega
  simp only [fetchToken, tokenSpace, decode, lzDecodeStep]
  by_cases h0 : inByte s s.pos = Config.tagLiteral
  · rw [if_pos h0]
    rcases hcase with h1 | h2 | h3
    · rw [tokenWindow_one h1, decodeLz, if_pos h0, operandByte, if_neg (by omega)]; rfl
    · rw [tokenWindow_two h2, decodeLz, if_pos h0, operandByte, if_pos (by omega)]; rfl
    · rw [tokenWindow_three h3, decodeLz, if_pos h0, operandByte, if_pos (by omega)]; rfl
  · rw [if_neg h0]
    by_cases h1 : inByte s s.pos = Config.tagMatch
    · rw [if_pos h1]
      rcases hcase with e | e | e
      · rw [tokenWindow_one e, decodeLz, if_neg h0, if_pos h1, operandByte, if_neg (by omega), operandByte,
          if_neg (by omega)]
        rfl
      · rw [tokenWindow_two e, decodeLz, if_neg h0, if_pos h1, operandByte, if_pos (by omega), operandByte,
          if_neg (by omega)]
        rfl
      · rw [tokenWindow_three e, decodeLz, if_neg h0, if_pos h1, operandByte, if_pos (by omega), operandByte,
          if_pos (by omega)]
        rfl
    · rw [if_neg h1]
      obtain ⟨rest, hw⟩ := tokenWindow_ne_nil h
      rw [hw, decodeLz, if_neg h0, if_neg h1]
      rfl

/-- The four command words. -/
theorem cmd_cases (w : BitVec 2) : w = 0b00 ∨ w = 0b01 ∨ w = 0b10 ∨ w = 0b11 := by
  revert w
  decide

/-- An ENGINE step runs the step of the command in `CMD`, whether it fetches a token or not (R83). -/
theorem exec_fetch (s : State) : exec (fetch s) s = exec (decodeCommand s.cmd) s := by
  rcases cmd_cases s.cmd with hc | hc | hc | hc <;> cases hp : s.phase <;>
    simp only [fetch, hp, hc, show decodeCommand 0b00 = .rleCompress from rfl,
      show decodeCommand 0b01 = .rleDecompress from rfl, show decodeCommand 0b10 = .lzCompress from rfl,
      show decodeCommand 0b11 = .lzDecompress from rfl, true_and, false_and, if_false, reduceCtorEq]
  · split <;> rfl
  · split <;> rename_i ho
    · simp only [exec, execRleDecompress, hp]
      rw [if_pos ho]
    · rfl
  · split <;> rename_i hl
    · rw [exec_fetchToken_rle hl]
      simp only [exec, execRleDecompress, hp]
      rw [if_pos hl]
    · rfl
  · split <;> rfl
  · split <;> rename_i hl
    · rw [exec_fetchToken_lz hl]
      simp only [exec, execLzDecompress, hp]
      rw [if_pos hl]
    · rfl

end Sys2Proof.Machine
end

