-- ==== Sys2Proof/Laws/PerInstr.lean ====
section
/-! SUPPORT. Statements about every instruction as syntax, one lemma per constructor. -/

namespace Sys2Proof.Laws.EncodingFits

/-- The length in bytes of the longest instruction of a coding space (spec/30_encoding.md R60). -/
def longest : Space → Nat
  | .rleStream => 2
  | .lzStream => 3
  | .command => 1
  | .hostAction => 0

/-- An instruction's encoding is no longer than its format (R60, R65). -/
def Statement (i : Instr) : Prop := (encode i).length ≤ longest i.space

theorem rlePair (count value : Byte) : Statement (.rlePair count value) := Nat.le_refl 2

theorem rleIllegalZeroCount (value : Byte) : Statement (.rleIllegalZeroCount value) := Nat.le_refl 2

theorem rleIllegalOddLength (last : Byte) : Statement (.rleIllegalOddLength last) := Nat.le_succ 1

theorem lzLit (byte : Option Byte) : Statement (.lzLit byte) := by
  cases byte
  · exact Nat.le_add_left 1 2
  · exact Nat.le_succ 2

theorem lzMatch (offset length : Option Byte) : Statement (.lzMatch offset length) := by
  cases offset <;> cases length <;> simp [Statement, encode, Instr.space, longest]

theorem lzIllegalTag (tag : Byte) : Statement (.lzIllegalTag tag) := Nat.le_add_left 1 2

theorem rleCompress : Statement .rleCompress := Nat.le_refl 1

theorem rleDecompress : Statement .rleDecompress := Nat.le_refl 1

theorem lzCompress : Statement .lzCompress := Nat.le_refl 1

theorem lzDecompress : Statement .lzDecompress := Nat.le_refl 1

theorem start : Statement .start := Nat.le_refl 0

end Sys2Proof.Laws.EncodingFits
end

