-- ==== Sys2Proof/Laws/Step.lean ====
section
/-! SUPPORT. Everything one step can do, and how steps compose into runs. -/

namespace Sys2Proof.Machine

/-! ### Runs -/

@[simp] theorem runSteps_zero (s : State) : runSteps 0 s = .next s := rfl

theorem runSteps_succ (n : Nat) (s : State) : runSteps (n + 1) s = andThen (step s) (runSteps n) := by
  refine (Host.Core.run.eq_2 Sys2Proof.core s n).trans ?_
  rw [show Host.Core.step Sys2Proof.core s = step s from rfl]
  cases step s <;> rfl

theorem runSteps_add (m n : Nat) (s : State) : runSteps (m + n) s = andThen (runSteps m s) (runSteps n) := by
  induction m generalizing s with
  | zero => rw [Nat.zero_add]; rfl
  | succ m ih =>
    rw [Nat.add_right_comm, runSteps_succ, runSteps_succ]
    cases step s with
    | next t => exact ih t
    | fault e => rfl
    | refused e => rfl

theorem Reaches.refl (s : State) : Reaches s s := ⟨0, rfl⟩

theorem Reaches.trans {s t u : State} (h : Reaches s t) (h' : Reaches t u) : Reaches s u := by
  obtain ⟨m, hm⟩ := h
  obtain ⟨n, hn⟩ := h'
  exact ⟨m + n, by rw [runSteps_add, hm, andThen_next, hn]⟩

theorem Reaches.head {s t u : State} (h : step s = .next t) (h' : Reaches t u) : Reaches s u :=
  Reaches.trans ⟨1, by rw [runSteps_succ, h]; rfl⟩ h'

/-- What holds of a state and is kept by every step holds of every state reached from it. -/
theorem reaches_keeps {P : State → Prop} (hstep : ∀ s t, P s → step s = .next t → P t) {s t : State} (hs : P s)
    (h : Reaches s t) : P t := by
  obtain ⟨n, hn⟩ := h
  induction n generalizing s with
  | zero => cases hn; exact hs
  | succ n ih =>
    rw [runSteps_succ] at hn
    obtain ⟨u, hu, hn⟩ := andThen_eq_next hn
    exact ih (hstep s u hs hu) hn

/-! ### One step -/

/-- With no move listed and an operation in progress, a step runs the fetched instruction, which is the step of the command. -/
theorem step_busy {s : State} (ha : s.agenda = []) (hb : s.status = .busy) :
    step s = exec (decodeCommand s.cmd) s := by
  rw [← exec_fetch]
  simp only [step, nextMove, ha, engineTurn]
  rw [if_pos hb]

/-- With no move listed and no operation in progress, nothing happens (R83). -/
theorem step_idle {s : State} (ha : s.agenda = []) (hb : s.status ≠ .busy) : step s = .next s := by
  simp only [step, nextMove, ha, engineTurn]
  rw [if_neg hb]

/-- Everything a step can do: nothing, an ENGINE step of the command in `CMD`, or an action of the HOST. -/
theorem step_cases {s t : State} (h : step s = .next t) :
    ∃ r, (s.agenda = [] ∧ r = s ∨ ∃ m rest, s.agenda = m :: rest ∧ r = { s with agenda := rest }) ∧
      ((s.status ≠ .busy ∧ t = r) ∨ (s.status = .busy ∧ exec (decodeCommand s.cmd) r = .next t) ∨
        ∃ a rest, s.agenda = .host a :: rest ∧ hostAct a r = .next t) := by
  have engine : ∀ r : State, r.status = s.status → r.cmd = s.cmd → engineTurn r = .next t →
      (s.status ≠ .busy ∧ t = r) ∨ (s.status = .busy ∧ exec (decodeCommand s.cmd) r = .next t) := by
    intro r hs hc hr
    unfold engineTurn at hr
    by_cases hb : r.status = .busy
    · rw [if_pos hb, exec_fetch, hc] at hr
      exact .inr ⟨hs ▸ hb, hr⟩
    · rw [if_neg hb] at hr
      cases hr
      exact .inl ⟨hs ▸ hb, rfl⟩
  unfold step nextMove at h
  rcases hag : s.agenda with _ | ⟨m, rest⟩
  · rw [hag] at h
    refine ⟨s, .inl ⟨rfl, rfl⟩, ?_⟩
    rcases engine s rfl rfl h with h | h
    · exact .inl h
    · exact .inr (.inl h)
  · rw [hag] at h
    refine ⟨{ s with agenda := rest }, .inr ⟨m, rest, rfl, rfl⟩, ?_⟩
    cases m with
    | engine =>
      rcases engine { s with agenda := rest } rfl rfl h with h | h
      · exact .inl h
      · exact .inr (.inl h)
    | host a => exact .inr (.inr ⟨a, rest, rfl, h⟩)

/-! ### What the HOST's actions can do -/

theorem whenNotBusy_eq_next {α : Type} {s : State} {r : Access α} {v : α} (h : whenNotBusy s r = .next v) :
    s.status ≠ .busy ∧ r = .next v := by
  unfold whenNotBusy at h
  by_cases hb : s.status = .busy
  · rw [if_pos hb] at h
    cases h
  · rw [if_neg hb] at h
    exact ⟨hb, h⟩

@[simp] theorem whenNotBusy_of_notBusy {α : Type} {s : State} (r : Access α) (hb : s.status ≠ .busy) :
    whenNotBusy s r = r := if_neg hb

@[simp] theorem whenNotBusy_of_busy {α : Type} {s : State} (r : Access α) (hb : s.status = .busy) :
    whenNotBusy s r = .refused .hostAccessWhileBusy := if_pos hb

@[simp] theorem readOnly_next {α : Type} (v : α) (s : State) : readOnly (.next v) s = .next s := rfl

@[simp] theorem readOnly_fault {α : Type} (e : Fault) (s : State) : readOnly (α := α) (.fault e) s = .fault e := rfl

@[simp] theorem readOnly_refused {α : Type} (e : Refusal) (s : State) :
    readOnly (α := α) (.refused e) s = .refused e := rfl

/-- A read that is admitted leaves the state as it is. -/
theorem readOnly_eq_next {α : Type} {r : Access α} {s t : State} (h : readOnly r s = .next t) :
    (∃ v, r = .next v) ∧ t = s := by
  cases r with
  | next v => cases h; exact ⟨⟨v, rfl⟩, rfl⟩
  | fault e => cases h
  | refused e => cases h

/-- Reading through the `OUT` window is admitted when `STATUS` is `DONE` only, and yields the byte there (R29). -/
theorem hostReadOut_eq_next {i : Nat} {s : State} {v : Byte} (h : hostReadOut i s = .next v) :
    s.status = .done ∧ Config.cellExists s.params.outCap i = true ∧ v = outByte s i := by
  obtain ⟨_, h⟩ := whenNotBusy_eq_next h
  by_cases hd : s.status = .done
  · rw [if_pos hd] at h
    by_cases hc : Config.cellExists s.params.outCap i = true
    · rw [if_pos hc] at h
      cases h
      exact ⟨hd, hc, rfl⟩
    · rw [if_neg hc] at h
      cases h
  · rw [if_neg hd] at h
    cases h

/-- Everything an action of the HOST can do: one register or one cell of `IN` is written, an operation begins, nothing changes
(a read), or the state is reset. -/
theorem hostAct_cases {a : HostAction} {s t : State} (h : hostAct a s = .next t) :
    (s.status ≠ .busy ∧
        ((∃ v, a = .writeCmd v ∧ t = { s with cmd := v }) ∨ (∃ v, a = .writeInValid v ∧ t = { s with inValid := v }) ∨
          (∃ n, a = .writeInLen n ∧ Config.withinCap s.params.inCap n = true ∧ t = { s with inLen := n }) ∨
          (∃ i v, a = .writeIn i v ∧ Config.cellExists s.params.inCap i = true ∧
            t = { s with inMem := Memory.write s.inMem i v }) ∨
          (a = .start ∧ t = started s))) ∨
      (((∃ r, a = .readReg r) ∨ (∃ i, a = .readIn i) ∨ ∃ i, a = .readOut i ∧ s.status = .done) ∧ t = s) ∨
      (a = .reset ∧ t = resetState s) := by
  cases a with
  | writeCmd v =>
    obtain ⟨hb, h⟩ := whenNotBusy_eq_next h
    cases h
    exact .inl ⟨hb, .inl ⟨v, rfl, rfl⟩⟩
  | writeInValid v =>
    obtain ⟨hb, h⟩ := whenNotBusy_eq_next h
    cases h
    exact .inl ⟨hb, .inr (.inl ⟨v, rfl, rfl⟩)⟩
  | writeInLen n =>
    obtain ⟨hb, h⟩ := whenNotBusy_eq_next h
    by_cases hc : Config.withinCap s.params.inCap n = true
    · rw [if_pos hc] at h
      cases h
      exact .inl ⟨hb, .inr (.inr (.inl ⟨n, rfl, hc, rfl⟩))⟩
    · rw [if_neg hc] at h
      cases h
  | writeIn i v =>
    obtain ⟨hb, h⟩ := whenNotBusy_eq_next h
    by_cases hc : Config.cellExists s.params.inCap i = true
    · rw [if_pos hc] at h
      cases h
      exact .inl ⟨hb, .inr (.inr (.inr (.inl ⟨i, v, rfl, hc, rfl⟩)))⟩
    · rw [if_neg hc] at h
      cases h
  | start =>
    unfold hostAct execStart at h
    by_cases hb : s.status = .busy
    · simp only at h
      rw [if_pos hb] at h
      cases h
    · simp only at h
      rw [if_neg hb] at h
      cases h
      exact .inl ⟨hb, .inr (.inr (.inr (.inr ⟨rfl, rfl⟩)))⟩
  | readReg r => exact .inr (.inl ⟨.inl ⟨r, rfl⟩, (readOnly_eq_next h).2⟩)
  | readIn i => exact .inr (.inl ⟨.inr (.inl ⟨i, rfl⟩), (readOnly_eq_next h).2⟩)
  | readOut i =>
    obtain ⟨⟨v, hv⟩, rfl⟩ := readOnly_eq_next h
    exact .inr (.inl ⟨.inr (.inr ⟨i, rfl, (hostReadOut_eq_next hv).1⟩), rfl⟩)
  | reset =>
    cases h
    exact .inr (.inr ⟨rfl, rfl⟩)

end Sys2Proof.Machine
end

