-- ==== Sys2Proof/Tests/Slice0.lean ====
section
/-! SUPPORT. The model's own tests: the well-formedness checks, words written out from the spec's encodings, small steps whose
expected results are the spec's own vectors (spec/95_test_vectors.md) or follow by hand from the rule named, and a witness for
the hypotheses of every statement. -/

namespace Sys2Proof.Tests

open Sys2Proof.Machine

/-! ### Well-formedness: one ill-formed term per check -/

/-- R69: a zero count is no `RLE.PAIR`. -/
theorem test_wf_refuses_zero_count : (Instr.rlePair 0 0x41).wf = false := by decide

/-- R45: the length does not stand without the offset before it. -/
theorem test_wf_refuses_length_without_offset : (Instr.lzMatch none (some 3)).wf = false := by decide

/-- R68: the assigned tags are not illegal. -/
theorem test_wf_refuses_assigned_tags :
    (Instr.lzIllegalTag 0x00).wf = false ∧ (Instr.lzIllegalTag 0x01).wf = false := by decide

theorem test_wf_accepts_extremes :
    (Instr.rlePair 1 0xFF).wf = true ∧ (Instr.rlePair 0xFF 0).wf = true ∧ (Instr.lzMatch (some 0) (some 0)).wf = true ∧
      (Instr.lzIllegalTag 0x02).wf = true ∧ (Instr.lzIllegalTag 0xFF).wf = true := by decide

/-! ### Decoding: the bits written out from the tables of spec/30_encoding.md -/

/-- R61: `cccccccc vvvvvvvv`. -/
theorem test_decode_rlePair : decode .rleStream [0b00000011, 0b01000001] = .ok (.rlePair 3 0x41, []) := rfl

/-- R69: `00000000 vvvvvvvv` in an RLE stream. -/
theorem test_decode_rleIllegalZeroCount :
    decode .rleStream [0b00000000, 0b01000010] = .ok (.rleIllegalZeroCount 0x42, []) := rfl

/-- R70: one byte left in an RLE stream. -/
theorem test_decode_rleIllegalOddLength : decode .rleStream [0b00000111] = .ok (.rleIllegalOddLength 7, []) := rfl

/-- R62: `00000000 bbbbbbbb`. -/
theorem test_decode_lzLit : decode .lzStream [0b00000000, 0b00000001] = .ok (.lzLit (some 1), []) := rfl

/-- R63: `00000001 oooooooo llllllll`, the offset before the length. -/
theorem test_decode_lzMatch :
    decode .lzStream [0b00000001, 0b00000010, 0b00001010] = .ok (.lzMatch (some 2) (some 10), []) := rfl

/-- R68: any other byte in tag position. -/
theorem test_decode_lzIllegalTag : decode .lzStream [0b10000001, 0b00000001] = .ok (.lzIllegalTag 0x81, [1]) := rfl

/-- R64: bit 1 is `ALG`, bit 0 is `DIR`. -/
theorem test_decode_commands :
    decodeCommand 0b00 = .rleCompress ∧ decodeCommand 0b01 = .rleDecompress ∧ decodeCommand 0b10 = .lzCompress ∧
      decodeCommand 0b11 = .lzDecompress := by decide

/-- A command word has two bits. -/
theorem test_decode_refuses_wide_command : decode .command [0b00000100] = .error .notACommandWord := rfl

theorem test_decode_refuses_empty : decode .lzStream [] = .error .endOfStream := rfl

/-- The rows of spec/opcode_table.json, bit 0 of a word the least significant bit of its first byte. -/
theorem test_table_words :
    decodeTableWord 16 0x4103 = some (.rlePair 3 0x41) ∧ decodeTableWord 16 0x4100 = some (.lzLit (some 0x41)) ∧
      decodeTableWord 24 0x0A0201 = some (.lzMatch (some 2) (some 10)) ∧ decodeTableWord 8 0x02 = some .lzCompress ∧
      decodeTableWord 8 0x81 = some (.lzIllegalTag 0x81) ∧ decodeTableWord 2 0b11 = some .lzDecompress ∧
      decodeTableWord 0 0 = some .start := by decide

/-! ### Small states -/

/-- After reset the HOST has loaded `bs`, bound it and written `CMD`. -/
def loaded (cmd : BitVec 2) (bs : List Byte) : State :=
  { State.reset with cmd := cmd, inValid := true, inLen := bs.length, inMem := writeBytes [] 0 bs }

/-- The same with START as the HOST's next move. -/
def ready (cmd : BitVec 2) (bs : List Byte) : State := { loaded cmd bs with agenda := [.host .start] }

/-- In the middle of an operation: `pos` bytes are consumed and `out` has been produced. -/
def working (cmd : BitVec 2) (phase : Phase) (bs : List Byte) (pos : Nat) (out : List Byte) : State :=
  { loaded cmd bs with
    status := .busy, phase := phase, pos := pos, outLen := out.length, outMem := writeBytes [] 0 out }

/-- The same state with finite capacities. -/
def bounded (inCap outCap : Nat) (s : State) : State := { s with params := ⟨some inCap, some outCap, none⟩ }

/-- What a test looks at after a step: `STATUS`, `POS`, the bytes produced, and the failure record. -/
structure Seen where
  status : Status
  pos : Nat
  out : List Byte
  cause : ErrCause
  errPos : Nat
  info0 : Nat
  info1 : Nat
deriving DecidableEq, Repr

def seen (r : Result) : Option Seen :=
  match r with
  | .next t => some ⟨t.status, t.pos, outputBytes t, t.errCause, t.errPos, t.errInfo0, t.errInfo1⟩
  | .fault _ => none
  | .refused _ => none

/-- What the HOST reads back after a step. -/
def readBack (r : Result) : Option Returned :=
  match r with
  | .next t => returned t
  | .fault _ => none
  | .refused _ => none

/-- The state a step answers, or the state before where it answers none. -/
def nextOr (s : State) (r : Result) : State :=
  match r with
  | .next t => t
  | .fault _ => s
  | .refused _ => s

/-- Whether a step answers a next state. -/
def goesOn (r : Result) : Bool :=
  match r with
  | .next _ => true
  | .fault _ => false
  | .refused _ => false

/-- The same state with an `OUT` that is one byte short of room for `n`. -/
def oneShort (n : Nat) (s : State) : State := bounded 9 (s.outLen + (n - 1)) s

theorem eq_next_of_goesOn {r : Result} (s : State) (h : goesOn r = true) : r = .next (nextOr s r) := by
  cases r with
  | next t => rfl
  | fault e => cases h
  | refused e => cases h

theorem ready_toStart (cmd : BitVec 2) (bs : List Byte) : ReadyToStart cmd (ready cmd bs) :=
  ⟨nofun, rfl, rfl, rfl⟩

theorem inByte_loaded (cmd : BitVec 2) (bs : List Byte) (i : Nat) (h : i < bs.length) :
    inByte (loaded cmd bs) i = bs[i] := by
  unfold inByte loaded
  rw [read_writeBytes, dif_pos (by omega)]
  rfl

theorem inputBytes_ready (cmd : BitVec 2) (bs : List Byte) : inputBytes (ready cmd bs) = bs := by
  refine List.ext_getElem (by simp [inputBytes, ready, loaded]) fun i h1 h2 => ?_
  simp only [inputBytes, List.getElem_map, List.getElem_range]
  exact inByte_loaded cmd bs i h2

/-! ### One step each -/

/-- Example of R112: `PAIR 3, 'A'`. -/
theorem test_rlePair :
    seen (execRlePair 3 0x41 (working 0b01 .body [3, 0x41, 1, 0x42] 0 [])) =
      some ⟨.busy, 2, [0x41, 0x41, 0x41], .none, 0, 0, 0⟩ := by decide

/-- The second pair of `02 41 00 42`: `RLE_ZERO_COUNT` at 2, and the output is empty (R113, R167). -/
theorem test_rleIllegalZeroCount :
    seen (step (working 0b01 .body [2, 0x41, 0, 0x42] 2 [0x41, 0x41])) =
      some ⟨.error, 2, [], .rleZeroCount, 2, 0, 0⟩ := by decide

/-- X6: `01 02 03`. -/
theorem test_rleIllegalOddLength :
    seen (step (working 0b01 .lengthTest [1, 2, 3] 0 [])) = some ⟨.error, 0, [], .rleOddLength, 2, 3, 0⟩ := by decide

/-- R143: a payload byte is never read as a tag. -/
theorem test_lzLit :
    seen (step (working 0b11 .body [0, 1, 0, 0x42] 0 [])) = some ⟨.busy, 2, [1], .none, 0, 0, 0⟩ := by decide

/-- R144: `IN = 00 41 01 01 03 00`. -/
theorem test_lzLit_missing :
    seen (step (working 0b11 .body [0, 0x41, 1, 1, 3, 0] 5 [0x41, 0x41, 0x41, 0x41])) =
      some ⟨.error, 5, [], .lzMissingLiteral, 5, 0, 0⟩ := by decide

/-- Example of R145: `MATCH 2, 10` after `41 42` copies its own bytes. -/
theorem test_lzMatch :
    seen (step (working 0b11 .body [0, 0x41, 0, 0x42, 1, 2, 10] 4 [0x41, 0x42])) =
      some ⟨.busy, 7, [0x41, 0x42, 0x41, 0x42, 0x41, 0x42, 0x41, 0x42, 0x41, 0x42, 0x41, 0x42], .none, 0, 0, 0⟩ := by
  decide

/-- X9, X10 and R151's example: the three failures of a match. -/
theorem test_lzMatch_failures :
    seen (step (working 0b11 .body [1, 1] 0 [])) = some ⟨.error, 0, [], .lzIncompleteMatch, 0, 1, 0⟩ ∧
      seen (step (working 0b11 .body [1, 5, 1] 0 [])) = some ⟨.error, 0, [], .lzOffsetRange, 0, 5, 0⟩ ∧
      seen (step (working 0b11 .body [0, 0x41, 1, 0, 1] 2 [0x41])) = some ⟨.error, 2, [], .lzZeroOffset, 2, 0, 1⟩ := by
  decide

/-- X8: `02`. -/
theorem test_lzIllegalTag :
    seen (step (working 0b11 .body [2] 0 [])) = some ⟨.error, 0, [], .lzBadTag, 0, 2, 0⟩ := by decide

/-- V-RLEC-05, the second run of `41 41 42 42 42 43`. -/
theorem test_rleCompress :
    seen (step (working 0b00 .body [0x41, 0x41, 0x42, 0x42, 0x42, 0x43] 2 [2, 0x41])) =
      some ⟨.busy, 5, [2, 0x41, 3, 0x42], .none, 0, 0, 0⟩ := by decide

/-- X11: without a bound buffer nothing is examined. -/
theorem test_rleDecompress_no_buffer :
    seen (step { working 0b01 .prologue [7] 0 [] with inValid := false }) =
      some ⟨.error, 0, [], .notABuffer, 0, 0, 0⟩ := by decide

/-- R82: even length 0 passes the test. -/
theorem test_rleDecompress_empty :
    seen (step (working 0b01 .lengthTest [] 0 [])) = some ⟨.busy, 0, [], .none, 0, 0, 0⟩ := by decide

/-- V-LZC-07: the match of `ABABABABABAB` at position 2. -/
theorem test_lzCompress_match :
    seen (step (working 0b10 .body
        [0x41, 0x42, 0x41, 0x42, 0x41, 0x42, 0x41, 0x42, 0x41, 0x42, 0x41, 0x42] 2 [0, 0x41, 0, 0x42])) =
      some ⟨.busy, 12, [0, 0x41, 0, 0x42, 1, 2, 10], .none, 0, 0, 0⟩ := by decide

/-- C1: among equally long matches the first candidate wins, so the largest distance: `ABCxyABCzzABC` at 10. -/
theorem test_lzCompress_tie :
    seen (step (working 0b10 .body
        [0x41, 0x42, 0x43, 0x78, 0x79, 0x41, 0x42, 0x43, 0x7A, 0x7A, 0x41, 0x42, 0x43] 10 [])) =
      some ⟨.busy, 13, [1, 10, 3], .none, 0, 0, 0⟩ := by decide

/-- R84: completion. -/
theorem test_lzDecompress_completes :
    readBack (step (working 0b11 .body [0, 0x41] 2 [0x41])) = some (.bytes [0x41]) := by decide

/-- R80: START clears the record of an earlier failure. -/
theorem test_start :
    seen (execStart { loaded 0b11 [2] with status := .error, errCause := .lzBadTag, errKind := .invalidFormat, errInfo0 := 2 }) =
      some ⟨.busy, 0, [], .none, 0, 0, 0⟩ := by decide

/-- R198: no START while `BUSY`. -/
theorem test_start_while_busy : goesOn (execStart (working 0b11 .body [2] 0 [])) = false := by decide

/-- R197: while `BUSY` the HOST reads `STATUS` only. -/
theorem test_host_while_busy :
    goesOn (hostAct (.readReg .status) (working 0b11 .body [2] 0 [])) = true ∧
      goesOn (hostAct (.writeIn 0 7) (working 0b11 .body [2] 0 [])) = false := by decide

/-- R29, R21: `OUT` is read when `DONE` only, `OUT_LEN` not in `IDLE`. -/
theorem test_host_reads_results :
    hostReadOut 0 { working 0b11 .body [0, 0x41] 2 [0x41] with status := .done } = .next 0x41 ∧
      goesOn (hostAct (.readOut 0) (loaded 0b11 [2])) = false ∧
      goesOn (hostAct (.readOut 0) { loaded 0b11 [2] with status := .error }) = false ∧
      goesOn (hostAct (.readReg .outLen) (loaded 0b11 [2])) = false ∧
      goesOn (hostAct (.readReg .outLen) { loaded 0b11 [2] with status := .error }) = true :=
  ⟨rfl, by decide⟩

/-- A word placed by `withFetchWord` is what the next step runs (X8's tag, and R112's pair). -/
theorem test_withFetchWord :
    seen (step (State.reset.withFetchWord 8 0x82)) = some ⟨.error, 0, [], .lzBadTag, 0, 0x82, 0⟩ ∧
      seen (step (State.reset.withFetchWord 16 0x4103)) = some ⟨.busy, 2, [0x41, 0x41, 0x41], .none, 0, 0, 0⟩ := by
  decide

/-! ### Witnesses: for each statement with hypotheses, concrete states that meet them, one per clause -/

/-- The invariant of a concrete state, field by field. -/
theorem inv_pairs : Inv (working 0b01 .body [3, 0x41, 1, 0x42] 0 []) := by constructor <;> decide

theorem inv_odd : Inv (working 0b01 .lengthTest [1, 2, 3] 0 []) := by constructor <;> decide

theorem inv_tokens : Inv (working 0b11 .body [0, 0x41, 1, 1, 5] 2 [0x41]) := by constructor <;> decide

theorem inv_badTag : Inv (working 0b11 .body [0, 0x41, 2] 2 [0x41]) := by constructor <;> decide

theorem inv_atEnd : Inv (working 0b11 .body [0, 0x41] 2 [0x41]) := by constructor <;> decide

theorem inv_noBuffer : Inv { working 0b00 .prologue [7] 0 [] with inValid := false } := by constructor <;> decide

theorem witness_DecodingInvertsEncoding :
    (Instr.rlePair 1 0).wf = true ∧ (Instr.rleIllegalOddLength 9).wf = true ∧ (Instr.lzLit none).wf = true ∧
      (Instr.lzMatch (some 0xFF) none).wf = true ∧ (Instr.lzIllegalTag 2).wf = true ∧ Instr.start.wf = true := by decide

theorem witness_EncodingInvertsDecoding :
    decode .lzStream [1, 2, 3, 4] = .ok (.lzMatch (some 2) (some 3), [4]) ∧
      decode .rleStream [0, 2] = .ok (.rleIllegalZeroCount 2, []) ∧ decode .command [3] = .ok (.lzDecompress, []) :=
  ⟨rfl, rfl, rfl⟩

theorem witness_TheTagAloneGivesTheTokenLength :
    (0x02 : Byte) ≠ 0x00 ∧ (0x02 : Byte) ≠ 0x01 ∧ (0xFF : Byte) ≠ 0x00 ∧ (0xFF : Byte) ≠ 0x01 := by decide

/-- One state for each clause of the first part; the other parts need only their agenda. -/
theorem witness_StepRunsTheDecodedInstruction :
    ((working 0b00 .prologue [7] 0 []).status = .busy ∧ (working 0b00 .prologue [7] 0 []).agenda = []) ∧
      (working 0b01 .lengthTest [1, 2, 3] 0 []).cmd = 0b01 ∧
      decode .rleStream (tokenWindow (working 0b01 .body [3, 0x41, 1, 0x42] 2 [])) = .ok (.rlePair 1 0x42, []) ∧
      decode .lzStream (tokenWindow (working 0b11 .body [0, 0x41, 1] 2 [0x41])) = .ok (.lzMatch none none, []) ∧
      (working 0b11 .body [0, 0x41] 2 [0x41]).inLen ≤ (working 0b11 .body [0, 0x41] 2 [0x41]).pos ∧
      (working 0b10 .body [0, 0x41] 0 []).cmd = 0b10 ∧
      { working 0b00 .prologue [7] 0 [] with agenda := [.engine] }.agenda = .engine :: [] ∧
      (ready 0b00 [7]).agenda = .host .start :: [] :=
  ⟨⟨rfl, rfl⟩, rfl, rfl, rfl, Nat.le_refl 2, rfl, rfl, rfl⟩

/-- Both ends of the window: its last byte, and a stream that ends inside it. -/
theorem witness_TheTokenWindowStaysInsideTheInput :
    (tokenWindow (working 0b11 .body [1, 2, 3, 4] 0 []))[2]? = some 3 ∧
      (tokenWindow (working 0b11 .body [1, 2, 3, 4] 3 []))[0]? = some 4 := ⟨rfl, rfl⟩

theorem witness_TheEngineIsIdleUnlessBusy : State.reset.status ≠ .busy ∧ State.reset.agenda = [] := by decide

theorem witness_StartBeginsAnOperation :
    State.reset.status ≠ .busy ∧ (working 0b11 .body [2] 0 []).status = .busy := by decide

theorem witness_ThePrologueChecksForABuffer :
    exec .start State.reset = .next (started State.reset) ∧ (working 0b01 .prologue [7] 0 []).phase = .prologue ∧
      (working 0b01 .prologue [7] 0 []).inValid = true ∧
      { working 0b01 .prologue [7] 0 [] with inValid := false }.inValid = false := ⟨rfl, rfl, rfl, rfl⟩

theorem witness_EmptyInputGivesEmptyOutput :
    ReadyToStart 0b01 (ready 0b01 []) ∧ (ready 0b01 []).inLen = 0 ∧ ReadyToStart 0b11 (ready 0b11 []) ∧
      (ready 0b11 []).inLen = 0 := ⟨ready_toStart _ _, rfl, ready_toStart _ _, rfl⟩

theorem witness_CompletionOnlyWritesStatus :
    (working 0b11 .body [0, 0x41] 2 [0x41]).phase = .body ∧
      (working 0b11 .body [0, 0x41] 2 [0x41]).inLen ≤ (working 0b11 .body [0, 0x41] 2 [0x41]).pos := by decide

/-- The last step of an operation, and one before it. -/
theorem witness_OperationsCompleteExactlyAtTheEndOfInput :
    (Inv (working 0b11 .body [0, 0x41] 2 [0x41]) ∧ (working 0b11 .body [0, 0x41] 2 [0x41]).status = .busy ∧
        (working 0b11 .body [0, 0x41] 2 [0x41]).agenda = [] ∧
        (nextOr State.reset (step (working 0b11 .body [0, 0x41] 2 [0x41]))).status = .done) ∧
      Inv (working 0b11 .body [0, 0x41, 1, 1, 5] 2 [0x41]) ∧
      goesOn (step (working 0b11 .body [0, 0x41, 1, 1, 5] 2 [0x41])) = true :=
  ⟨⟨inv_atEnd, by decide⟩, inv_tokens, by decide⟩

theorem witness_TheRunEncoderEmitsTheLongestRun :
    (working 0b00 .body [0x41, 0x41] 1 []).phase = .body ∧
      (working 0b00 .body [0x41, 0x41] 1 []).pos < (working 0b00 .body [0x41, 0x41] 1 []).inLen ∧
      roomFor 2 (working 0b00 .body [0x41, 0x41] 1 []) = true := by decide

/-- Both sides of the cut. -/
theorem witness_RunsAreCutAt255 :
    (ReadyToStart 0b00 (ready 0b00 (List.replicate 255 0x41)) ∧
        inputBytes (ready 0b00 (List.replicate 255 0x41)) = List.replicate 255 0x41) ∧
      ReadyToStart 0b00 (ready 0b00 (List.replicate 256 0x41)) ∧
      inputBytes (ready 0b00 (List.replicate 256 0x41)) = List.replicate 256 0x41 ∧
      State.reset.params.outCap = none :=
  ⟨⟨ready_toStart _ _, inputBytes_ready _ _⟩, ready_toStart _ _, inputBytes_ready _ _, rfl⟩

/-- `41 41 42` encoded: two pairs of different values. -/
theorem witness_RunEncoderOutputIsCanonical :
    ReadyToStart 0b00 (ready 0b00 [0x41, 0x41, 0x42]) ∧
      RunsTo (ready 0b00 [0x41, 0x41, 0x42])
        (nextOr State.reset (runSteps 5 (ready 0b00 [0x41, 0x41, 0x42]))) ∧
      (nextOr State.reset (runSteps 5 (ready 0b00 [0x41, 0x41, 0x42]))).status = .done :=
  ⟨ready_toStart _ _, ⟨4, eq_next_of_goesOn _ (by decide)⟩, by decide⟩

/-- Counts 1, 255 and 0; and a pair met by the ENGINE. -/
theorem witness_PairsRepeatTheirValue :
    ((1 : Byte) ≠ 0 ∧ roomFor 1 (working 0b01 .body [1, 0x41] 0 []) = true) ∧
      ((0xFF : Byte) ≠ 0 ∧ roomFor 255 (working 0b01 .body [0xFF, 0x41] 0 []) = true) ∧
      Inv (working 0b01 .body [3, 0x41, 1, 0x42] 0 []) ∧
      (working 0b01 .body [3, 0x41, 1, 0x42] 0 []).pos < (working 0b01 .body [3, 0x41, 1, 0x42] 0 []).inLen :=
  ⟨by decide, by decide, inv_pairs, by decide⟩

theorem witness_OddLengthIsTestedBeforeAnyPair :
    (ReadyToStart 0b01 (ready 0b01 [7]) ∧ (ready 0b01 [7]).inLen % 2 = 1) ∧
      (ReadyToStart 0b01 (ready 0b01 []) ∧ (ready 0b01 []).inLen % 2 = 0) :=
  ⟨⟨ready_toStart _ _, rfl⟩, ready_toStart _ _, rfl⟩

/-- One state for each tag class, and one pair. -/
theorem witness_TheDecodeCommandsRunTheTokenAtPos :
    ((working 0b01 .body [1, 0x41] 0 []).phase = .body ∧ inByte (working 0b01 .body [1, 0x41] 0 []) 0 ≠ 0 ∧
        roomFor 1 (working 0b01 .body [1, 0x41] 0 []) = true) ∧
      inByte (working 0b11 .body [0, 0x41] 0 []) 0 = 0x00 ∧ inByte (working 0b11 .body [1] 0 []) 0 = 0x01 ∧
      inByte (working 0b11 .body [2] 0 []) 0 ≠ 0x00 ∧ inByte (working 0b11 .body [2] 0 []) 0 ≠ 0x01 := by decide

/-- Candidates whose first bytes agree and differ. -/
theorem witness_MatchLenIsTheLongestAgreement :
    (0 < 2 ∧ 2 < (working 0b10 .body [0x41, 0x42, 0x41] 2 []).inLen) ∧
      inByte (working 0b10 .body [0x41, 0x42, 0x41] 2 []) 1 ≠ inByte (working 0b10 .body [0x41, 0x42, 0x41] 2 []) 2 := by
  decide

/-- A position with a match, and position 0 with none. -/
theorem witness_TheWindowHoldsTwentyCandidates :
    (2 < (working 0b10 .body [0x41, 0x42, 0x41] 2 []).inLen ∧
        1 ≤ (findBest 2 (working 0b10 .body [0x41, 0x42, 0x41] 2 [])).bestLen.toNat) ∧
      0 < (working 0b10 .body [0x41, 0x42, 0x41] 0 []).inLen := by decide

/-- Two candidates of the same greatest length. -/
theorem witness_FindBestTakesTheFirstLongest :
    2 < (working 0b10 .body [0x41, 0x41, 0x41] 2 []).inLen ∧
      1 ≤ (findBest 2 (working 0b10 .body [0x41, 0x41, 0x41] 2 [])).bestLen.toNat ∧
      matchLen (working 0b10 .body [0x41, 0x41, 0x41] 2 []) 2 1 =
        (findBest 2 (working 0b10 .body [0x41, 0x41, 0x41] 2 [])).bestLen.toNat := by decide

/-- Two states with the same input and a different output. -/
theorem witness_TheMatchFinderReadsTheInputOnly :
    2 < (working 0b10 .body [0x41, 0x42, 0x41] 2 []).inLen ∧
      (working 0b10 .body [0x41, 0x42, 0x41] 2 [9]).inLen = (working 0b10 .body [0x41, 0x42, 0x41] 2 []).inLen ∧
      (∀ i, i < (working 0b10 .body [0x41, 0x42, 0x41] 2 []).inLen →
        inByte (working 0b10 .body [0x41, 0x42, 0x41] 2 [9]) i = inByte (working 0b10 .body [0x41, 0x42, 0x41] 2 []) i) ∧
      1 ≤ (findBest 2 (working 0b10 .body [0x41, 0x42, 0x41] 2 [])).bestLen.toNat := by decide

/-- `AAAA` at position 1: a best length of exactly 3. -/
theorem witness_LongMatchesAreEmitted :
    (working 0b10 .body [0x41, 0x41, 0x41, 0x41] 1 []).phase = .body ∧
      (findBest 1 (working 0b10 .body [0x41, 0x41, 0x41, 0x41] 1 [])).bestLen.toNat = 3 ∧
      roomFor 3 (working 0b10 .body [0x41, 0x41, 0x41, 0x41] 1 []) = true := by decide

/-- `AAA` at position 1: a best length of exactly 2. -/
theorem witness_ShortMatchesGiveWayToLiterals :
    (working 0b10 .body [0x41, 0x41, 0x41] 1 []).phase = .body ∧
      (findBest 1 (working 0b10 .body [0x41, 0x41, 0x41] 1 [])).bestLen.toNat = 2 ∧
      roomFor 2 (working 0b10 .body [0x41, 0x41, 0x41] 1 []) = true := by decide

theorem witness_TheFirstTokenIsALiteral :
    ReadyToStart 0b10 (ready 0b10 [0x41]) ∧ 0 < (ready 0b10 [0x41]).inLen ∧
      RunsTo (ready 0b10 [0x41]) (nextOr State.reset (runSteps 4 (ready 0b10 [0x41]))) ∧
      (nextOr State.reset (runSteps 4 (ready 0b10 [0x41]))).status = .done :=
  ⟨ready_toStart _ _, by decide, ⟨3, eq_next_of_goesOn _ (by decide)⟩, by decide⟩

theorem witness_LiteralsAppendTheirByte :
    (working 0b11 .body [0, 0x41] 0 []).pos + 1 < (working 0b11 .body [0, 0x41] 0 []).inLen ∧
      roomFor 1 (working 0b11 .body [0, 0x41] 0 []) = true := by decide

theorem witness_AMissingLiteralFails :
    (working 0b11 .body [0] 0 []).inLen ≤ (working 0b11 .body [0] 0 []).pos + 1 := by decide

/-- No byte and one byte after the tag. -/
theorem witness_AnIncompleteMatchFails :
    ((working 0b11 .body [1] 0 []).pos < (working 0b11 .body [1] 0 []).inLen ∧
        (working 0b11 .body [1] 0 []).inLen ≤ (working 0b11 .body [1] 0 []).pos + 2) ∧
      (working 0b11 .body [1, 1] 0 []).pos < (working 0b11 .body [1, 1] 0 []).inLen ∧
      (working 0b11 .body [1, 1] 0 []).inLen ≤ (working 0b11 .body [1, 1] 0 []).pos + 2 := by decide

/-- The smallest offset out of range, with length 0. -/
theorem witness_AnOffsetBeyondTheOutputFails :
    (working 0b11 .body [1, 1, 0] 0 []).pos + 2 < (working 0b11 .body [1, 1, 0] 0 []).inLen ∧
      (working 0b11 .body [1, 1, 0] 0 []).outLen < (1 : Byte).toNat := by decide

theorem witness_AZeroOffsetFailsUnlessNothingIsCopied :
    (working 0b11 .body [1, 0, 1] 0 []).pos + 2 < (working 0b11 .body [1, 0, 1] 0 []).inLen ∧
      1 ≤ (1 : Byte).toNat := by decide

/-- The largest legal offset, with a length beyond it. -/
theorem witness_MatchesCopyByteByByte :
    (working 0b11 .body [0, 0x41, 1, 1, 5] 2 [0x41]).pos + 2 < (working 0b11 .body [0, 0x41, 1, 1, 5] 2 [0x41]).inLen ∧
      (1 : Byte) ≠ 0 ∧ (1 : Byte).toNat ≤ (working 0b11 .body [0, 0x41, 1, 1, 5] 2 [0x41]).outLen ∧
      roomFor 5 (working 0b11 .body [0, 0x41, 1, 1, 5] 2 [0x41]) = true := by decide

theorem witness_AnIllegalTagFails :
    (working 0b11 .body [2] 0 []).status = .busy ∧ (working 0b11 .body [2] 0 []).agenda = [] ∧
      (working 0b11 .body [2] 0 []).pos < (working 0b11 .body [2] 0 []).inLen ∧
      2 ≤ (inByte (working 0b11 .body [2] 0 []) 0).toNat := by decide

theorem witness_FailureEntryWritesTheRecordOnly : (working 0b11 .body [2] 0 []).agenda = [] := rfl

theorem witness_FailuresArePreciseAndLeaveNoResult :
    (working 0b11 .body [0, 0x41, 2] 2 [0x41]).status = .busy ∧
      (nextOr State.reset (step (working 0b11 .body [0, 0x41, 2] 2 [0x41]))).status = .error := by decide

/-- A step that fails, and one that does not. -/
theorem witness_TheFirstFailedCheckIsReported :
    (Inv (working 0b11 .body [0, 0x41, 2] 2 [0x41]) ∧ goesOn (step (working 0b11 .body [0, 0x41, 2] 2 [0x41])) = true) ∧
      Inv (working 0b11 .body [0, 0x41, 1, 1, 5] 2 [0x41]) ∧
      goesOn (step (working 0b11 .body [0, 0x41, 1, 1, 5] 2 [0x41])) = true :=
  ⟨⟨inv_badTag, by decide⟩, inv_tokens, by decide⟩

/-- Both kinds of failure, the first in a compress operation. -/
theorem witness_OnlyDecodersReportInvalidFormat :
    (Inv { working 0b00 .prologue [7] 0 [] with inValid := false } ∧
        (nextOr State.reset (step { working 0b00 .prologue [7] 0 [] with inValid := false })).errKind = .invalidInput) ∧
      Inv (working 0b01 .lengthTest [1, 2, 3] 0 []) ∧
      (nextOr State.reset (step (working 0b01 .lengthTest [1, 2, 3] 0 []))).errKind = .invalidFormat :=
  ⟨⟨inv_noBuffer, by decide⟩, inv_odd, by decide⟩

/-- An ended operation with `m` as its next move. -/
def ended (status : Status) (m : Move) : State := { loaded 0b11 [2] with status := status, agenda := [m] }

/-- The three ways on. -/
theorem witness_OnlyStartOrResetLeavesAFailure :
    (ended .error .engine).status = .error ∧ goesOn (step (ended .error .engine)) = true ∧
      goesOn (step (ended .error (.host .start))) = true ∧ goesOn (step (ended .error (.host .reset))) = true := by
  decide

theorem witness_ResultsPersistUntilStartOrReset :
    (ended .done (.host (.readOut 0))).status = .done ∧ goesOn (step (ended .done (.host (.readOut 0)))) = true ∧
      (ended .error (.host (.writeCmd 0))).status = .error ∧ goesOn (step (ended .error (.host (.writeCmd 0)))) = true ∧
      (∀ rest, (ended .done (.host (.readOut 0))).agenda ≠ .host .start :: rest) :=
  ⟨rfl, rfl, rfl, rfl, nofun⟩

theorem witness_WhileBusyTheHostMayOnlyReadStatus :
    (working 0b11 .body [2] 0 []).status = .busy ∧ (HostAction.readReg .status) ≠ .reset ∧
      HostAction.writeIn 0 7 ≠ .reset ∧ HostAction.writeIn 0 7 ≠ .readReg .status := by decide

/-- The largest length, the last cell of a finite `IN`, and the first index beyond it. -/
theorem witness_HostWritesChangeOneThing :
    (bounded 4 2 State.reset).status ≠ .busy ∧ Config.withinCap (bounded 4 2 State.reset).params.inCap 4 = true ∧
      Config.cellExists (bounded 4 2 State.reset).params.inCap 3 = true ∧
      Config.cellExists (bounded 4 2 State.reset).params.inCap 4 = false := by decide

/-- `IDLE`, `DONE` and `ERROR`; a register read; the last cell of each window and the first index beyond. -/
theorem witness_HostReadsEveryRegister :
    (State.reset.status ≠ .busy ∧ State.reset.status = .idle ∧ State.reset.status ≠ .done) ∧
      ((bounded 4 2 (ended .done .engine)).status ≠ .busy ∧ (bounded 4 2 (ended .done .engine)).status = .done) ∧
      ((ended .error .engine).status = .error ∧ (ended .error .engine).status ≠ .done) ∧
      Config.cellExists (bounded 4 2 (ended .done .engine)).params.inCap 3 = true ∧
      Config.cellExists (bounded 4 2 (ended .done .engine)).params.inCap 4 = false ∧
      Config.cellExists (bounded 4 2 (ended .done .engine)).params.outCap 1 = true ∧
      Config.cellExists (bounded 4 2 (ended .done .engine)).params.outCap 2 = false ∧
      hostReadReg .cmd State.reset = .next 0 ∧
      hostReadIn 3 (bounded 4 2 (ended .done .engine)) = .next (inByte (bounded 4 2 (ended .done .engine)) 3) ∧
      hostReadOut 1 (bounded 4 2 (ended .done .engine)) = .next (outByte (bounded 4 2 (ended .done .engine)) 1) :=
  ⟨by decide, by decide, by decide, rfl, rfl, rfl, rfl, rfl, rfl, rfl⟩

theorem witness_ResetGivesTheResetState : (working 0b11 .body [2] 0 []).agenda = [] := rfl

theorem witness_TheEngineOnlyAppends :
    (working 0b01 .body [3, 0x41, 1, 0x42] 0 []).status = .busy ∧
      (nextOr State.reset (step (working 0b01 .body [3, 0x41, 1, 0x42] 0 []))).status = .busy ∧
      (working 0b11 .body [2] 0 [7]).status = .busy ∧
      (nextOr State.reset (step (working 0b11 .body [2] 0 [7]))).status = .error := by decide

theorem witness_TheEngineNeverWritesTheInput :
    (working 0b11 .body [0, 0x41] 0 []).agenda = [] ∧
      Reaches (working 0b11 .body [0, 0x41] 0 []) (nextOr State.reset (runSteps 2 (working 0b11 .body [0, 0x41] 0 []))) :=
  ⟨rfl, 2, eq_next_of_goesOn _ (by decide)⟩

/-- A full `OUT` of one byte, a finite `IN`, and the default capacities. -/
theorem witness_OverCapacityIsRefused :
    (bounded 4 1 (working 0b11 .body [0, 0x41, 0, 0x42] 2 [0x41])).params.outCap =
        some (bounded 4 1 (working 0b11 .body [0, 0x41, 0, 0x42] 2 [0x41])).outLen ∧
      ((bounded 4 1 State.reset).params.inCap = some 4 ∧ 4 < 5) ∧
      State.reset.params.outCap = none ∧ State.reset.params.inCap = none ∧ State.reset.status ≠ .busy := by decide

/-- The clauses on a pair and on a literal, alone and under their commands, one byte short of room. -/
theorem witness_OverCapacityIsRefused_decoders :
    let pair := oneShort 3 (working 0b01 .body [3, 0x41] 0 [])
    let literal := oneShort 1 (working 0b11 .body [0, 0x41] 0 [])
    (pair.phase = .body ∧ pair.pos + 1 < pair.inLen ∧ inByte pair pair.pos ≠ 0 ∧
        roomFor (inByte pair pair.pos).toNat pair = false ∧ roomFor 2 pair = true) ∧
      literal.phase = .body ∧ literal.pos + 1 < literal.inLen ∧ inByte literal literal.pos = 0x00 ∧
      roomFor 1 literal = false := by decide

/-- The clauses on a match, alone and under its command: the last byte of five has no room. -/
theorem witness_OverCapacityIsRefused_match :
    let s := oneShort 5 (working 0b11 .body [0, 0x41, 1, 1, 5] 2 [0x41])
    s.phase = .body ∧ s.pos + 2 < s.inLen ∧ inByte s s.pos = 0x01 ∧ inByte s (s.pos + 1) ≠ 0 ∧
      (inByte s (s.pos + 1)).toNat ≤ s.outLen ∧ inByte s (s.pos + 2) ≠ 0 ∧ 1 ≤ (inByte s (s.pos + 2)).toNat ∧
      roomFor (inByte s (s.pos + 2)).toNat s = false ∧ roomFor 4 s = true := by decide

/-- The clauses on the encoders: a run, a match and a literal one byte short of room. -/
theorem witness_OverCapacityIsRefused_encoders :
    let run := oneShort 2 (working 0b00 .body [0x41] 0 [])
    let long := oneShort 3 (working 0b10 .body [0x41, 0x41, 0x41, 0x41] 1 [0, 0x41])
    let short := oneShort 2 (working 0b10 .body [0x41] 0 [])
    (run.phase = .body ∧ run.pos < run.inLen ∧ roomFor 2 run = false) ∧
      (long.phase = .body ∧ long.pos < long.inLen ∧ 3 ≤ (findBest long.pos long).bestLen.toNat ∧
        roomFor 3 long = false ∧ roomFor 2 long = true) ∧
      short.phase = .body ∧ short.pos < short.inLen ∧ ¬3 ≤ (findBest short.pos short).bestLen.toNat ∧
      roomFor 2 short = false := by decide

/-- R54: an encoder whose token does not all fit is refused, and one byte more of room lets it run. -/
theorem test_no_room_is_refused :
    goesOn (step (oneShort 2 (working 0b00 .body [0x41] 0 []))) = false ∧
      goesOn (step (oneShort 3 (working 0b00 .body [0x41] 0 []))) = true := by decide

theorem witness_EveryInstructionCompletesWithoutACapacity :
    State.reset.params.outCap = none ∧ State.reset.status ≠ .busy := by decide

theorem witness_StepKeepsTheInvariant :
    Inv (working 0b11 .body [0, 0x41, 1, 1, 5] 2 [0x41]) ∧
      goesOn (step (working 0b11 .body [0, 0x41, 1, 1, 5] 2 [0x41])) = true := ⟨inv_tokens, by decide⟩

/-- The narrowest `LEN_W`, with the largest capacities it allows. -/
theorem witness_LengthRegistersNeverOverflow :
    Inv { working 0b11 .body [2] 0 [] with params := ⟨some 255, some 255, some 8⟩ } ∧
      FitsLenW { working 0b11 .body [2] 0 [] with params := ⟨some 255, some 255, some 8⟩ } ∧
      goesOn (step { working 0b11 .body [2] 0 [] with params := ⟨some 255, some 255, some 8⟩ }) = true :=
  ⟨by constructor <;> decide, by constructor <;> decide, by decide⟩

theorem witness_StepsRefineTheWholeOperation :
    ReadyToStart 0b00 (ready 0b00 [0x41]) ∧ ReadyToStart 0b01 (ready 0b01 [7]) ∧ ReadyToStart 0b10 (ready 0b10 [0x41]) ∧
      ReadyToStart 0b11 (ready 0b11 [0, 0x41]) ∧ (ready 0b11 [0, 0x41]).params.outCap = none :=
  ⟨ready_toStart _ _, ready_toStart _ _, ready_toStart _ _, ready_toStart _ _, rfl⟩

/-- `IDLE` before START, and a failure left by an operation before it. -/
theorem witness_EveryOperationTerminates :
    (ReadyToStart 0b11 (ready 0b11 [2]) ∧ (ready 0b11 [2]).params.outCap = none) ∧
      (ReadyToStart 0b11 (ended .error (.host .start)) ∧ (ended .error (.host .start)).params.outCap = none) ∧
      Inv (working 0b01 .body [3, 0x41, 1, 0x42] 0 []) ∧
      goesOn (step (working 0b01 .body [3, 0x41, 1, 0x42] 0 [])) = true :=
  ⟨⟨ready_toStart _ _, rfl⟩, ⟨⟨nofun, rfl, rfl, rfl⟩, rfl⟩, inv_pairs, by decide⟩

/-- A run of each command that ends in `DONE`, and one that fails. -/
theorem witness_ResultLengthsAreBounded :
    (∀ cmd : BitVec 2, ReadyToStart cmd (ready cmd []) ∧
        RunsTo (ready cmd []) (nextOr State.reset (runSteps 4 (ready cmd []))) ∧
        (nextOr State.reset (runSteps 4 (ready cmd []))).status = .done) ∧
      RunsTo (ready 0b11 [2]) (nextOr State.reset (runSteps 3 (ready 0b11 [2]))) ∧
      (nextOr State.reset (runSteps 3 (ready 0b11 [2]))).status = .error :=
  ⟨fun cmd => ⟨ready_toStart _ _, ⟨3, eq_next_of_goesOn _ (by revert cmd; decide)⟩, by revert cmd; decide⟩,
    ⟨2, eq_next_of_goesOn _ (by decide)⟩, by decide⟩

/-- Two instances with different histories and the same input. -/
theorem witness_OutcomesDependOnTheInputOnly :
    (ready 0b11 [2]).status ≠ .busy ∧
      ({ ready 0b11 [2] with status := .error, pos := 9, epoch := 5 }).agenda = (ready 0b11 [2]).agenda ∧
      (∀ i, i < (ready 0b11 [2]).inLen →
        inByte { ready 0b11 [2] with status := .error, pos := 9, epoch := 5 } i = inByte (ready 0b11 [2]) i) ∧
      goesOn (runSteps 3 (ready 0b11 [2])) = true := by decide

/-- `41 41` encoded is `02 41`. -/
theorem witness_RunLengthCodingRoundTrips :
    ReadyToStart 0b00 (ready 0b00 [0x41, 0x41]) ∧ ReadyToStart 0b01 (ready 0b01 [2, 0x41]) ∧
      inputBytes (ready 0b01 [2, 0x41]) = outputBytes (nextOr State.reset (runSteps 4 (ready 0b00 [0x41, 0x41]))) :=
  ⟨ready_toStart _ _, ready_toStart _ _, by decide⟩

/-- `41` encoded is `00 41`. -/
theorem witness_MatchCodingRoundTrips :
    ReadyToStart 0b10 (ready 0b10 [0x41]) ∧ ReadyToStart 0b11 (ready 0b11 [0, 0x41]) ∧
      inputBytes (ready 0b11 [0, 0x41]) = outputBytes (nextOr State.reset (runSteps 4 (ready 0b10 [0x41]))) :=
  ⟨ready_toStart _ _, ready_toStart _ _, by decide⟩

end Sys2Proof.Tests
end

section
/-! The registers of R31 right after reset, one equation each, and the statement about all ten. -/

namespace Sys2Proof.Machine

section resetFields -- the values R31 chooses; the registers it leaves unspecified get no equation

@[simp] theorem reset_cmd : State.reset.cmd = 0b00 := rfl

@[simp] theorem reset_inValid : State.reset.inValid = false := rfl

@[simp] theorem reset_inLen : State.reset.inLen = 0 := rfl

@[simp] theorem reset_status : State.reset.status = .idle := rfl

@[simp] theorem reset_outLen : State.reset.outLen = 0 := rfl

@[simp] theorem reset_errKind : State.reset.errKind = .none := rfl

@[simp] theorem reset_errCause : State.reset.errCause = .none := rfl

@[simp] theorem reset_errPos : State.reset.errPos = 0 := rfl

@[simp] theorem reset_errInfo0 : State.reset.errInfo0 = 0 := rfl

@[simp] theorem reset_errInfo1 : State.reset.errInfo1 = 0 := rfl

end resetFields

/-- Settles O46: each register by its own equation. -/
theorem registersAfterReset : Obligations.RegistersAfterReset :=
  ⟨reset_cmd, reset_inValid, reset_inLen, reset_status, reset_outLen, reset_errKind, reset_errCause, reset_errPos,
    reset_errInfo0, reset_errInfo1⟩

end Sys2Proof.Machine
end

section
/-! The memories of spec/20_memory.md: what one ENGINE step does to `IN` and `OUT` (R41, R42), and the refusals at a
capacity (R54). -/

namespace Sys2Proof.Machine

/-! ### What one ENGINE step does to the memories -/

/-- Everything that decides what `IN` reads as, what the HOST put beside it, and the moves still listed. -/
def inputView (s : State) : BitVec 2 × Bool × Nat × Config.Params × Memory × Nat × List Move :=
  (s.cmd, s.inValid, s.inLen, s.params, s.inMem, s.resets, s.agenda)

/-- Everything that decides what `OUT` reads as. -/
def outputView (s : State) : Memory × Nat × Nat := (s.outMem, s.outLen, s.epoch)

theorem inputView_eq_iff {s t : State} : inputView t = inputView s ↔
    t.cmd = s.cmd ∧ t.inValid = s.inValid ∧ t.inLen = s.inLen ∧ t.params = s.params ∧ t.inMem = s.inMem ∧
      t.resets = s.resets ∧ t.agenda = s.agenda := by
  simp only [inputView, Prod.mk.injEq]

theorem outputView_eq_iff {s t : State} : outputView t = outputView s ↔
    t.outMem = s.outMem ∧ t.outLen = s.outLen ∧ t.epoch = s.epoch := by
  simp only [outputView, Prod.mk.injEq]

@[simp] theorem inputView_findBest (p : Nat) (s : State) : inputView (findBest p s) = inputView s := by
  rw [findBest_frame]
  rfl

/-- States with the same view of the input have the same input, and the same moves to come. -/
theorem sameInput_of_inputView {s t : State} (h : inputView t = inputView s) :
    SameInput s t ∧ t.inMem = s.inMem ∧ t.agenda = s.agenda := by
  obtain ⟨hcmd, hvalid, hlen, hparams, hmem, hresets, hagenda⟩ := inputView_eq_iff.1 h
  exact ⟨⟨hcmd, hvalid, hlen, hparams, fun i => by simp only [inByte, hmem, hresets]⟩, hmem, hagenda⟩

/-- A byte of `OUT` is read from the view of the output alone. -/
theorem outByte_of_outputView {s t : State} (h : outputView t = outputView s) (i : Nat) : outByte t i = outByte s i := by
  obtain ⟨hmem, hlen, hepoch⟩ := outputView_eq_iff.1 h
  simp only [outByte, hmem, hlen, hepoch]

/-- What an ENGINE step may do to the memories: the input stays, and the step fails and writes no cell of `OUT`, or it does
not fail and leaves `OUT` as the `Append` of some bytes does. -/
def EngineEffect (s t : State) : Prop :=
  inputView t = inputView s ∧
    ((t.status = .error ∧ t.outMem = s.outMem) ∨
      (t.status ≠ .error ∧ ∃ vs, outputView t = outputView (pushed vs s)))

/-- A failure, whatever registers were written before it. -/
theorem engineEffect_failed {s r : State} (hin : inputView r = inputView s) (hout : r.outMem = s.outMem) (kd : ErrKind)
    (c : ErrCause) (p i0 i1 : Nat) : EngineEffect s (failed kd c p i0 i1 r) :=
  ⟨hin, .inl ⟨rfl, hout⟩⟩

/-- A step of an operation in progress that appends `vs` and goes on. -/
theorem engineEffect_pushed {s t : State} (hb : s.status = .busy) (hin : inputView t = inputView s)
    (hst : t.status = s.status) (vs : List Byte) (hout : outputView t = outputView (pushed vs s)) : EngineEffect s t :=
  ⟨hin, .inr ⟨by simp [hst, hb], vs, hout⟩⟩

/-- Completion appends nothing (R84). -/
theorem engineEffect_completed (s : State) : EngineEffect s (completed s) := ⟨rfl, .inr ⟨nofun, [], rfl⟩⟩

/-- An LZ77 encoder step appends its token to the `OUT` that stood before the search (R120). -/
theorem engineEffect_afterEmitMatch {s : State} (hb : s.status = .busy) (p : Nat) :
    EngineEffect s (afterEmitMatch (findBest p s)) :=
  engineEffect_pushed hb (inputView_findBest p s) (findBest_status p s)
    [Config.tagMatch, BitVec.ofNat 8 ((findBest p s).pos - (findBest p s).bestO), (findBest p s).bestLen]
    (by simp [outputView_eq_iff, afterEmitMatch])

theorem engineEffect_afterEmitLiteral {s : State} (hb : s.status = .busy) (p : Nat) :
    EngineEffect s (afterEmitLiteral (findBest p s)) :=
  engineEffect_pushed hb (inputView_findBest p s) (findBest_status p s)
    [Config.tagLiteral, inByte (findBest p s) (findBest p s).pos]
    (by simp [outputView_eq_iff, afterEmitLiteral])

section commandEffects
variable {s t : State} (hb : s.status = .busy)
include hb

theorem execRleCompress_effect (h : execRleCompress s = .next t) : EngineEffect s t := by
  rcases execRleCompress_cases h with ⟨-, -, rfl⟩ | ⟨-, -, rfl⟩ | ⟨-, -, rfl⟩ | ⟨-, -, -, rfl⟩
  · exact engineEffect_failed rfl rfl ..
  · exact engineEffect_pushed hb rfl rfl [] rfl
  · exact engineEffect_completed s
  · exact engineEffect_pushed hb rfl rfl [BitVec.ofNat 8 (runLength s), inByte s s.pos] rfl

theorem execLzCompress_effect (h : execLzCompress s = .next t) : EngineEffect s t := by
  rcases execLzCompress_cases h with ⟨-, -, rfl⟩ | ⟨-, -, rfl⟩ | ⟨-, -, rfl⟩ | ⟨-, -, -, -, rfl⟩ | ⟨-, -, -, -, rfl⟩
  · exact engineEffect_failed rfl rfl ..
  · exact engineEffect_pushed hb rfl rfl [] rfl
  · exact engineEffect_completed s
  · exact engineEffect_afterEmitMatch hb s.pos
  · exact engineEffect_afterEmitLiteral hb s.pos

theorem execRleDecompress_effect (h : execRleDecompress s = .next t) : EngineEffect s t := by
  rcases execRleDecompress_cases h with ⟨-, -, rfl⟩ | ⟨-, -, rfl⟩ | ⟨-, -, rfl⟩ | ⟨-, -, rfl⟩ | ⟨-, -, rfl⟩ |
    ⟨-, -, rfl⟩ | ⟨-, -, -, rfl⟩ | ⟨-, -, -, -, rfl⟩
  · exact engineEffect_failed rfl rfl ..
  · exact engineEffect_pushed hb rfl rfl [] rfl
  · exact engineEffect_failed rfl rfl ..
  · exact engineEffect_pushed hb rfl rfl [] rfl
  · exact engineEffect_completed s
  · exact engineEffect_failed rfl rfl ..
  · exact engineEffect_failed rfl rfl ..
  · exact engineEffect_pushed hb rfl rfl (List.replicate (inByte s s.pos).toNat (inByte s (s.pos + 1))) rfl

theorem execLzDecompress_effect (h : execLzDecompress s = .next t) : EngineEffect s t := by
  rcases execLzDecompress_cases h with ⟨-, -, rfl⟩ | ⟨-, -, rfl⟩ | ⟨-, -, rfl⟩ | ⟨-, -, -, -, rfl⟩ | ⟨-, -, -, rfl⟩ |
    ⟨-, -, -, -, rfl⟩ | ⟨-, -, -, -, rfl⟩ | ⟨-, -, -, ⟨-, rfl⟩ | ⟨-, -, rfl⟩ | ⟨-, -, -, rfl⟩⟩
  · exact engineEffect_failed rfl rfl ..
  · exact engineEffect_pushed hb rfl rfl [] rfl
  · exact engineEffect_completed s
  · exact engineEffect_failed rfl rfl ..
  · exact engineEffect_failed rfl rfl ..
  · exact engineEffect_pushed hb rfl rfl [inByte s (s.pos + 1)] rfl
  · exact engineEffect_failed rfl rfl ..
  · exact engineEffect_failed rfl rfl ..
  · exact engineEffect_failed rfl rfl ..
  · exact engineEffect_pushed hb rfl rfl
      (periodicBytes s (s.outLen - (inByte s (s.pos + 1)).toNat) (inByte s (s.pos + 2)).toNat) rfl

/-- The effect of an ENGINE step on the memories, whichever command `CMD` holds. -/
theorem execCommand_effect {w : BitVec 2} (h : exec (decodeCommand w) s = .next t) : EngineEffect s t := by
  rcases cmd_cases w with rfl | rfl | rfl | rfl
  · exact execRleCompress_effect hb h
  · exact execRleDecompress_effect hb h
  · exact execLzCompress_effect hb h
  · exact execLzDecompress_effect hb h

end commandEffects

/-! ### The ENGINE only appends (R42) -/

/-- An output view with `vs` pushed: exactly `vs` was appended, and every cell outside them is as it was. -/
theorem appended_of_outputView {vs : List Byte} {s t : State} (h : outputView t = outputView (pushed vs s)) :
    Appended vs s t ∧ ∀ i, (i < s.outLen ∨ t.outLen ≤ i) → Memory.read t.outMem i = Memory.read s.outMem i := by
  obtain ⟨hmem, hlen, -⟩ := outputView_eq_iff.1 h
  rw [pushed_outMem] at hmem
  rw [pushed_outLen] at hlen
  refine ⟨appended_of_pushed hlen (outByte_of_outputView h), fun i hi => ?_⟩
  rw [hmem, read_writeBytes, dif_neg (by omega)]

/-- Settles O48: the effect of the step on `OUT`, read off `EngineEffect`. -/
theorem theEngineOnlyAppends : Obligations.TheEngineOnlyAppends := by
  intro s t hb ha h
  rw [step_busy ha hb] at h
  rcases execCommand_effect hb h with ⟨-, ⟨herr, hmem⟩ | ⟨hne, vs, hvs⟩⟩
  · exact ⟨fun hne => absurd herr hne, fun _ => hmem⟩
  · obtain ⟨happ, hcells⟩ := appended_of_outputView hvs
    exact ⟨fun _ => ⟨vs, happ, outputBytes_of_appended happ, hcells⟩, fun herr => absurd herr hne⟩

/-! ### The ENGINE never writes the input (R41) -/

/-- Where no move of the HOST is listed, no step changes the view of the input. -/
theorem step_inputView {s t : State} (ha : s.agenda = []) (h : step s = .next t) : inputView t = inputView s := by
  by_cases hb : s.status = .busy
  · rw [step_busy ha hb] at h
    exact (execCommand_effect hb h).1
  · rw [step_idle ha hb] at h
    cases h
    rfl

/-- Settles O49: the view of the input, the empty agenda with it, is kept along the run. -/
theorem theEngineNeverWritesTheInput : Obligations.TheEngineNeverWritesTheInput := by
  intro s t ha hr
  have hview : inputView t = inputView s := by
    refine reaches_keeps (P := fun u => inputView u = inputView s) (fun u v hu huv => ?_) rfl hr
    obtain ⟨-, -, hagenda⟩ := sameInput_of_inputView hu
    exact (step_inputView (hagenda.trans ha) huv).trans hu
  obtain ⟨hsame, hmem, -⟩ := sameInput_of_inputView hview
  exact ⟨hsame, hmem⟩

/-! ### Refusals at a capacity (R54) -/

theorem append_refuses {s : State} (v : Byte) (h : s.params.outCap = some s.outLen) :
    append v s = .refused .outputOverCapacity := by
  simp [append, h, Config.cellExists]

theorem append_of_unbounded {s : State} (v : Byte) (h : s.params.outCap = none) : append v s = .next (pushByte v s) :=
  append_eq_next.2 ⟨by rw [h]; rfl, rfl⟩

theorem hostAct_writeInLen_refuses {s : State} {n c : Nat} (hc : s.params.inCap = some c) (hn : c < n)
    (hb : s.status ≠ .busy) : hostAct (.writeInLen n) s = .refused .inputOverCapacity := by
  simp [hostAct, hb, hc, Config.withinCap, hn]

theorem hostAct_writeInLen_of_unbounded {s : State} (n : Nat) (hc : s.params.inCap = none) (hb : s.status ≠ .busy) :
    hostAct (.writeInLen n) s = .next { s with inLen := n } := by
  simp [hostAct, hb, hc, Config.withinCap]

/-- A payload byte inside the stream is the byte of `IN` there (R65). -/
theorem operandByte_of_lt {s : State} {j : Nat} (h : s.pos + j < s.inLen) :
    operandByte s j = some (inByte s (s.pos + j)) := if_pos h

section bodyStep -- past the tests and before the end of the input a command makes its token's step (R83)
variable {s : State} (hp : s.phase = .body) (hl : s.pos < s.inLen)
include hp hl

theorem exec_rleCompress_body : exec .rleCompress s = rleEncodeStep s := by
  simp only [exec, execRleCompress, hp, if_pos hl]

theorem exec_lzCompress_body : exec .lzCompress s = lzEncodeStep s := by
  simp only [exec, execLzCompress, hp, if_pos hl]

theorem exec_rleDecompress_body : exec .rleDecompress s = rleDecodeStep s := by
  simp only [exec, execRleDecompress, hp, if_pos hl]

theorem exec_lzDecompress_body : exec .lzDecompress s = lzDecodeStep s := by
  simp only [exec, execLzDecompress, hp, if_pos hl]

end bodyStep

theorem lzDecodeStep_literal {s : State} (h : inByte s s.pos = 0x00) :
    lzDecodeStep s = execLzLit (operandByte s 1) s := if_pos h

theorem lzDecodeStep_match {s : State} (h : inByte s s.pos = 0x01) :
    lzDecodeStep s = execLzMatch (operandByte s 1) (operandByte s 2) s := by
  have h0 : inByte s s.pos ≠ Config.tagLiteral := by rw [h]; decide
  exact (if_neg h0).trans (if_pos h)

/-- Settles O50: the refusal of each operation that appends, under the command that makes its step. -/
theorem overCapacityIsRefused : Obligations.OverCapacityIsRefused := by
  refine ⟨fun s v h => append_refuses v h, fun s n c hc hn hb => hostAct_writeInLen_refuses hc hn hb,
    fun s v h => ⟨_, append_of_unbounded v h⟩, fun s n hc hb => ⟨_, hostAct_writeInLen_of_unbounded n hc hb⟩,
    fun count value s h0 hr => execRlePair_refuses h0 hr, fun b s hl hr => execLzLit_refuses hl hr,
    fun o l s hl hz ho h1 hr => execLzMatch_refuses hl hz ho h1 hr,
    fun s hp hl => ⟨fun hr => ?rleEncode, fun hr => ?lzEncode, fun hl1 h0 hr => ?pair, fun htag hl1 hr => ?literal,
      fun htag hl2 hz ho hne hr => ?copy⟩⟩
  case rleEncode => rw [exec_rleCompress_body hp hl, rleEncodeStep_refuses hr]
  case lzEncode => rw [exec_lzCompress_body hp hl, lzEncodeStep_refuses hr]
  case pair => rw [exec_rleDecompress_body hp hl, rleDecodeStep_eq hl1, execRlePair_refuses h0 hr]
  case literal =>
    rw [exec_lzDecompress_body hp hl, lzDecodeStep_literal htag, operandByte_of_lt hl1, execLzLit_refuses hl1 hr]
  case copy =>
    rw [exec_lzDecompress_body hp hl, lzDecodeStep_match htag, operandByte_of_lt (by omega), operandByte_of_lt hl2,
      execLzMatch_refuses hl2 hz ho (toNat_pos hne) hr]

end Sys2Proof.Machine
end

section
/-! The decoder's equations on a stream that holds a whole token (R61 to R63, R68, R69), and the token length of R65. -/

namespace Sys2Proof

/-! ### One equation per row of the token tables -/

/-- A pair whose count is zero is the row that R67 matches before `RLE.PAIR`. -/
@[simp] theorem decode_rleStream_zeroCount (v : Byte) (rest : List Byte) :
    decode .rleStream (0x00 :: v :: rest) = .ok (.rleIllegalZeroCount v, rest) := rfl

theorem decode_rleStream_pair {c : Byte} (hc : c ≠ 0x00) (v : Byte) (rest : List Byte) :
    decode .rleStream (c :: v :: rest) = .ok (.rlePair c v, rest) := if_neg hc

@[simp] theorem decode_lzStream_literal (b : Byte) (rest : List Byte) :
    decode .lzStream (0x00 :: b :: rest) = .ok (.lzLit (some b), rest) := rfl

@[simp] theorem decode_lzStream_match (o l : Byte) (rest : List Byte) :
    decode .lzStream (0x01 :: o :: l :: rest) = .ok (.lzMatch (some o) (some l), rest) := rfl

theorem decode_lzStream_illegalTag {t : Byte} (hlit : t ≠ 0x00) (hmatch : t ≠ 0x01) (rest : List Byte) :
    decode .lzStream (t :: rest) = .ok (.lzIllegalTag t, rest) := (if_neg hlit).trans (if_neg hmatch)

/-! ### The token length (R65) -/

/-- Two bytes of an RLE stream are one token of two bytes: the count selects the row and not the length. -/
theorem decode_rleStream_twoBytes (c v : Byte) (rest : List Byte) :
    ∃ i, decode .rleStream (c :: v :: rest) = .ok (i, rest) ∧ (encode i).length = 2 := by
  by_cases hc : c = 0x00
  · subst hc
    exact ⟨.rleIllegalZeroCount v, decode_rleStream_zeroCount v rest, rfl⟩
  · exact ⟨.rlePair c v, decode_rleStream_pair hc v rest, rfl⟩

/-- Settles O4: the RLE rows by their count, the LZ77 rows by their tag. -/
theorem theTagAloneGivesTheTokenLength : Obligations.TheTagAloneGivesTheTokenLength :=
  ⟨decode_rleStream_twoBytes, decode_lzStream_literal, decode_lzStream_match,
    fun _ rest hlit hmatch => decode_lzStream_illegalTag hlit hmatch rest⟩

end Sys2Proof
end

section
/-! The course of an operation (R83): START, the tests before the first token, and completion, which comes at the end of the
input and nowhere else (R80 to R84). -/

namespace Sys2Proof.Machine

/-! ### START and the tests -/

/-- The state after START as the only move listed (R80). -/
def begun (s : State) : State := started { s with agenda := [] }

theorem step_start {s : State} (hb : s.status ≠ .busy) (ha : s.agenda = [.host .start]) : step s = .next (begun s) := by
  simp only [step, nextMove, ha, hostAct, execStart, if_neg hb]
  rfl

theorem runsTo_of_step {s t u : State} (h : step s = .next t) (hr : Reaches t u) : RunsTo s u := by
  obtain ⟨n, hn⟩ := hr
  exact ⟨n, by rw [runSteps_succ, h]; exact hn⟩

/-- The state at the first token, once the tests have passed (R81, R111). -/
def atFirstToken (s : State) : State :=
  { s with phase := .body, dstate := if s.cmd = 0b11 then .expectTag else s.dstate }

/-- The state after a passed prologue (R81): a test of the length comes next in `RLE.DECOMPRESS`, the first token elsewhere. -/
def afterPrologue (s : State) : State :=
  { atFirstToken s with phase := if s.cmd = 0b01 then .lengthTest else .body }

theorem step_prologue {s : State} (ha : s.agenda = []) (hb : s.status = .busy) (hp : s.phase = .prologue)
    (hv : s.inValid = true) : step s = .next (afterPrologue s) := by
  rw [step_busy ha hb]
  rcases cmd_cases s.cmd with hc | hc | hc | hc <;> rw [hc]
  · show execRleCompress s = _
    simp [execRleCompress, hp, prologue, hv, afterPrologue, atFirstToken, hc]
  · show execRleDecompress s = _
    simp [execRleDecompress, hp, prologue, hv, afterPrologue, atFirstToken, hc]
  · show execLzCompress s = _
    simp [execLzCompress, hp, prologue, hv, afterPrologue, atFirstToken, hc]
  · show execLzDecompress s = _
    simp [execLzDecompress, hp, prologue, hv, afterPrologue, atFirstToken, hc]

/-- The odd-length test, passed (R111). -/
theorem step_evenLength {s : State} (ha : s.agenda = []) (hb : s.status = .busy) (hc : s.cmd = 0b01)
    (hp : s.phase = .lengthTest) (heven : s.inLen % 2 = 0) : step s = .next { s with phase := .body } := by
  rw [step_busy ha hb, hc]
  show execRleDecompress s = _
  simp [execRleDecompress, hp, hc, isOdd, heven]

/-- With a buffer bound, and of even length for `RLE.DECOMPRESS`, an operation gets past its tests. -/
theorem reaches_atFirstToken {s : State} (ha : s.agenda = []) (hb : s.status = .busy) (hp : s.phase = .prologue)
    (hv : s.inValid = true) (heven : s.cmd = 0b01 → s.inLen % 2 = 0) : Reaches s (atFirstToken s) := by
  refine .head (step_prologue ha hb hp hv) ?_
  by_cases hc : s.cmd = 0b01
  · have htest : step (afterPrologue s) = .next (atFirstToken s) :=
      step_evenLength (s := afterPrologue s) ha hb hc (if_pos hc) (heven hc)
    exact .head htest (.refl _)
  · have hdone : afterPrologue s = atFirstToken s := by
      rw [afterPrologue, if_neg hc]
      rfl
    rw [hdone]
    exact .refl _

/-! ### Completion -/

/-- The operation is past its tests and has consumed its input (R84). -/
def AtEnd (s : State) : Prop := s.phase = .body ∧ s.inLen ≤ s.pos

theorem execCommand_atEnd {s : State} (h : AtEnd s) (w : BitVec 2) :
    exec (decodeCommand w) s = .next (completed s) := by
  obtain ⟨hp, hl⟩ := h
  have hl' : ¬s.pos < s.inLen := Nat.not_lt_of_le hl
  rcases cmd_cases w with rfl | rfl | rfl | rfl
  · show execRleCompress s = _
    simp only [execRleCompress, hp, if_neg hl', complete_eq]
  · show execRleDecompress s = _
    simp only [execRleDecompress, hp, if_neg hl', complete_eq]
  · show execLzCompress s = _
    simp only [execLzCompress, hp, if_neg hl', complete_eq]
  · show execLzDecompress s = _
    simp only [execLzDecompress, hp, if_neg hl', complete_eq]

theorem step_atEnd {s : State} (ha : s.agenda = []) (hb : s.status = .busy) (h : AtEnd s) :
    step s = .next (completed s) := by
  rw [step_busy ha hb, execCommand_atEnd h]

theorem phase_eq_body {p : Phase} (hprologue : p ≠ .prologue) (htest : p ≠ .lengthTest) : p = .body := by
  cases p with
  | prologue => exact absurd rfl hprologue
  | lengthTest => exact absurd rfl htest
  | body => rfl

section completes -- a step that does not stand at the end of the input fails or goes on, so it does not end in DONE
variable {s t : State} (hb : s.status = .busy) (hd : t.status = .done)
include hb hd

theorem atEnd_of_rleCompress_done (htest : s.phase ≠ .lengthTest) (h : execRleCompress s = .next t) : AtEnd s := by
  rcases execRleCompress_cases h with ⟨-, -, rfl⟩ | ⟨-, -, rfl⟩ | ⟨hp, hl, -⟩ | ⟨-, -, -, rfl⟩
  · cases hd
  · exact nomatch hb.symm.trans hd
  · exact ⟨phase_eq_body hp htest, hl⟩
  · exact nomatch hb.symm.trans hd

theorem atEnd_of_lzCompress_done (htest : s.phase ≠ .lengthTest) (h : execLzCompress s = .next t) : AtEnd s := by
  rcases execLzCompress_cases h with ⟨-, -, rfl⟩ | ⟨-, -, rfl⟩ | ⟨hp, hl, -⟩ | ⟨-, -, -, -, rfl⟩ | ⟨-, -, -, -, rfl⟩
  · cases hd
  · exact nomatch hb.symm.trans hd
  · exact ⟨phase_eq_body hp htest, hl⟩
  · exact nomatch hb.symm.trans ((findBest_status s.pos s).symm.trans hd)
  · exact nomatch hb.symm.trans ((findBest_status s.pos s).symm.trans hd)

theorem atEnd_of_rleDecompress_done (h : execRleDecompress s = .next t) : AtEnd s := by
  rcases execRleDecompress_cases h with ⟨-, -, rfl⟩ | ⟨-, -, rfl⟩ | ⟨-, -, rfl⟩ | ⟨-, -, rfl⟩ | ⟨hp, hl, -⟩ |
    ⟨-, -, rfl⟩ | ⟨-, -, -, rfl⟩ | ⟨-, -, -, -, rfl⟩
  · cases hd
  · exact nomatch hb.symm.trans hd
  · cases hd
  · exact nomatch hb.symm.trans hd
  · exact ⟨hp, hl⟩
  · cases hd
  · cases hd
  · exact nomatch hb.symm.trans hd

theorem atEnd_of_lzDecompress_done (htest : s.phase ≠ .lengthTest) (h : execLzDecompress s = .next t) : AtEnd s := by
  rcases execLzDecompress_cases h with ⟨-, -, rfl⟩ | ⟨-, -, rfl⟩ | ⟨hp, hl, -⟩ | ⟨-, -, -, -, rfl⟩ | ⟨-, -, -, rfl⟩ |
    ⟨-, -, -, -, rfl⟩ | ⟨-, -, -, -, rfl⟩ | ⟨-, -, -, ⟨-, rfl⟩ | ⟨-, -, rfl⟩ | ⟨-, -, -, rfl⟩⟩
  · cases hd
  · exact nomatch hb.symm.trans hd
  · exact ⟨phase_eq_body hp htest, hl⟩
  · cases hd
  · cases hd
  · exact nomatch hb.symm.trans hd
  · cases hd
  · cases hd
  · cases hd
  · exact nomatch hb.symm.trans hd

/-- Only `RLE.DECOMPRESS` has a test after the prologue, so a step that ends in `DONE` stood at the end of the input. -/
theorem atEnd_of_done {w : BitVec 2} (htest : s.phase = .lengthTest → w = 0b01)
    (h : exec (decodeCommand w) s = .next t) : AtEnd s := by
  rcases cmd_cases w with rfl | rfl | rfl | rfl
  · exact atEnd_of_rleCompress_done hb hd (fun hp => nomatch htest hp) h
  · exact atEnd_of_rleDecompress_done hb hd h
  · exact atEnd_of_lzCompress_done hb hd (fun hp => nomatch htest hp) h
  · exact atEnd_of_lzDecompress_done hb hd (fun hp => nomatch htest hp) h

end completes

theorem causeKind_eq_none {c : ErrCause} (h : causeKind c = .none) : c = .none := by
  cases c with
  | none => rfl
  | _ => cases h

/-- While an operation is in progress the failure record is clear (R17 to R20). -/
theorem Inv.record_clear {s : State} (hi : Inv s) (hb : s.status = .busy) :
    s.errKind = .none ∧ s.errCause = .none ∧ s.errPos = 0 ∧ s.errInfo0 = 0 ∧ s.errInfo1 = 0 := by
  have hkind : s.errKind = .none := by
    by_contra hk
    exact nomatch hb.symm.trans (hi.kindIffError.1 hk)
  exact ⟨hkind, causeKind_eq_none (hi.kindOfCause.symm.trans hkind), hi.detailClear hkind⟩

/-! ### The statements -/

/-- Settles O12: at the end of the input the step is completion, and elsewhere no step ends in `DONE`. -/
theorem operationsCompleteExactlyAtTheEndOfInput : Obligations.OperationsCompleteExactlyAtTheEndOfInput := by
  intro s t hi hb ha h
  have hend : t.status = .done → AtEnd s := fun hd =>
    atEnd_of_done hb hd (hi.testOnlyInRle hb) ((step_busy ha hb).symm.trans h)
  have hcompleted : AtEnd s → t = completed s := fun he => by
    rw [step_atEnd ha hb he] at h
    cases h
    rfl
  refine ⟨⟨fun hd => ?_, fun ⟨hp, hl⟩ => ?_⟩, fun hd => ?_⟩
  · obtain ⟨hp, hl⟩ := hend hd
    exact ⟨hp, Nat.le_antisymm (hi.posLe hb) hl⟩
  · rw [hcompleted ⟨hp, hl.ge⟩, completed_status]
  · obtain ⟨hkind, hcause, hpos, hinfo0, hinfo1⟩ := hi.record_clear hb
    have ht := hcompleted (hend hd)
    subst ht
    exact ⟨rfl, hkind, hcause, hpos, hinfo0, hinfo1, rfl, step_idle ha nofun⟩

/-- Settles O10: an empty input is consumed as soon as the tests have passed, so the next step is completion. -/
theorem emptyInputGivesEmptyOutput : Obligations.EmptyInputGivesEmptyOutput := by
  intro cmd s hs hlen
  have htests : Reaches (begun s) (atFirstToken (begun s)) :=
    reaches_atFirstToken rfl rfl rfl hs.bound fun _ => by simp [begun, hlen]
  have hend : step (atFirstToken (begun s)) = .next (completed (atFirstToken (begun s))) :=
    step_atEnd rfl rfl ⟨rfl, hlen.le⟩
  exact ⟨_, runsTo_of_step (step_start hs.notBusy hs.startNext) (htests.trans (.head hend (.refl _))), rfl, rfl⟩

end Sys2Proof.Machine
end

section
/-! R91: the outcome of an operation is a function of its input. A view of the state keeps what an operation's future depends
on; equal views go through equal runs, and START makes the views of two states with the same input equal. -/

namespace Sys2Proof.Machine

/-! ### The view -/

/-- What the rest of an operation depends on, and what the HOST reads back of it. Left out: the working registers except `POS`
(R26, R30), the bytes of `IN` from `IN_LEN` on and of `OUT` from `OUT_LEN` on, and the counters of the free values. -/
structure OperationView where
  cmd : BitVec 2
  inValid : Bool
  params : Config.Params
  status : Status
  phase : Phase
  pos : Nat
  errKind : ErrKind
  errCause : ErrCause
  errPos : Nat
  errInfo0 : Nat
  errInfo1 : Nat
  agenda : List Move
  input : List Byte
  output : List Byte

/-- The view of a state; `IN_LEN` and `OUT_LEN` are the lengths of its two byte lists. -/
def operationView (s : State) : OperationView where
  cmd := s.cmd
  inValid := s.inValid
  params := s.params
  status := s.status
  phase := s.phase
  pos := s.pos
  errKind := s.errKind
  errCause := s.errCause
  errPos := s.errPos
  errInfo0 := s.errInfo0
  errInfo1 := s.errInfo1
  agenda := s.agenda
  input := inputBytes s
  output := outputBytes s

/-- The view of the next state, if there is one. -/
def resultView : Result → Option OperationView
  | .next t => some (operationView t)
  | .fault _ => none
  | .refused _ => none

@[simp] theorem resultView_next (s : State) : resultView (.next s) = some (operationView s) := rfl

@[simp] theorem inputBytes_length (s : State) : (inputBytes s).length = s.inLen := by simp [inputBytes]

@[simp] theorem outputBytes_length (s : State) : (outputBytes s).length = s.outLen := by simp [outputBytes]

/-- A result with the view of a next state is a next state of that view. -/
theorem eq_next_of_resultView {r : Result} {t : State} (h : resultView r = some (operationView t)) :
    ∃ t', r = .next t' ∧ operationView t' = operationView t := by
  cases r with
  | next t' => exact ⟨t', rfl, Option.some.inj h⟩
  | fault e => cases h
  | refused e => cases h

/-- Appending shows in the output only. -/
theorem operationView_pushed (vs : List Byte) (s : State) :
    operationView (pushed vs s) = { operationView s with output := outputBytes s ++ vs } := by
  rw [← outputBytes_of_appended (appended_of_pushed (t := pushed vs s) rfl fun _ => rfl)]
  rfl

/-- A choice by conditions that are in the view. -/
theorem resultView_ite {c c' : Prop} [Decidable c] [Decidable c'] {a a' b b' : Result} (hc : c' ↔ c)
    (ha : c → resultView a' = resultView a) (hb : ¬c → resultView b' = resultView b) :
    resultView (if c' then a' else b') = resultView (if c then a else b) := by
  by_cases hyes : c
  · rw [if_pos hyes, if_pos (hc.2 hyes)]
    exact ha hyes
  · rw [if_neg hyes, if_neg (mt hc.1 hyes)]
    exact hb hyes

/-! ### The encoder's refusals, and the best match among given candidates -/

theorem emitMatch_refuses {s : State} (hr : roomFor 3 s = false) : emitMatch s = .refused .outputOverCapacity := by
  rw [emitMatch, appendAll_refuses (by simp) (by simpa using hr), andThen_refused]

theorem emitLiteral_refuses {s : State} (hr : roomFor 2 s = false) : emitLiteral s = .refused .outputOverCapacity := by
  rw [emitLiteral, appendAll_refuses (by simp) (by simpa using hr), andThen_refused]

/-- The best of the same candidates with the same match lengths is no shorter. -/
theorem BestOf.bestLen_le {s s' t t' : State} {pos : Nat} {os : List Nat} (hb : BestOf s pos os t)
    (hb' : BestOf s' pos os t') (hm : ∀ o ∈ os, matchLen s' pos o = matchLen s pos o) :
    t.bestLen.toNat ≤ t'.bestLen.toNat := by
  by_cases hpos : 1 ≤ t.bestLen.toNat
  · obtain ⟨hmem, hlen, -⟩ := hb.first hpos
    rw [← hlen, ← hm _ hmem]
    exact hb'.greatest _ hmem
  · omega

/-- The first of the best is no earlier, where the best length is the same. -/
theorem BestOf.bestO_le {s s' t t' : State} {pos : Nat} {os : List Nat} (hb : BestOf s pos os t)
    (hb' : BestOf s' pos os t') (hm : ∀ o ∈ os, matchLen s' pos o = matchLen s pos o)
    (heq : t'.bestLen = t.bestLen) (hpos : 1 ≤ t.bestLen.toNat) : t.bestO ≤ t'.bestO := by
  obtain ⟨-, -, hfirst⟩ := hb.first hpos
  obtain ⟨hmem', hlen', -⟩ := hb'.first (by rwa [heq])
  by_contra hlt
  have := hfirst _ hmem' (by omega)
  rw [← hm _ hmem', hlen', heq] at this
  omega

/-! ### What two states of one view have in common -/

section sameView
variable {s s' : State} (h : operationView s' = operationView s)
include h

theorem cmd_of_view : s'.cmd = s.cmd := congrArg OperationView.cmd h
theorem inValid_of_view : s'.inValid = s.inValid := congrArg OperationView.inValid h
theorem params_of_view : s'.params = s.params := congrArg OperationView.params h
theorem status_of_view : s'.status = s.status := congrArg OperationView.status h
theorem phase_of_view : s'.phase = s.phase := congrArg OperationView.phase h
theorem pos_of_view : s'.pos = s.pos := congrArg OperationView.pos h
theorem agenda_of_view : s'.agenda = s.agenda := congrArg OperationView.agenda h

theorem inputBytes_of_view : inputBytes s' = inputBytes s := congrArg OperationView.input h
theorem outputBytes_of_view : outputBytes s' = outputBytes s := congrArg OperationView.output h

theorem inLen_of_view : s'.inLen = s.inLen := by
  rw [← inputBytes_length, inputBytes_of_view h, inputBytes_length]

theorem outLen_of_view : s'.outLen = s.outLen := by
  rw [← outputBytes_length, outputBytes_of_view h, outputBytes_length]

theorem inByte_of_view {i : Nat} (hi : i < s.inLen) : inByte s' i = inByte s i := by
  have hin := inputBytes_of_view h
  rw [inputBytes, inLen_of_view h] at hin
  exact List.map_inj_left.1 hin i (List.mem_range.2 hi)

theorem outByte_of_view {i : Nat} (hi : i < s.outLen) : outByte s' i = outByte s i := by
  have hout := outputBytes_of_view h
  rw [outputBytes, outLen_of_view h] at hout
  exact List.map_inj_left.1 hout i (List.mem_range.2 hi)

theorem roomFor_of_view (n : Nat) : roomFor n s' = roomFor n s := by
  rw [roomFor, params_of_view h, outLen_of_view h, roomFor]

theorem operandByte_of_view (j : Nat) : operandByte s' j = operandByte s j := by
  simp only [operandByte, pos_of_view h, inLen_of_view h]
  split
  · rename_i hj
    rw [inByte_of_view h hj]
  · rfl

theorem periodicBytes_of_view {src : Nat} (hsrc : src < s.outLen) (n : Nat) :
    periodicBytes s' src n = periodicBytes s src n := by
  unfold periodicBytes
  rw [outLen_of_view h]
  refine List.map_congr_left fun j _ => outByte_of_view h ?_
  have := Nat.mod_lt j (show 0 < s.outLen - src by omega)
  omega

/-- What the HOST reads back is in the view (R85). -/
theorem returned_of_view : returned s' = returned s := by
  have hkind : s'.errKind = s.errKind := congrArg OperationView.errKind h
  have hcause : s'.errCause = s.errCause := congrArg OperationView.errCause h
  have hpos : s'.errPos = s.errPos := congrArg OperationView.errPos h
  have hinfo0 : s'.errInfo0 = s.errInfo0 := congrArg OperationView.errInfo0 h
  have hinfo1 : s'.errInfo1 = s.errInfo1 := congrArg OperationView.errInfo1 h
  simp only [returned, status_of_view h, outputBytes_of_view h, hkind, hcause, hpos, hinfo0, hinfo1]

/-! ### The updates of the state keep equal views equal -/

theorem view_pushed (vs : List Byte) : operationView (pushed vs s') = operationView (pushed vs s) := by
  rw [operationView_pushed, operationView_pushed, h, outputBytes_of_view h]

theorem view_phase (p : Phase) : operationView { s' with phase := p } = operationView { s with phase := p } :=
  congrArg (fun v : OperationView => { v with phase := p }) h

theorem view_pos (p : Nat) : operationView { s' with pos := p } = operationView { s with pos := p } :=
  congrArg (fun v : OperationView => { v with pos := p }) h

theorem view_completed : operationView (completed s') = operationView (completed s) :=
  congrArg (fun v : OperationView => { v with status := .done }) h

theorem view_failed (kd : ErrKind) (c : ErrCause) (p i0 i1 : Nat) :
    operationView (failed kd c p i0 i1 s') = operationView (failed kd c p i0 i1 s) :=
  congrArg (fun v : OperationView =>
    { v with
      errKind := kd, errCause := c, errPos := p, errInfo0 := i0, errInfo1 := i1, status := .error, output := [] }) h

theorem view_tagFetched (tg : Byte) (d : DState) :
    operationView (tagFetched tg d s') = operationView (tagFetched tg d s) := h

theorem view_matchFetched (o l : Byte) :
    operationView (matchFetched o l s') = operationView (matchFetched o l s) := h

theorem view_tokenDone (n : Nat) : operationView (tokenDone n s') = operationView (tokenDone n s) :=
  congrArg (fun v : OperationView => { v with pos := v.pos + n }) h

/-! ### What the searches of the encoders find -/

theorem runLength_of_view (hp : s.pos < s.inLen) : runLength s' = runLength s := by
  have hpos := pos_of_view h
  have hlen := inLen_of_view h
  obtain ⟨one_le, le_cap, inside, equal, maximal⟩ := runLength_isRunLength hp
  refine IsRunLength.unique (runLength_isRunLength (by omega)) ⟨one_le, le_cap, by omega, fun j hj => ?_, ?_⟩
  · rw [hpos, inByte_of_view h (by omega), inByte_of_view h hp, equal j hj]
  · rw [hpos, hlen]
    by_cases hend : s.pos + runLength s = s.inLen
    · exact .inr (.inl hend)
    · rwa [inByte_of_view h (by omega), inByte_of_view h hp]

/-- A candidate stands before `pos`, so every byte its match is compared over is a byte of the input. -/
theorem matchLen_of_view {pos : Nat} : ∀ o ∈ candidates pos, matchLen s' pos o = matchLen s pos o := by
  intro o ho
  have hlt := (mem_candidates.1 ho).2
  obtain ⟨le_cap, agree, maximal⟩ := matchLen_isMatchLen s pos o
  refine IsMatchLen.unique (matchLen_isMatchLen s' pos o) ⟨le_cap, fun j hj => ?_, ?_⟩
  · obtain ⟨hin, heq⟩ := agree j hj
    rw [inLen_of_view h, inByte_of_view h (by omega), inByte_of_view h hin]
    exact ⟨hin, heq⟩
  · rw [inLen_of_view h]
    by_cases hend : s.inLen ≤ pos + matchLen s pos o
    · exact .inr (.inl hend)
    · rwa [inByte_of_view h (by omega), inByte_of_view h (by omega)]

theorem findBest_bestLen_of_view (pos : Nat) : (findBest pos s').bestLen = (findBest pos s).bestLen := by
  refine BitVec.eq_of_toNat_eq (Nat.le_antisymm ?_ ?_)
  · exact (findBest_bestOf s' pos).bestLen_le (findBest_bestOf s pos) (matchLen_of_view h.symm)
  · exact (findBest_bestOf s pos).bestLen_le (findBest_bestOf s' pos) (matchLen_of_view h)

theorem findBest_bestO_of_view {pos : Nat} (hb : 1 ≤ (findBest pos s).bestLen.toNat) :
    (findBest pos s').bestO = (findBest pos s).bestO := by
  have hlen := findBest_bestLen_of_view h pos
  refine Nat.le_antisymm ?_ ?_
  · exact (findBest_bestOf s' pos).bestO_le (findBest_bestOf s pos) (matchLen_of_view h.symm) hlen.symm (by rwa [hlen])
  · exact (findBest_bestOf s pos).bestO_le (findBest_bestOf s' pos) (matchLen_of_view h) hlen hb

theorem view_findBest (pos : Nat) : operationView (findBest pos s') = operationView (findBest pos s) := by
  rw [findBest_frame s' pos, findBest_frame s pos]
  exact h

/-! ### The states after a token keep equal views equal -/

theorem view_afterRun (hp : s.pos < s.inLen) (c : Nat) :
    operationView (afterRun c s') = operationView (afterRun c s) := by
  simp only [afterRun, pos_of_view h, inByte_of_view h hp]
  exact view_pos (view_pushed h _) _

theorem view_afterEmitMatch (hlen : s'.bestLen = s.bestLen) (ho : s'.bestO = s.bestO) :
    operationView (afterEmitMatch s') = operationView (afterEmitMatch s) := by
  simp only [afterEmitMatch, pos_of_view h, hlen, ho]
  exact view_pos (view_pushed h _) _

theorem view_afterEmitLiteral (hp : s.pos < s.inLen) :
    operationView (afterEmitLiteral s') = operationView (afterEmitLiteral s) := by
  simp only [afterEmitLiteral, pos_of_view h, inByte_of_view h hp]
  exact view_pos (view_pushed h _) _

theorem view_afterPair (count value : Byte) :
    operationView (afterPair count value s') = operationView (afterPair count value s) := by
  simp only [afterPair, pos_of_view h]
  exact view_pos (view_pushed h _) _

theorem view_afterLiteral (b : Byte) : operationView (afterLiteral b s') = operationView (afterLiteral b s) :=
  view_tokenDone (view_pushed (view_tagFetched h ..) [b]) 2

theorem view_afterMatch {o l : Byte} (ho : o.toNat ≤ s.outLen) (hz : o ≠ 0 ∨ l = 0) :
    operationView (afterMatch o l s') = operationView (afterMatch o l s) := by
  have hbytes : periodicBytes s' (s.outLen - o.toNat) l.toNat = periodicBytes s (s.outLen - o.toNat) l.toNat := by
    rcases hz with hz | rfl
    · have := toNat_pos hz
      exact periodicBytes_of_view h (by omega) _
    · rfl
  simp only [afterMatch, pos_of_view h, outLen_of_view h, hbytes]
  exact view_pos (view_pushed h _) _

/-! ### Each operation's step is a function of the view -/

theorem raise_of_view (kd : ErrKind) (c : ErrCause) (p i0 i1 : Nat) :
    resultView (raise kd c p i0 i1 s') = resultView (raise kd c p i0 i1 s) :=
  congrArg some (view_failed h kd c p i0 i1)

theorem complete_of_view : resultView (complete s') = resultView (complete s) := congrArg some (view_completed h)

theorem prologue_of_view (p : Phase) : resultView (prologue p s') = resultView (prologue p s) :=
  resultView_ite (by rw [inValid_of_view h]) (fun _ => congrArg some (view_phase h p)) fun _ => raise_of_view h ..

/-- The room for `n` bytes is in the view, so an action that needs nothing but that room is a function of the view as far as
the state it leaves is. -/
theorem resultView_of_room {n : Nat} {act : State → Result} {after : State → State} {e : Refusal}
    (hnext : ∀ u, operationView u = operationView s → roomFor n u = true → act u = .next (after u))
    (hrefuse : ∀ u, operationView u = operationView s → roomFor n u = false → act u = .refused e)
    (hafter : operationView (after s') = operationView (after s)) : resultView (act s') = resultView (act s) := by
  have hroom := roomFor_of_view h n
  cases hr : roomFor n s <;> rw [hr] at hroom
  · rw [hrefuse s rfl hr, hrefuse s' h hroom]
  · rw [hnext s rfl hr, hnext s' h hroom]
    exact congrArg some hafter

theorem rleEncodeStep_of_view (hp : s.pos < s.inLen) : resultView (rleEncodeStep s') = resultView (rleEncodeStep s) :=
  resultView_of_room h
    (fun u hu hr => rleEncodeStep_of_room (by rwa [pos_of_view hu, inLen_of_view hu]) hr)
    (fun _ _ hr => rleEncodeStep_refuses hr) (by rw [runLength_of_view h hp]; exact view_afterRun h hp _)

/-- The match finder's registers are no part of the view: where a match is emitted they must agree besides. -/
theorem emitMatch_of_view (hlen : s'.bestLen = s.bestLen) (ho : s'.bestO = s.bestO) :
    resultView (emitMatch s') = resultView (emitMatch s) :=
  resultView_of_room h (fun _ _ hr => emitMatch_of_room hr) (fun _ _ hr => emitMatch_refuses hr)
    (view_afterEmitMatch h hlen ho)

theorem emitLiteral_of_view (hp : s.pos < s.inLen) : resultView (emitLiteral s') = resultView (emitLiteral s) :=
  resultView_of_room h (fun _ _ hr => emitLiteral_of_room hr) (fun _ _ hr => emitLiteral_refuses hr)
    (view_afterEmitLiteral h hp)

theorem lzEncodeStep_of_view (hp : s.pos < s.inLen) : resultView (lzEncodeStep s') = resultView (lzEncodeStep s) := by
  have hlen := findBest_bestLen_of_view h s.pos
  have hbest := view_findBest h s.pos
  simp only [lzEncodeStep, pos_of_view h, hlen]
  split
  · rename_i hmin
    exact emitMatch_of_view hbest hlen (findBest_bestO_of_view h (Nat.le_trans (by decide) hmin))
  · exact emitLiteral_of_view hbest (by simpa using hp)

theorem execRlePair_of_view (count value : Byte) :
    resultView (execRlePair count value s') = resultView (execRlePair count value s) := by
  by_cases h0 : count = 0
  · simp only [h0, execRlePair_zero, pos_of_view h]
    exact raise_of_view h ..
  · exact resultView_of_room h (fun _ _ hr => execRlePair_of_room h0 hr) (fun _ _ hr => execRlePair_refuses h0 hr)
      (view_afterPair h count value)

theorem rleDecodeStep_of_view (hp : s.pos < s.inLen) :
    resultView (rleDecodeStep s') = resultView (rleDecodeStep s) := by
  simp only [rleDecodeStep, operandByte_of_view h, pos_of_view h, inByte_of_view h hp, execRleIllegalOddLength,
    execRleIllegalZeroCount, inLen_of_view h]
  split
  · exact raise_of_view h ..
  · split
    · exact raise_of_view h ..
    · exact execRlePair_of_view h ..

theorem missingLiteral_of_view : resultView (missingLiteral s') = resultView (missingLiteral s) := by
  simp only [missingLiteral, pos_of_view h]
  exact raise_of_view (view_tagFetched h ..) ..

theorem incompleteMatch_of_view : resultView (incompleteMatch s') = resultView (incompleteMatch s) := by
  simp only [incompleteMatch, pos_of_view h, inLen_of_view h]
  exact raise_of_view (view_tagFetched h ..) ..

theorem execLzLit_of_view (b : Option Byte) : resultView (execLzLit b s') = resultView (execLzLit b s) := by
  cases b with
  | none => exact missingLiteral_of_view h
  | some b =>
    by_cases hl : s.pos + 1 < s.inLen
    · have hin (u : State) (hu : operationView u = operationView s) : u.pos + 1 < u.inLen := by
        rwa [pos_of_view hu, inLen_of_view hu]
      exact resultView_of_room h (fun u hu hr => execLzLit_of_room (hin u hu) hr)
        (fun u hu hr => execLzLit_refuses (hin u hu) hr) (view_afterLiteral h b)
    · simp only [execLzLit, pos_of_view h, inLen_of_view h, if_pos (Nat.le_of_not_lt hl)]
      exact missingLiteral_of_view h

/-- The copy of a match whose checks have passed (R148). -/
theorem execLzMatch_copy_of_view {o l : Byte} (hl : s.pos + 2 < s.inLen) (ho : o.toNat ≤ s.outLen)
    (hz : o ≠ 0 ∨ l = 0) :
    resultView (execLzMatch (some o) (some l) s') = resultView (execLzMatch (some o) (some l) s) := by
  have hin (u : State) (hu : operationView u = operationView s) : u.pos + 2 < u.inLen := by
    rwa [pos_of_view hu, inLen_of_view hu]
  have hout (u : State) (hu : operationView u = operationView s) : o.toNat ≤ u.outLen := by
    rwa [outLen_of_view hu]
  have hafter := view_afterMatch h ho hz
  by_cases hl0 : l = 0
  · rw [execLzMatch_of_room (hin s rfl) (hout s rfl) hz (.inl hl0),
      execLzMatch_of_room (hin s' h) (hout s' h) hz (.inl hl0)]
    exact congrArg some hafter
  · have ho0 : o ≠ 0 := hz.resolve_right hl0
    exact resultView_of_room h (fun u hu hr => execLzMatch_of_room (hin u hu) (hout u hu) hz (.inr hr))
      (fun u hu hr => execLzMatch_refuses (hin u hu) ho0 (hout u hu) (toNat_pos hl0) hr) hafter

theorem execLzMatch_of_view (o l : Option Byte) :
    resultView (execLzMatch o l s') = resultView (execLzMatch o l s) := by
  rcases o with _ | o
  · exact incompleteMatch_of_view h
  rcases l with _ | l
  · exact incompleteMatch_of_view h
  by_cases hl : s.pos + 2 < s.inLen
  · by_cases ho : o.toNat ≤ s.outLen
    · by_cases hz : o = 0 ∧ 1 ≤ l.toNat
      · simp only [execLzMatch, inLen_of_view h, pos_of_view h, outLen_of_view h, if_neg (Nat.not_le_of_lt hl),
          if_neg (Nat.not_lt_of_le ho), if_pos hz]
        exact raise_of_view (view_matchFetched h ..) ..
      · have hz' : o ≠ 0 ∨ l = 0 := not_and_or.1 (fun hz0 => hz ⟨hz0.1, toNat_pos hz0.2⟩) |>.imp_right not_not.1
        exact execLzMatch_copy_of_view h hl ho hz'
    · simp only [execLzMatch, inLen_of_view h, pos_of_view h, outLen_of_view h, if_neg (Nat.not_le_of_lt hl),
        if_pos (Nat.lt_of_not_le ho)]
      exact raise_of_view (view_matchFetched h ..) ..
  · simp only [execLzMatch, inLen_of_view h, pos_of_view h, if_pos (Nat.le_of_not_lt hl)]
    exact incompleteMatch_of_view h

theorem lzDecodeStep_of_view (hp : s.pos < s.inLen) : resultView (lzDecodeStep s') = resultView (lzDecodeStep s) := by
  simp only [lzDecodeStep, operandByte_of_view h, pos_of_view h, inByte_of_view h hp, execLzIllegalTag]
  split
  · exact execLzLit_of_view h ..
  · split
    · exact execLzMatch_of_view h ..
    · exact raise_of_view (view_tagFetched h ..) ..

/-! ### So is each command's step, and so is each run -/

/-- One token, or completion, at the same `POS` of the same input. -/
theorem bodyStep_of_view {token : State → Result}
    (htoken : s.pos < s.inLen → resultView (token s') = resultView (token s)) :
    resultView (if s'.pos < s'.inLen then token s' else complete s') =
      resultView (if s.pos < s.inLen then token s else complete s) :=
  resultView_ite (by rw [pos_of_view h, inLen_of_view h]) htoken fun _ => complete_of_view h

theorem execRleCompress_of_view : resultView (execRleCompress s') = resultView (execRleCompress s) := by
  have hbody := bodyStep_of_view h (rleEncodeStep_of_view h)
  cases hp : s.phase <;> simp only [execRleCompress, phase_of_view h, hp]
  case prologue => exact prologue_of_view h _
  case lengthTest => exact hbody
  case body => exact hbody

theorem execLzCompress_of_view : resultView (execLzCompress s') = resultView (execLzCompress s) := by
  have hbody := bodyStep_of_view h (lzEncodeStep_of_view h)
  cases hp : s.phase <;> simp only [execLzCompress, phase_of_view h, hp]
  case prologue => exact prologue_of_view h _
  case lengthTest => exact hbody
  case body => exact hbody

theorem execRleDecompress_of_view : resultView (execRleDecompress s') = resultView (execRleDecompress s) := by
  cases hp : s.phase <;>
    simp only [execRleDecompress, execRleIllegalOddLength, phase_of_view h, hp]
  case prologue => exact prologue_of_view h _
  case lengthTest =>
    refine resultView_ite (by rw [inLen_of_view h]) (fun _ => ?_) fun _ => congrArg some (view_phase h _)
    rw [inLen_of_view h]
    exact raise_of_view h ..
  case body => exact bodyStep_of_view h (rleDecodeStep_of_view h)

theorem execLzDecompress_of_view : resultView (execLzDecompress s') = resultView (execLzDecompress s) := by
  have hbody := bodyStep_of_view h (lzDecodeStep_of_view h)
  cases hp : s.phase <;> simp only [execLzDecompress, phase_of_view h, hp]
  case prologue =>
    have hinit (u : State) (hu : u.phase = .prologue) :
        operationView (if u.inValid then { u with dstate := .expectTag, phase := .prologue } else u) =
          operationView u := by
      rw [← hu]
      split <;> rfl
    have hp' : s'.phase = .prologue := (phase_of_view h).trans hp
    exact prologue_of_view ((hinit s' hp').trans (h.trans (hinit s hp).symm)) _
  case lengthTest => exact hbody
  case body => exact hbody

theorem execCommand_of_view (w : BitVec 2) :
    resultView (exec (decodeCommand w) s') = resultView (exec (decodeCommand w) s) := by
  rcases cmd_cases w with rfl | rfl | rfl | rfl
  · exact execRleCompress_of_view h
  · exact execRleDecompress_of_view h
  · exact execLzCompress_of_view h
  · exact execLzDecompress_of_view h

/-- Where no move of the HOST is listed, a step is a function of the view. -/
theorem step_of_view (ha : s.agenda = []) : resultView (step s') = resultView (step s) := by
  have ha' : s'.agenda = [] := (agenda_of_view h).trans ha
  have hstatus := status_of_view h
  by_cases hb : s.status = .busy
  · rw [step_busy ha hb, step_busy ha' (hstatus.trans hb), cmd_of_view h]
    exact execCommand_of_view h _
  · rw [step_idle ha hb, step_idle ha' (by rwa [hstatus])]
    exact congrArg some h

end sameView

/-- Where no move of the HOST is listed, a run is a function of the view. -/
theorem runSteps_of_view {s s' t : State} {n : Nat} (h : operationView s' = operationView s) (ha : s.agenda = [])
    (hrun : runSteps n s = .next t) : ∃ t', runSteps n s' = .next t' ∧ operationView t' = operationView t := by
  induction n generalizing s s' with
  | zero => cases hrun; exact ⟨s', rfl, h⟩
  | succ n ih =>
    rw [runSteps_succ] at hrun
    obtain ⟨u, hu, hrun⟩ := andThen_eq_next hrun
    have hview : resultView (step s') = some (operationView u) := by rw [step_of_view h ha, hu, resultView_next]
    obtain ⟨u', hu', huv⟩ := eq_next_of_resultView hview
    obtain ⟨-, -, hagenda⟩ := sameInput_of_inputView (step_inputView ha hu)
    rw [runSteps_succ, hu']
    exact ih huv (hagenda.trans ha) hrun

/-! ### START, and the statement -/

/-- START leaves a view of the command, the parameters and the input alone, whatever ran before. -/
theorem view_begun {s s' : State} (hcmd : s'.cmd = s.cmd) (hvalid : s'.inValid = s.inValid) (hlen : s'.inLen = s.inLen)
    (hparams : s'.params = s.params) (hbytes : ∀ i, i < s.inLen → inByte s' i = inByte s i) :
    operationView (begun s') = operationView (begun s) := by
  have hinput : inputBytes s' = inputBytes s := by
    rw [inputBytes, hlen]
    exact List.map_congr_left fun i hi => hbytes i (List.mem_range.1 hi)
  have h (u : State) : operationView (begun u) =
      ⟨u.cmd, u.inValid, u.params, .busy, .prologue, 0, .none, .none, 0, 0, 0, [], inputBytes u, []⟩ := rfl
  rw [h, h, hcmd, hvalid, hparams, hinput]

/-- A run from START on changes nothing of the input (R41). -/
theorem sameInput_of_runSteps {s t : State} {n : Nat} (hb : s.status ≠ .busy) (ha : s.agenda = [.host .start])
    (hrun : runSteps n s = .next t) : SameInput s t := by
  cases n with
  | zero => cases hrun; exact ⟨rfl, rfl, rfl, rfl, fun _ => rfl⟩
  | succ n =>
    rw [runSteps_succ, step_start hb ha] at hrun
    exact (theEngineNeverWritesTheInput (begun s) t rfl ⟨n, hrun⟩).1

/-- Settles O58: START makes the views equal, and equal views go through equal runs. -/
theorem outcomesDependOnTheInputOnly : Obligations.OutcomesDependOnTheInputOnly := by
  intro s s' hb hb' ha ha' hcmd hvalid hlen hparams hbytes n t hrun
  have hsame := sameInput_of_runSteps hb ha hrun
  cases n with
  | zero => exact ⟨s', rfl, nofun, hsame, sameInput_of_runSteps hb' ha' (n := 0) rfl⟩
  | succ n =>
    have hview := view_begun hcmd hvalid hlen hparams hbytes
    rw [runSteps_succ, step_start hb ha] at hrun
    obtain ⟨t', hrun', ht⟩ := runSteps_of_view hview rfl hrun
    have hrun' : runSteps (n + 1) s' = .next t' := by rw [runSteps_succ, step_start hb' ha']; exact hrun'
    exact ⟨t', hrun', fun _ => ⟨status_of_view ht, returned_of_view ht⟩, hsame, sameInput_of_runSteps hb' ha' hrun'⟩

end Sys2Proof.Machine
end

section
/-! The pair instructions of the RLE decoder (R112, R113): what a pair appends and leaves unchanged, the failure of a zero
count, and that under the invariant a whole pair stands at `POS`. -/

namespace Sys2Proof.Machine

/-! ### A pair with a non-zero count (R112) -/

/-- A pair appends its value `count` times and nothing else. -/
theorem appended_afterPair (count value : Byte) (s : State) :
    Appended (List.replicate count.toNat value) s (afterPair count value s) :=
  (appended_of_outputView rfl).1

/-- Beside `OUT` a pair moves `POS` only. -/
theorem afterPair_frame (count value : Byte) (s : State) :
    (afterPair count value s).status = s.status ∧ SameInput s (afterPair count value s) ∧
      SameFailure s (afterPair count value s) ∧ SameEncoderRegs s (afterPair count value s) ∧
      SameDecoderRegs s (afterPair count value s) :=
  have hinput : SameInput s (afterPair count value s) := (sameInput_of_inputView rfl).1
  ⟨rfl, hinput, ⟨rfl, rfl, rfl, rfl, rfl⟩, ⟨⟨rfl, rfl⟩, rfl, rfl, rfl, rfl⟩, rfl, rfl, rfl, rfl, rfl, rfl⟩

/-! ### A pair with a zero count (R113) -/

/-- The failure entry of R166 writes no working register of an encoder or a decoder. -/
theorem failed_workingRegs (kd : ErrKind) (c : ErrCause) (p i0 i1 : Nat) (s : State) :
    SameEncoderRegs s (failed kd c p i0 i1 s) ∧ SameDecoderRegs s (failed kd c p i0 i1 s) :=
  ⟨⟨⟨rfl, rfl⟩, rfl, rfl, rfl, rfl⟩, rfl, rfl, rfl, rfl, rfl, rfl⟩

theorem execRleIllegalZeroCount_eq (value : Byte) (s : State) :
    execRleIllegalZeroCount value s = .next (failed .invalidFormat .rleZeroCount s.pos 0 0 s) := rfl

/-! ### The pair at `POS` -/

/-- Inside an even stream an even `POS` stands at a whole pair (R111, R112). -/
theorem Inv.pair_whole {s : State} (hi : Inv s) (hb : s.status = .busy) (hc : s.cmd = 0b01) (hp : s.phase = .body)
    (hl : s.pos < s.inLen) : s.pos + 1 < s.inLen := by
  obtain ⟨hpos, hlen⟩ := hi.pairsEven hb hc hp
  omega

/-- The ENGINE's step on a whole pair is that pair's (R110). -/
theorem step_pair {s : State} (ha : s.agenda = []) (hb : s.status = .busy) (hc : s.cmd = 0b01) (hp : s.phase = .body)
    (hl : s.pos + 1 < s.inLen) : step s = exec (.rlePair (inByte s s.pos) (inByte s (s.pos + 1))) s :=
  calc step s
    _ = exec .rleDecompress s := by rw [step_busy ha hb, hc]; rfl
    _ = rleDecodeStep s := exec_rleDecompress_body hp (Nat.lt_of_succ_lt hl)
    _ = exec (.rlePair (inByte s s.pos) (inByte s (s.pos + 1))) s := rleDecodeStep_eq hl

/-! ### The statements -/

/-- Settles O16: the state after a pair, the failure of a zero count, and the whole pair the invariant gives. -/
theorem pairsRepeatTheirValue : Obligations.PairsRepeatTheirValue := by
  refine ⟨fun count value s => ⟨fun h0 hroom => ?pair, ?zero⟩, fun s hi hb ha hc hp hl => ?atPos⟩
  case pair =>
    exact ⟨_, execRlePair_of_room h0 hroom, appended_afterPair count value s, rfl, afterPair_frame count value s⟩
  case zero =>
    rintro rfl
    exact ⟨_, execRlePair_zero value s, failedWith_failed .., failed_workingRegs ..⟩
  case atPos =>
    have hwhole := hi.pair_whole hb hc hp hl
    exact ⟨hwhole, step_pair ha hb hc hp hwhole⟩

/-- Settles O17: both instructions answer the one state that failure entry leaves. -/
theorem zeroCountFails : Obligations.ZeroCountFails := by
  intro value s
  obtain ⟨hencoder, hdecoder⟩ := failed_workingRegs .invalidFormat .rleZeroCount s.pos 0 0 s
  exact ⟨_, execRleIllegalZeroCount_eq value s, failedWith_failed .., hencoder, hdecoder, execRlePair_zero value s⟩

end Sys2Proof.Machine
end

section
/-! The statements about the match finder (spec/43_lz77_match_finder.md R120 to R126): the length of one candidate as the
largest agreement, the window, and what the search finds in it, reads and writes. -/

namespace Sys2Proof.Machine

/-! ### The length of one candidate is the largest agreement (R122) -/

theorem matchesOver_matchLen (s : State) (pos o : Nat) : MatchesOver s pos o (matchLen s pos o) :=
  ⟨matchLen_le s pos o, matchLen_le_rest s pos o, fun j hj => ((matchLen_isMatchLen s pos o).agree j hj).2⟩

/-- What ends the loop of `MatchLen` ends every agreement: the cap, the end of the input, or two bytes that differ. -/
theorem MatchesOver.le_matchLen {s : State} {pos o L : Nat} (h : MatchesOver s pos o L) : L ≤ matchLen s pos o := by
  obtain ⟨hcap, hrest, hagree⟩ := h
  by_contra hlt
  rcases (matchLen_isMatchLen s pos o).maximal with hmax | hend | hdiff
  · rw [hmax, Config.maxMatch] at hlt
    omega
  · omega
  · exact hdiff (hagree _ (by omega))

theorem matchLen_eq_zero_of_ne {s : State} {pos o : Nat} (hne : inByte s o ≠ inByte s pos) : matchLen s pos o = 0 := by
  obtain ⟨-, -, hagree⟩ := matchesOver_matchLen s pos o
  by_contra hpos
  exact hne (hagree 0 (Nat.pos_of_ne_zero hpos))

/-! ### The window (R121, R126) -/

theorem candidates_ascending (pos : Nat) : (candidates pos).Pairwise (· < ·) :=
  List.pairwise_lt_range'

theorem findBest_zero (s : State) : findBest 0 s = beginSearch 0 s := rfl

theorem findBest_bestLen_le (s : State) (pos : Nat) :
    (findBest pos s).bestLen.toNat ≤ min 255 (s.inLen - pos) :=
  le_min (Nat.le_of_lt_succ (findBest pos s).bestLen.isLt) (findBest_bestLen_le_rest s pos)

/-! ### The first of the longest (R124) -/

/-- No candidate of the best length stands before the one kept. -/
theorem BestOf.bestO_le_of_matchLen_eq {s t : State} {pos o : Nat} {os : List Nat} (h : BestOf s pos os t)
    (hpos : 1 ≤ t.bestLen.toNat) (ho : o ∈ os) (heq : matchLen s pos o = t.bestLen.toNat) : t.bestO ≤ o := by
  obtain ⟨-, -, hfirst⟩ := h.first hpos
  by_contra hlt
  exact absurd heq (Nat.ne_of_lt (hfirst o ho (by omega)))

/-! ### The search reads the input only (R120) -/

/-- An agreement stays inside the input, so it is the same for two states with the same input. -/
theorem MatchesOver.of_sameInput {s s' : State} {pos o L : Nat} (h : MatchesOver s pos o L) (ho : o < pos)
    (hl : s'.inLen = s.inLen) (hb : ∀ i, i < s.inLen → inByte s' i = inByte s i) : MatchesOver s' pos o L := by
  obtain ⟨hcap, hrest, hagree⟩ := h
  refine ⟨hcap, hl ▸ hrest, fun j hj => ?_⟩
  rw [hb (o + j) (by omega), hb (pos + j) (by omega)]
  exact hagree j hj

theorem matchLen_of_sameInput {s s' : State} {pos o : Nat} (ho : o < pos) (hl : s'.inLen = s.inLen)
    (hb : ∀ i, i < s.inLen → inByte s' i = inByte s i) : matchLen s' pos o = matchLen s pos o := by
  have hb' : ∀ i, i < s'.inLen → inByte s i = inByte s' i := fun i hi => (hb i (hl ▸ hi)).symm
  apply Nat.le_antisymm
  · exact ((matchesOver_matchLen s' pos o).of_sameInput ho hl.symm hb').le_matchLen
  · exact ((matchesOver_matchLen s pos o).of_sameInput ho hl hb).le_matchLen

/-- The match lengths of the candidates determine the best length. -/
theorem BestOf.bestLen_eq {s s' t t' : State} {pos : Nat} {os : List Nat} (h : BestOf s pos os t)
    (h' : BestOf s' pos os t') (hm : ∀ o ∈ os, matchLen s' pos o = matchLen s pos o) : t'.bestLen = t.bestLen :=
  BitVec.eq_of_toNat_eq (Nat.le_antisymm (h'.bestLen_le h fun o ho => (hm o ho).symm) (h.bestLen_le h' hm))

/-- The match lengths of the candidates determine the one that is kept, where it has a match. -/
theorem BestOf.bestO_eq {s s' t t' : State} {pos : Nat} {os : List Nat} (h : BestOf s pos os t)
    (h' : BestOf s' pos os t') (hm : ∀ o ∈ os, matchLen s' pos o = matchLen s pos o)
    (hpos : 1 ≤ t.bestLen.toNat) : t'.bestO = t.bestO := by
  have hlen := h.bestLen_eq h' hm
  apply Nat.le_antisymm
  · exact h'.bestO_le h (fun o ho => (hm o ho).symm) hlen.symm (by rwa [hlen])
  · exact h.bestO_le h' hm hlen hpos

/-! ### The statements -/

/-- Settles O21: an agreement over `MatchLen` bytes, the bound on every other, and no agreement where the first bytes
differ. -/
theorem matchLenIsTheLongestAgreement : Obligations.MatchLenIsTheLongestAgreement :=
  fun s pos o _ _ => ⟨matchesOver_matchLen s pos o, fun _ h => h.le_matchLen, matchLen_eq_zero_of_ne⟩

/-- Settles O22: the window as a list, and a match found is a candidate of it. -/
theorem theWindowHoldsTwentyCandidates : Obligations.TheWindowHoldsTwentyCandidates := by
  intro s pos _
  refine ⟨fun _ => mem_candidates, candidates_ascending pos, candidates_length pos, findBest_bestLen_le s pos,
    fun hmatch => ?distance, ?atZero⟩
  case distance =>
    obtain ⟨hstart, hbefore, -⟩ := findBest_bestO hmatch
    omega
  case atZero => rw [findBest_zero, beginSearch_bestLen]

/-- Settles O23: the search keeps the first of the longest, and an earlier candidate has the larger distance. -/
theorem findBestTakesTheFirstLongest : Obligations.FindBestTakesTheFirstLongest := by
  intro s pos _
  have hbest := findBest_bestOf s pos
  refine ⟨fun o hstart hbefore => hbest.greatest o (mem_candidates.2 ⟨hstart, hbefore⟩), fun hmatch => ?_⟩
  obtain ⟨hstart, hbefore, hlen⟩ := findBest_bestO hmatch
  refine ⟨hstart, hbefore, hlen, fun o ho hop heq => ?_⟩
  have hle := hbest.bestO_le_of_matchLen_eq hmatch (mem_candidates.2 ⟨ho, hop⟩) heq
  exact ⟨hle, Nat.sub_le_sub_left hle pos⟩

/-- Settles O24: the same input gives every candidate the same length, and the frame is that of the search. -/
theorem theMatchFinderReadsTheInputOnly : Obligations.TheMatchFinderReadsTheInputOnly := by
  refine ⟨fun s s' pos _ hl hb => ?reads, fun s pos => ⟨_, _, _, _, findBest_frame s pos⟩⟩
  case reads =>
    have hm : ∀ o ∈ candidates pos, matchLen s' pos o = matchLen s pos o :=
      fun o ho => matchLen_of_sameInput (mem_candidates.1 ho).2 hl hb
    have hbest := findBest_bestOf s pos
    have hbest' := findBest_bestOf s' pos
    refine ⟨hbest.bestLen_eq hbest' hm, fun hmatch => ?_⟩
    obtain ⟨hstart, hbefore, -⟩ := findBest_bestO hmatch
    exact ⟨hbest.bestO_eq hbest' hm hmatch, hstart, hbefore⟩

end Sys2Proof.Machine
end

section
/-! The statements about the LZ77 token encoder (spec/44_lz77_token_encoder.md R130 to R135): what a token's step appends and
what it leaves unchanged, for a match and for a literal. -/

namespace Sys2Proof.Machine

/-! ### What the two emit steps share -/

/-- The state after a search at `p`, the append of a token's bytes `vs` and the move of `POS` to `q`. -/
def tokenEmitted (p q : Nat) (vs : List Byte) (s : State) : State := { pushed vs (findBest p s) with pos := q }

theorem afterEmitMatch_findBest (s : State) :
    afterEmitMatch (findBest s.pos s) = tokenEmitted s.pos (s.pos + (findBest s.pos s).bestLen.toNat)
      [0x01, BitVec.ofNat 8 (s.pos - (findBest s.pos s).bestO), (findBest s.pos s).bestLen] s := by
  simp only [afterEmitMatch, tokenEmitted, findBest_pos, Config.tagMatch]

theorem afterEmitLiteral_findBest (s : State) :
    afterEmitLiteral (findBest s.pos s) = tokenEmitted s.pos (s.pos + 1) [0x00, inByte s s.pos] s := by
  simp only [afterEmitLiteral, tokenEmitted, findBest_pos, inByte_findBest, Config.tagLiteral]

/-- The token's bytes are appended to the `OUT` that stood before the search (R120). -/
theorem appended_tokenEmitted (p q : Nat) (vs : List Byte) (s : State) : Appended vs s (tokenEmitted p q vs s) :=
  (appended_of_outputView (by simp [outputView_eq_iff, tokenEmitted])).1

/-- Beside `OUT` a token's step moves `POS` and leaves the finder's registers as its search did. -/
theorem tokenEmitted_frame (p q : Nat) (vs : List Byte) (s : State) :
    (tokenEmitted p q vs s).status = s.status ∧ SameFinderRegs (findBest p s) (tokenEmitted p q vs s) ∧
      SameInput s (tokenEmitted p q vs s) ∧ SameFailure s (tokenEmitted p q vs s) ∧
      SameRunRegs s (tokenEmitted p q vs s) ∧ SameDecoderRegs s (tokenEmitted p q vs s) := by
  have hinput : SameInput s (tokenEmitted p q vs s) := (sameInput_of_inputView (inputView_findBest p s)).1
  refine ⟨findBest_status p s, ⟨rfl, rfl, rfl, rfl⟩, hinput, ?failure, ?run, ?decoder⟩
  case failure => simp [SameFailure, tokenEmitted]
  case run => simp [SameRunRegs, tokenEmitted]
  case decoder => simp [SameDecoderRegs, SameMatchRegs, tokenEmitted]

/-! ### The statements -/

/-- Settles O25: the token after the search; its offset is a distance inside the window, and the match ends inside the
input. -/
theorem longMatchesAreEmitted : Obligations.LongMatchesAreEmitted := by
  intro s hphase hinput hlong hroom
  have hstep : exec .lzCompress s = .next (afterEmitMatch (findBest s.pos s)) :=
    (exec_lzCompress_body hphase hinput).trans (lzEncodeStep_of_match hlong hroom)
  rw [afterEmitMatch_findBest] at hstep
  obtain ⟨hwindow, hbefore, -⟩ := findBest_bestO (Nat.le_of_add_left_le (k := 2) hlong)
  have hrest : s.pos + (findBest s.pos s).bestLen.toNat ≤ s.inLen := by
    have := findBest_bestLen_le_rest s s.pos
    omega
  exact ⟨_, hstep, appended_tokenEmitted .., by omega, by omega, rfl, hrest, tokenEmitted_frame ..⟩

/-- Settles O26: a match too short for a token gives way to the literal, and its search writes only its own registers. -/
theorem shortMatchesGiveWayToLiterals : Obligations.ShortMatchesGiveWayToLiterals := by
  intro s hphase hinput hshort hroom
  have hstep : exec .lzCompress s = .next (afterEmitLiteral (findBest s.pos s)) :=
    (exec_lzCompress_body hphase hinput).trans (lzEncodeStep_of_literal hshort hroom)
  rw [afterEmitLiteral_findBest] at hstep
  exact ⟨_, hstep, appended_tokenEmitted .., rfl, tokenEmitted_frame ..⟩

end Sys2Proof.Machine
end

section
/-! The statements about the LZ77 token decoder (spec/45_lz77_token_decoder.md R140 to R152): the failures of a token, which
are entered after the fetch of its bytes, and the copy of a match. -/

namespace Sys2Proof.Machine

/-! ### A failure after the fetch of a token's bytes (R166) -/

/-- The fetch of a tag hides nothing from the failure entry: the input and the registers of R23 to R25 other than `TAG` and
`DSTATE` are those from before the fetch. -/
theorem failedWith_tagFetched (kd : ErrKind) (c : ErrCause) (p i0 i1 : Nat) (tg : Byte) (d : DState) (s : State) :
    FailedWith kd c p i0 i1 s (failed kd c p i0 i1 (tagFetched tg d s)) ∧
      SameEncoderRegs s (failed kd c p i0 i1 (tagFetched tg d s)) ∧
      SameMatchRegs s (failed kd c p i0 i1 (tagFetched tg d s)) :=
  ⟨failedWith_failed kd c p i0 i1 (tagFetched tg d s), ⟨⟨rfl, rfl⟩, rfl, rfl, rfl, rfl⟩, rfl, rfl, rfl, rfl⟩

/-- Nor does the fetch of a whole match, which writes `M_OFF` and `M_LEN` too (R145). -/
theorem failedWith_matchFetched (kd : ErrKind) (c : ErrCause) (p i0 i1 : Nat) (o l : Byte) (s : State) :
    FailedWith kd c p i0 i1 s (failed kd c p i0 i1 (matchFetched o l s)) ∧
      SameEncoderRegs s (failed kd c p i0 i1 (matchFetched o l s)) :=
  ⟨failedWith_failed kd c p i0 i1 (matchFetched o l s), ⟨rfl, rfl⟩, rfl, rfl, rfl, rfl⟩

/-! ### The copy of a match (R148) -/

/-- The copied bytes in terms of the offset: the last `off` bytes of the output, repeated. -/
theorem periodicBytes_of_offset {s : State} {off : Nat} (hoff : off ≤ s.outLen) (n : Nat) :
    periodicBytes s (s.outLen - off) n = (List.range n).map fun j => outByte s (s.outLen - off + j % off) := by
  rw [periodicBytes, Nat.sub_sub_self hoff]

/-- Once the repeated bytes are appended, each equals the byte `off` places before it: one of the output before where
`j < off`, an appended one of the same remainder otherwise. -/
theorem outByte_repeated {s t : State} {off n : Nat} (hoff : off ≤ s.outLen)
    (h : Appended ((List.range n).map fun j => outByte s (s.outLen - off + j % off)) s t) {j : Nat} (hj : j < n) :
    outByte t (s.outLen + j) = outByte t (s.outLen - off + j) := by
  obtain ⟨-, hnew, hold⟩ := h
  have hread : ∀ i, i < n → outByte t (s.outLen + i) = outByte s (s.outLen - off + i % off) := fun i hi => by
    simpa using hnew ⟨i, by simpa using hi⟩
  by_cases hbefore : j < off
  · rw [hread j hj, Nat.mod_eq_of_lt hbefore, hold _ (.inl (by omega))]
  · have hplace : s.outLen - off + j = s.outLen + (j - off) := by omega
    rw [hread j hj, hplace, hread _ (by omega), Nat.mod_eq_sub_mod (Nat.le_of_not_lt hbefore)]

theorem appended_afterMatch (o l : Byte) (s : State) :
    Appended (periodicBytes s (s.outLen - o.toNat) l.toNat) s (afterMatch o l s) :=
  (appended_of_outputView rfl).1

/-- Beside `OUT`, `POS` and the decoder's registers a match changes nothing. -/
theorem afterMatch_frame (o l : Byte) (s : State) :
    (afterMatch o l s).status = s.status ∧ SameInput s (afterMatch o l s) ∧ SameFailure s (afterMatch o l s) ∧
      SameEncoderRegs s (afterMatch o l s) :=
  have hinput : SameInput s (afterMatch o l s) := (sameInput_of_inputView rfl).1
  ⟨rfl, hinput, ⟨rfl, rfl, rfl, rfl, rfl⟩, ⟨rfl, rfl⟩, rfl, rfl, rfl, rfl⟩

/-! ### The unassigned tag at `POS` (R142, R149) -/

theorem lzDecodeStep_illegalTag {s : State} (h : 2 ≤ (inByte s s.pos).toNat) :
    lzDecodeStep s = execLzIllegalTag (inByte s s.pos) s := by
  have hliteral : inByte s s.pos ≠ Config.tagLiteral := fun e => absurd h (by rw [e]; decide)
  have hmatch : inByte s s.pos ≠ Config.tagMatch := fun e => absurd h (by rw [e]; decide)
  exact (if_neg hliteral).trans (if_neg hmatch)

/-! ### The statements -/

/-- Settles O33: the copied bytes in terms of the offset, what each repeats, and the state after the copy. -/
theorem matchesCopyByteByByte : Obligations.MatchesCopyByteByByte := by
  intro offset length s hwhole hoffset hproduced hroom
  have hcopied := appended_afterMatch offset length s
  rw [periodicBytes_of_offset hproduced] at hcopied
  exact ⟨_, execLzMatch_of_room hwhole hproduced (.inl hoffset) (.inr hroom), hcopied,
    fun j hj => outByte_repeated hproduced hcopied hj, rfl, rfl, rfl, rfl, rfl, rfl, rfl, afterMatch_frame ..⟩

/-- Settles O34: the failure in every state, and the dispatch on a tag that is neither of the two assigned ones. -/
theorem anIllegalTagFails : Obligations.AnIllegalTagFails := by
  refine ⟨fun tag s => ⟨_, execLzIllegalTag_eq tag s, failedWith_tagFetched ..⟩, fun s hb ha hc hp hl htag => ?dispatch⟩
  case dispatch =>
    calc step s
      _ = exec .lzDecompress s := by rw [step_busy ha hb, hc]; rfl
      _ = lzDecodeStep s := exec_lzDecompress_body hp hl
      _ = exec (.lzIllegalTag (inByte s s.pos)) s := lzDecodeStep_illegalTag htag

/-- Settles O29: the absent operand and the tag that ends the input lead to one failure. -/
theorem aMissingLiteralFails : Obligations.AMissingLiteralFails := by
  intro byte s habsent
  have hstep : exec (.lzLit byte) s = .next (afterMissingLiteral s) := by
    rcases habsent with rfl | hlast
    · exact execLzLit_none s
    · exact execLzLit_truncated byte hlast
  exact ⟨_, hstep, failedWith_tagFetched ..⟩

/-- Settles O30: the check comes before the fields are read, and the detail counts the bytes behind the tag. -/
theorem anIncompleteMatchFails : Obligations.AnIncompleteMatchFails := by
  intro offset length s hinput hshort
  have hinfo : (afterIncompleteMatch s).errInfo0 = s.inLen - s.pos - 1 := rfl
  obtain ⟨hfailed, hregs⟩ := failedWith_tagFetched .invalidFormat .lzIncompleteMatch s.pos (s.inLen - s.pos - 1) 0
    Config.tagMatch .consumingMatch s
  exact ⟨_, execLzMatch_truncated offset length hshort, hfailed, by omega, hregs⟩

/-- Settles O31: the range check precedes every use of the length. -/
theorem anOffsetBeyondTheOutputFails : Obligations.AnOffsetBeyondTheOutputFails := fun _ _ _ hwhole hbeyond =>
  ⟨_, execLzMatch_offsetRange hwhole hbeyond, failedWith_matchFetched ..⟩

/-- Settles O32: the failure where there are bytes to copy, and the copy of no bytes where there are none. -/
theorem aZeroOffsetFailsUnlessNothingIsCopied : Obligations.AZeroOffsetFailsUnlessNothingIsCopied := by
  refine fun length s hwhole => ⟨fun hcopies => ?fails, ?copiesNothing⟩
  case fails => exact ⟨_, execLzMatch_zeroOffset hwhole hcopies, failedWith_matchFetched ..⟩
  case copiesNothing =>
    rintro rfl
    exact ⟨_, execLzMatch_of_room hwhole (Nat.zero_le _) (.inr rfl) (.inl rfl), appended_afterMatch 0 0 s, rfl,
      afterMatch_frame ..⟩

end Sys2Proof.Machine
end

section
/-! The statements about failures (spec/60_exceptions.md): what failure entry writes (R166), what a failing step leaves behind
it (R167), and the ways on from a failure (R168). -/

namespace Sys2Proof.Machine

/-! ### Failure entry (R166) -/

/-- With no move listed and no operation in progress, the machine stays where it is for good (R83). -/
theorem runSteps_idle {s : State} (ha : s.agenda = []) (hb : s.status ≠ .busy) (n : Nat) : runSteps n s = .next s := by
  induction n with
  | zero => rfl
  | succ n ih => rw [runSteps_succ, step_idle ha hb, andThen_next, ih]

/-- Settles O35: the record, the working registers, and the machine at rest in `ERROR`. -/
theorem failureEntryWritesTheRecordOnly : Obligations.FailureEntryWritesTheRecordOnly := by
  intro kind cause pos info0 info1 s
  obtain ⟨hencoder, hdecoder⟩ := failed_workingRegs kind cause pos info0 info1 s
  exact ⟨_, raise_eq .., failedWith_failed .., hencoder, hdecoder, rfl, rfl, rfl, rfl,
    fun ha => runSteps_idle (s := failed kind cause pos info0 info1 s) ha nofun⟩

/-! ### A step that fails (R167) -/

section fails -- a step of an operation in progress that ends in `ERROR` is a failure entry before `POS` has moved
variable {s t : State} (hb : s.status = .busy) (he : t.status = .error)
include hb he

theorem execRleCompress_fails (h : execRleCompress s = .next t) : t.outLen = 0 ∧ t.pos = s.pos := by
  rcases execRleCompress_cases h with ⟨-, -, rfl⟩ | ⟨-, -, rfl⟩ | ⟨-, -, rfl⟩ | ⟨-, -, -, rfl⟩
  · exact ⟨rfl, rfl⟩
  · exact nomatch hb.symm.trans he
  · cases he
  · exact nomatch hb.symm.trans he

theorem execLzCompress_fails (h : execLzCompress s = .next t) : t.outLen = 0 ∧ t.pos = s.pos := by
  rcases execLzCompress_cases h with ⟨-, -, rfl⟩ | ⟨-, -, rfl⟩ | ⟨-, -, rfl⟩ | ⟨-, -, -, -, rfl⟩ | ⟨-, -, -, -, rfl⟩
  · exact ⟨rfl, rfl⟩
  · exact nomatch hb.symm.trans he
  · cases he
  · exact nomatch hb.symm.trans ((findBest_status s.pos s).symm.trans he)
  · exact nomatch hb.symm.trans ((findBest_status s.pos s).symm.trans he)

theorem execRleDecompress_fails (h : execRleDecompress s = .next t) : t.outLen = 0 ∧ t.pos = s.pos := by
  rcases execRleDecompress_cases h with ⟨-, -, rfl⟩ | ⟨-, -, rfl⟩ | ⟨-, -, rfl⟩ | ⟨-, -, rfl⟩ | ⟨-, -, rfl⟩ |
    ⟨-, -, rfl⟩ | ⟨-, -, -, rfl⟩ | ⟨-, -, -, -, rfl⟩
  · exact ⟨rfl, rfl⟩
  · exact nomatch hb.symm.trans he
  · exact ⟨rfl, rfl⟩
  · exact nomatch hb.symm.trans he
  · cases he
  · exact ⟨rfl, rfl⟩
  · exact ⟨rfl, rfl⟩
  · exact nomatch hb.symm.trans he

theorem execLzDecompress_fails (h : execLzDecompress s = .next t) : t.outLen = 0 ∧ t.pos = s.pos := by
  rcases execLzDecompress_cases h with ⟨-, -, rfl⟩ | ⟨-, -, rfl⟩ | ⟨-, -, rfl⟩ | ⟨-, -, -, -, rfl⟩ | ⟨-, -, -, rfl⟩ |
    ⟨-, -, -, -, rfl⟩ | ⟨-, -, -, -, rfl⟩ | ⟨-, -, -, ⟨-, rfl⟩ | ⟨-, -, rfl⟩ | ⟨-, -, -, rfl⟩⟩
  · exact ⟨rfl, rfl⟩
  · exact nomatch hb.symm.trans he
  · cases he
  · exact ⟨rfl, rfl⟩
  · exact ⟨rfl, rfl⟩
  · exact nomatch hb.symm.trans he
  · exact ⟨rfl, rfl⟩
  · exact ⟨rfl, rfl⟩
  · exact ⟨rfl, rfl⟩
  · exact nomatch hb.symm.trans he

/-- A failing step leaves no output and its token unconsumed, whichever command `CMD` holds. -/
theorem execCommand_fails {w : BitVec 2} (h : exec (decodeCommand w) s = .next t) : t.outLen = 0 ∧ t.pos = s.pos := by
  rcases cmd_cases w with rfl | rfl | rfl | rfl
  · exact execRleCompress_fails hb he h
  · exact execRleDecompress_fails hb he h
  · exact execLzCompress_fails hb he h
  · exact execLzDecompress_fails hb he h

end fails

/-- In `ERROR` the HOST reads the failure record back, and no bytes (R85, R167). -/
theorem returned_of_error {s : State} (he : s.status = .error) :
    returned s = some (.failure s.errKind s.errCause s.errPos s.errInfo0 s.errInfo1) := by simp only [returned, he]

theorem outputBytes_of_outLen_eq_zero {s : State} (h : s.outLen = 0) : outputBytes s = [] :=
  List.eq_nil_of_length_eq_zero (by rw [outputBytes_length, h])

/-- Settles O36: the failing step's effect on the memories, with no output left and `POS` not moved. -/
theorem failuresArePreciseAndLeaveNoResult : Obligations.FailuresArePreciseAndLeaveNoResult := by
  intro s t hb ha h he
  rw [step_busy ha hb] at h
  obtain ⟨hempty, hpos⟩ := execCommand_fails hb he h
  obtain ⟨hview, ⟨-, hout⟩ | ⟨hne, -⟩⟩ := execCommand_effect hb h
  · obtain ⟨hinput, hin, -⟩ := sameInput_of_inputView hview
    exact ⟨hempty, hout, hin, hpos, hinput, returned_of_error he, outputBytes_of_outLen_eq_zero hempty⟩
  · exact absurd he hne

/-! ### The ways on from a result (R15, R85, R168) -/

/-- Every action of the HOST but START and reset leaves `STATUS` and the result as they are. -/
theorem hostAct_keeps_result {a : HostAction} {s t : State} (h : hostAct a s = .next t) :
    (t.status = s.status ∧ returned t = returned s) ∨ (a = .start ∧ t = started s) ∨ (a = .reset ∧ t = resetState s) := by
  rcases hostAct_cases h with ⟨-, hwrite⟩ | ⟨-, rfl⟩ | hreset
  · rcases hwrite with ⟨v, -, rfl⟩ | ⟨v, -, rfl⟩ | ⟨n, -, -, rfl⟩ | ⟨i, v, -, -, rfl⟩ | hstart
    · exact .inl ⟨rfl, rfl⟩
    · exact .inl ⟨rfl, rfl⟩
    · exact .inl ⟨rfl, rfl⟩
    · exact .inl ⟨rfl, rfl⟩
    · exact .inr (.inl hstart)
  · exact .inl ⟨rfl, rfl⟩
  · exact .inr (.inr hreset)

/-- While no operation is in progress, every step but START and reset leaves `STATUS` and the result as they are. -/
theorem step_keeps_result {s t : State} (hb : s.status ≠ .busy) (h : step s = .next t) :
    (t.status = s.status ∧ returned t = returned s) ∨
      (∃ rest, s.agenda = .host .start :: rest ∧ t = started { s with agenda := rest }) ∨
      ∃ rest, s.agenda = .host .reset :: rest ∧ t = resetState { s with agenda := rest } := by
  obtain ⟨r, hr, ⟨-, rfl⟩ | ⟨hbusy, -⟩ | ⟨a, rest, ha, hact⟩⟩ := step_cases h
  · obtain ⟨-, rfl⟩ | ⟨m, rest, -, rfl⟩ := hr
    · exact .inl ⟨rfl, rfl⟩
    · exact .inl ⟨rfl, rfl⟩
  · exact absurd hbusy hb
  · obtain ⟨hnil, -⟩ | ⟨m, rest', hcons, rfl⟩ := hr
    · exact nomatch ha.symm.trans hnil
    · obtain ⟨rfl, rfl⟩ := List.cons.inj (ha.symm.trans hcons)
      obtain hkept | ⟨rfl, ht⟩ | ⟨rfl, ht⟩ := hostAct_keeps_result hact
      · exact .inl hkept
      · exact .inr (.inl ⟨rest, ha, ht⟩)
      · exact .inr (.inr ⟨rest, ha, ht⟩)

/-- Settles O39: what START and reset write, and every other step keeps the failure. -/
theorem onlyStartOrResetLeavesAFailure : Obligations.OnlyStartOrResetLeavesAFailure := by
  intro s t he h
  have hb : s.status ≠ .busy := fun hb => nomatch he.symm.trans hb
  obtain ⟨hstatus, hresult⟩ | ⟨rest, ha, rfl⟩ | ⟨rest, ha, rfl⟩ := step_keeps_result hb h
  · exact .inl ⟨hstatus.trans he, hresult⟩
  · exact .inr (.inl ⟨rest, ha, rfl, rfl, rfl, rfl, rfl, rfl⟩)
  · exact .inr (.inr ⟨rest, ha, rfl, rfl⟩)

end Sys2Proof.Machine
end

section
/-! The statement about the HOST's rights while an operation is in progress (spec/70_reset_and_hazards.md R197, R198). -/

namespace Sys2Proof.Machine

/-! ### What the HOST gets when it reads (R15, R197) -/

/-- `STATUS` is read as its code, at any time (R15). -/
theorem hostReadReg_status (s : State) : hostReadReg .status s = .next (statusCode s.status).toNat := rfl

/-- `START` holds no value, at any time (R12). -/
theorem hostReadReg_start (s : State) : hostReadReg .start s = .refused .startIsWriteOnly := rfl

/-- Every register but START holds a value. -/
theorem exists_hostRegValue {r : HostReg} (s : State) (hr : r ≠ .start) : ∃ v, hostRegValue r s = some v := by
  cases r with
  | start => exact absurd rfl hr
  | cmd | inValid | inLen | status | outLen | errKind | errCause | errPos | errInfo0 | errInfo1 => exact ⟨_, rfl⟩

section whileBusy -- an operation is in progress
variable {s : State} (hb : s.status = .busy)
include hb

theorem hostReadReg_refuses_of_busy {r : HostReg} (hr : r ≠ .status) : ∃ e, hostReadReg r s = .refused e := by
  by_cases hstart : r = .start
  · subst hstart
    exact ⟨_, hostReadReg_start s⟩
  · obtain ⟨v, hv⟩ := exists_hostRegValue s hstart
    refine ⟨.hostAccessWhileBusy, ?_⟩
    rw [hostReadReg, hv]
    exact (if_neg hr).trans (whenNotBusy_of_busy _ hb)

theorem hostReadIn_of_busy (i : Nat) : hostReadIn i s = .refused .hostAccessWhileBusy := whenNotBusy_of_busy _ hb

theorem hostReadOut_of_busy (i : Nat) : hostReadOut i s = .refused .hostAccessWhileBusy := whenNotBusy_of_busy _ hb

theorem execStart_of_busy : execStart s = .refused .startWhileBusy := if_pos hb

/-- While an operation is in progress, the HOST has no move but the read of `STATUS` (R197, R198). -/
theorem hostAct_refuses_of_busy {a : HostAction} (hreset : a ≠ .reset) (hstatus : a ≠ .readReg .status) :
    ∃ e, hostAct a s = .refused e := by
  cases a with
  | writeCmd _ | writeInValid _ | writeInLen _ | writeIn _ _ => exact ⟨_, whenNotBusy_of_busy _ hb⟩
  | start => exact ⟨_, execStart_of_busy hb⟩
  | readReg r =>
    obtain ⟨e, he⟩ := hostReadReg_refuses_of_busy hb fun hr : r = .status => hstatus (congrArg HostAction.readReg hr)
    exact ⟨e, by rw [hostAct, he, readOnly_refused]⟩
  | readIn i => exact ⟨_, by rw [hostAct, hostReadIn_of_busy hb, readOnly_refused]⟩
  | readOut i => exact ⟨_, by rw [hostAct, hostReadOut_of_busy hb, readOnly_refused]⟩
  | reset => exact absurd rfl hreset

end whileBusy

/-! ### The statement -/

/-- Settles O42: `STATUS` is read as the code of `BUSY` and no state changes; every other action is refused. -/
theorem whileBusyTheHostMayOnlyReadStatus : Obligations.WhileBusyTheHostMayOnlyReadStatus := by
  intro s a hb hreset
  refine ⟨?read, hostAct_refuses_of_busy hb hreset⟩
  case read =>
    rintro rfl
    have hread : hostReadReg .status s = .next 1 := by
      rw [hostReadReg_status, hb]
      rfl
    exact ⟨by rw [hostAct, hread, readOnly_next], hread⟩

end Sys2Proof.Machine
end

section
/-! Decoder and encoder are inverse to each other (R60 to R70): one lemma per coding space for each direction, on top of the
decoder's equations for whole tokens. -/

namespace Sys2Proof

/-! ### Every well-formed instruction is read back -/

/-- The rows of an LZ77 stream, whole or truncated (R62, R63, R70). -/
theorem decode_encode_lzMatch {offset length : Option Byte} (hwf : (Instr.lzMatch offset length).wf = true) :
    decode .lzStream (encode (.lzMatch offset length)) = .ok (.lzMatch offset length, []) := by
  cases offset with
  | none =>
    cases length with
    | none => rfl
    | some l => cases hwf
  | some o =>
    cases length with
    | none => rfl
    | some l => exact decode_lzStream_match o l []

/-- Settles O1: row by row; well-formedness is used for the count, the order of the match fields and the tag. -/
theorem decodingInvertsEncoding : Obligations.DecodingInvertsEncoding := by
  intro i hwf
  cases i with
  | rlePair count value => exact decode_rleStream_pair (by simpa [Instr.wf] using hwf) value []
  | rleIllegalZeroCount value => exact decode_rleStream_zeroCount value []
  | rleIllegalOddLength last => rfl
  | lzLit byte =>
    cases byte with
    | none => rfl
    | some b => exact decode_lzStream_literal b []
  | lzMatch offset length => exact decode_encode_lzMatch hwf
  | lzIllegalTag tag =>
    obtain ⟨hlit, hmatch⟩ : tag ≠ Config.tagLiteral ∧ tag ≠ Config.tagMatch := by simpa [Instr.wf] using hwf
    exact decode_lzStream_illegalTag hlit hmatch []
  | rleCompress | rleDecompress | lzCompress | lzDecompress | start => rfl

/-! ### What is read spells exactly the bytes that were read -/

/-- The instruction `i`, read from the front of `bytes` in `space` with `rest` left over, is well formed, belongs to the space,
and has no other encoding than the bytes in front of `rest`. -/
def Spells (space : Space) (bytes : List Byte) (i : Instr) (rest : List Byte) : Prop :=
  i.wf = true ∧ i.space = space ∧ encode i ++ rest = bytes

theorem spells_of_decodeRle {bytes rest : List Byte} {i : Instr} (h : decodeRle bytes = .ok (i, rest)) :
    Spells .rleStream bytes i rest := by
  match bytes with
  | [] => cases h
  | [last] => cases h; exact ⟨rfl, rfl, rfl⟩
  | count :: value :: tail =>
    by_cases hzero : count = 0
    · subst hzero
      cases h
      exact ⟨rfl, rfl, rfl⟩
    · cases (if_neg hzero).symm.trans h
      exact ⟨by simpa [Instr.wf] using hzero, rfl, rfl⟩

theorem spells_of_decodeLiteral {payload rest : List Byte} {i : Instr} (h : decodeLiteral payload = (i, rest)) :
    Spells .lzStream (0x00 :: payload) i rest := by
  match payload with
  | [] => cases h; exact ⟨rfl, rfl, rfl⟩
  | _ :: _ => cases h; exact ⟨rfl, rfl, rfl⟩

theorem spells_of_decodeMatch {payload rest : List Byte} {i : Instr} (h : decodeMatch payload = (i, rest)) :
    Spells .lzStream (0x01 :: payload) i rest := by
  match payload with
  | [] => cases h; exact ⟨rfl, rfl, rfl⟩
  | [_] => cases h; exact ⟨rfl, rfl, rfl⟩
  | _ :: _ :: _ => cases h; exact ⟨rfl, rfl, rfl⟩

theorem spells_of_decodeLz {bytes rest : List Byte} {i : Instr} (h : decodeLz bytes = .ok (i, rest)) :
    Spells .lzStream bytes i rest := by
  match bytes with
  | [] => cases h
  | tag :: payload =>
    by_cases hlit : tag = Config.tagLiteral
    · subst hlit
      exact spells_of_decodeLiteral (Except.ok.inj h)
    · by_cases hmatch : tag = Config.tagMatch
      · subst hmatch
        exact spells_of_decodeMatch (Except.ok.inj h)
      · cases (decode_lzStream_illegalTag hlit hmatch payload).symm.trans h
        exact ⟨by simp [Instr.wf, hlit, hmatch], rfl, rfl⟩

/-- A command word is the two low bits of its byte (R64). -/
theorem encode_decodeCommand {b : Byte} (h : b.toNat < 4) : encode (decodeCommand (b.setWidth 2)) = [b] := by
  have hb : b = BitVec.ofNat 8 b.toNat := by simp
  have : b.toNat = 0 ∨ b.toNat = 1 ∨ b.toNat = 2 ∨ b.toNat = 3 := by omega
  rcases this with e | e | e | e <;> rw [hb, e] <;> rfl

theorem space_decodeCommand (w : BitVec 2) : (decodeCommand w).wf = true ∧ (decodeCommand w).space = .command := by
  revert w
  decide

/-- Settles O2: space by space. -/
theorem encodingInvertsDecoding : Obligations.EncodingInvertsDecoding := by
  intro space bytes rest i h
  cases space with
  | rleStream => exact spells_of_decodeRle h
  | lzStream => exact spells_of_decodeLz h
  | command =>
    match bytes with
    | [] => cases h
    | b :: _ =>
      by_cases hword : b.toNat < 4
      · cases (if_pos hword).symm.trans h
        obtain ⟨hwf, hspace⟩ := space_decodeCommand (b.setWidth 2)
        exact ⟨hwf, hspace, congrArg (· ++ rest) (encode_decodeCommand hword)⟩
      · cases (if_neg hword).symm.trans h
  | hostAction =>
    match bytes with
    | [] => cases h; exact ⟨rfl, rfl, rfl⟩
    | _ :: _ => cases h

/-- Settles O3: each word by the row of its table. -/
theorem wordsOfTheSpecDecode : Obligations.WordsOfTheSpecDecode :=
  ⟨decode_rleStream_pair (by decide) _ _, decode_rleStream_zeroCount _ _, rfl, decode_lzStream_literal _ _,
    decode_lzStream_match _ _ _, rfl, decode_lzStream_illegalTag (by decide) (by decide) _, rfl, rfl, rfl, rfl⟩

end Sys2Proof
end

section
/-! One ENGINE step of an operation that stands where R83 lets it stand: each step by name, and the three kinds of them, a
failure, completion, or a step after which the operation goes on. The statements about the order of the checks (R162 to R165)
are read off the kinds. -/

namespace Sys2Proof.Machine

/-! ### Where an operation in progress may stand -/

/-- The clauses of `Inv` about an operation in progress; unlike the rest of `Inv` they hold right after every START. -/
structure OnCourse (s : State) : Prop where
  atBeginning : s.phase ≠ .body → s.pos = 0 ∧ s.outLen = 0
  testOnlyInRle : s.phase = .lengthTest → s.cmd = 0b01
  boundAfterPrologue : s.phase ≠ .prologue → s.inValid = true
  posLe : s.pos ≤ s.inLen
  pairsEven : s.cmd = 0b01 → s.phase = .body → s.pos % 2 = 0 ∧ s.inLen % 2 = 0
  expectsTag : s.cmd = 0b11 → s.phase = .body → s.dstate = .expectTag

theorem Inv.onCourse {s : State} (hi : Inv s) (hb : s.status = .busy) : OnCourse s :=
  ⟨hi.atBeginning hb, hi.testOnlyInRle hb, hi.boundAfterPrologue hb, hi.posLe hb, hi.pairsEven hb, hi.expectsTag hb⟩

/-- Only `RLE.DECOMPRESS` has a phase between the prologue and the body. -/
theorem OnCourse.phase_body {s : State} (hs : OnCourse s) (hc : s.cmd ≠ 0b01) (hp : s.phase ≠ .prologue) :
    s.phase = .body := phase_eq_body hp fun htest => hc (hs.testOnlyInRle htest)

theorem onCourse_started (s : State) : OnCourse (started s) :=
  ⟨fun _ => ⟨rfl, rfl⟩, nofun, fun h => absurd rfl h, Nat.zero_le _, nofun, nofun⟩

/-! ### The steps by name -/

/-- What one step on the token at `POS` can lead to (R100, R110, R130, R140). -/
inductive TokenStep (s : State) : State → Prop where
  | run : s.cmd = 0b00 → roomFor 2 s = true → TokenStep s (afterRun (runLength s) s)
  | zeroCount : s.cmd = 0b01 → s.pos + 1 < s.inLen → inByte s s.pos = 0 →
      TokenStep s (failed .invalidFormat .rleZeroCount s.pos 0 0 s)
  | pair : s.cmd = 0b01 → s.pos + 1 < s.inLen → inByte s s.pos ≠ 0 → roomFor (inByte s s.pos).toNat s = true →
      TokenStep s (afterPair (inByte s s.pos) (inByte s (s.pos + 1)) s)
  | longMatch : s.cmd = 0b10 → 3 ≤ (findBest s.pos s).bestLen.toNat → roomFor 3 s = true →
      TokenStep s (afterEmitMatch (findBest s.pos s))
  | shortMatch : s.cmd = 0b10 → (findBest s.pos s).bestLen.toNat ≤ 2 → roomFor 2 s = true →
      TokenStep s (afterEmitLiteral (findBest s.pos s))
  | illegalTag : s.cmd = 0b11 → inByte s s.pos ≠ 0 → inByte s s.pos ≠ 1 →
      TokenStep s (afterIllegalTag (inByte s s.pos) s)
  | missingLiteral : s.cmd = 0b11 → s.pos + 1 = s.inLen → inByte s s.pos = 0 → TokenStep s (afterMissingLiteral s)
  | literal : s.cmd = 0b11 → s.pos + 1 < s.inLen → inByte s s.pos = 0 → roomFor 1 s = true →
      TokenStep s (afterLiteral (inByte s (s.pos + 1)) s)
  | incompleteMatch : s.cmd = 0b11 → s.inLen ≤ s.pos + 2 → inByte s s.pos = 1 → TokenStep s (afterIncompleteMatch s)
  | offsetRange : s.cmd = 0b11 → s.pos + 2 < s.inLen → inByte s s.pos = 1 → s.outLen < (inByte s (s.pos + 1)).toNat →
      TokenStep s (afterOffsetRange (inByte s (s.pos + 1)) (inByte s (s.pos + 2)) s)
  | zeroOffset : s.cmd = 0b11 → s.pos + 2 < s.inLen → inByte s s.pos = 1 → inByte s (s.pos + 1) = 0 →
      inByte s (s.pos + 2) ≠ 0 → TokenStep s (afterZeroOffset (inByte s (s.pos + 1)) (inByte s (s.pos + 2)) s)
  | copy : s.cmd = 0b11 → s.pos + 2 < s.inLen → inByte s s.pos = 1 → (inByte s (s.pos + 1)).toNat ≤ s.outLen →
      (inByte s (s.pos + 1) ≠ 0 ∨ inByte s (s.pos + 2) = 0) →
      (inByte s (s.pos + 2) = 0 ∨ roomFor (inByte s (s.pos + 2)).toNat s = true) →
      TokenStep s (afterMatch (inByte s (s.pos + 1)) (inByte s (s.pos + 2)) s)

/-- What one ENGINE step can lead to (R83). -/
inductive EngineStep (s : State) : State → Prop where
  | notBound : s.phase = .prologue → s.inValid = false → EngineStep s (failed .invalidInput .notABuffer 0 0 0 s)
  | bound : s.phase = .prologue → s.inValid = true → EngineStep s (afterPrologue s)
  | oddLength : s.phase = .lengthTest → s.cmd = 0b01 → s.inLen % 2 = 1 →
      EngineStep s (failed .invalidFormat .rleOddLength (s.inLen - 1) s.inLen 0 s)
  | evenLength : s.phase = .lengthTest → s.cmd = 0b01 → s.inLen % 2 = 0 → EngineStep s { s with phase := .body }
  | completes : AtEnd s → EngineStep s (completed s)
  | token {t : State} : s.phase = .body → s.pos < s.inLen → TokenStep s t → EngineStep s t

section engineStep -- the steps of the four commands, sorted into those of `EngineStep`
variable {s t : State} (hs : OnCourse s)
include hs

theorem engineStep_of_execRleCompress (hc : s.cmd = 0b00) (h : execRleCompress s = .next t) : EngineStep s t := by
  have hbody := hs.phase_body (by rw [hc]; decide)
  rcases execRleCompress_cases h with ⟨hp, hv, rfl⟩ | ⟨hp, hv, rfl⟩ | ⟨hp, hl, rfl⟩ | ⟨hp, hl, hr, rfl⟩
  · exact .notBound hp hv
  · have ht : { s with phase := .body } = afterPrologue s := by simp [afterPrologue, atFirstToken, hc]
    exact ht ▸ .bound hp hv
  · exact .completes ⟨hbody hp, hl⟩
  · exact .token (hbody hp) hl (.run hc hr)

theorem engineStep_of_execRleDecompress (hc : s.cmd = 0b01) (h : execRleDecompress s = .next t) : EngineStep s t := by
  rcases execRleDecompress_cases h with ⟨hp, hv, rfl⟩ | ⟨hp, hv, rfl⟩ | ⟨hp, ho, rfl⟩ | ⟨hp, he, rfl⟩ | ⟨hp, hl, rfl⟩ |
    ⟨hp, hl, rfl⟩ | ⟨hp, hl, h0, rfl⟩ | ⟨hp, hl, h0, hr, rfl⟩
  · exact .notBound hp hv
  · have ht : { s with phase := .lengthTest } = afterPrologue s := by simp [afterPrologue, atFirstToken, hc]
    exact ht ▸ .bound hp hv
  · exact .oddLength hp hc ho
  · exact .evenLength hp hc he
  · exact .completes ⟨hp, hl⟩
  · have := hs.pairsEven hc hp
    omega
  · exact .token hp (by omega) (.zeroCount hc hl h0)
  · exact .token hp (by omega) (.pair hc hl h0 hr)

theorem engineStep_of_execLzCompress (hc : s.cmd = 0b10) (h : execLzCompress s = .next t) : EngineStep s t := by
  have hbody := hs.phase_body (by rw [hc]; decide)
  rcases execLzCompress_cases h with ⟨hp, hv, rfl⟩ | ⟨hp, hv, rfl⟩ | ⟨hp, hl, rfl⟩ | ⟨hp, hl, h3, hr, rfl⟩ |
    ⟨hp, hl, h2, hr, rfl⟩
  · exact .notBound hp hv
  · have ht : { s with phase := .body } = afterPrologue s := by simp [afterPrologue, atFirstToken, hc]
    exact ht ▸ .bound hp hv
  · exact .completes ⟨hbody hp, hl⟩
  · exact .token (hbody hp) hl (.longMatch hc h3 hr)
  · exact .token (hbody hp) hl (.shortMatch hc h2 hr)

theorem engineStep_of_execLzDecompress (hc : s.cmd = 0b11) (h : execLzDecompress s = .next t) : EngineStep s t := by
  have hbody := hs.phase_body (by rw [hc]; decide)
  rcases execLzDecompress_cases h with ⟨hp, hv, rfl⟩ | ⟨hp, hv, rfl⟩ | ⟨hp, hl, rfl⟩ | ⟨hp, hl, h0, h1, rfl⟩ |
    ⟨hp, hl, h0, rfl⟩ | ⟨hp, hl, h0, hr, rfl⟩ | ⟨hp, hl, hl2, h1, rfl⟩ |
    ⟨hp, hl, h1, ⟨ho, rfl⟩ | ⟨hz, hw, rfl⟩ | ⟨ho, hz, hr, rfl⟩⟩
  · exact .notBound hp hv
  · have ht : { s with phase := .body, dstate := .expectTag } = afterPrologue s := by
      simp [afterPrologue, atFirstToken, hc]
    exact ht ▸ .bound hp hv
  · exact .completes ⟨hbody hp, hl⟩
  · exact .token (hbody hp) hl (.illegalTag hc h0 h1)
  · exact .token (hbody hp) (by omega) (.missingLiteral hc hl h0)
  · exact .token (hbody hp) (by omega) (.literal hc hl h0 hr)
  · exact .token (hbody hp) hl (.incompleteMatch hc hl2 h1)
  · exact .token (hbody hp) (by omega) (.offsetRange hc hl h1 ho)
  · exact .token (hbody hp) (by omega) (.zeroOffset hc hl h1 hz hw)
  · exact .token (hbody hp) (by omega) (.copy hc hl h1 ho hz hr)

/-- Everything one ENGINE step of an operation on its course can do. -/
theorem engineStep_of_exec (h : exec (decodeCommand s.cmd) s = .next t) : EngineStep s t := by
  rcases cmd_cases s.cmd with hc | hc | hc | hc <;> rw [hc] at h
  · exact engineStep_of_execRleCompress hs hc h
  · exact engineStep_of_execRleDecompress hs hc h
  · exact engineStep_of_execLzCompress hs hc h
  · exact engineStep_of_execLzDecompress hs hc h

end engineStep

/-! ### The order of the checks (R165), phase by phase and token by token -/

theorem firstFailedCheck_prologue {s : State} (hp : s.phase = .prologue) :
    firstFailedCheck s = if s.inValid then .none else .notABuffer := by
  simp only [firstFailedCheck, hp]

theorem firstFailedCheck_lengthTest {s : State} (hp : s.phase = .lengthTest) :
    firstFailedCheck s = if s.inLen % 2 = 1 then .rleOddLength else .none := by
  simp only [firstFailedCheck, hp]

theorem firstFailedCheck_atEnd {s : State} (h : AtEnd s) : firstFailedCheck s = .none := by
  obtain ⟨hbody, hl⟩ := h
  simp only [firstFailedCheck, hbody, if_pos hl]

/-- An encoder's tokens are not checked. -/
theorem firstFailedCheck_encoder {s : State} (hbody : s.phase = .body) (h1 : s.cmd ≠ 0b01) (h3 : s.cmd ≠ 0b11) :
    firstFailedCheck s = .none := by
  simp only [firstFailedCheck, hbody, if_neg h1, if_neg h3, ite_self]

section tokenChecks
variable {s : State} (hbody : s.phase = .body) (hl : s.pos < s.inLen)
include hbody hl

theorem firstFailedCheck_pair (hc : s.cmd = 0b01) :
    firstFailedCheck s = if inByte s s.pos = 0 then .rleZeroCount else .none := by
  simp only [firstFailedCheck, hbody, if_neg (Nat.not_le_of_lt hl), if_pos hc]

theorem firstFailedCheck_badTag (hc : s.cmd = 0b11) (h0 : inByte s s.pos ≠ 0) (h1 : inByte s s.pos ≠ 1) :
    firstFailedCheck s = .lzBadTag := by
  simp only [firstFailedCheck, hbody]
  rw [if_neg (Nat.not_le_of_lt hl), if_neg (by simp [hc]), if_pos hc, if_pos ⟨h0, h1⟩]

theorem firstFailedCheck_literal (hc : s.cmd = 0b11) (h0 : inByte s s.pos = 0) :
    firstFailedCheck s = if s.inLen ≤ s.pos + 1 then .lzMissingLiteral else .none := by
  simp only [firstFailedCheck, hbody, if_neg (Nat.not_le_of_lt hl), hc, h0]
  rfl

theorem firstFailedCheck_match (hc : s.cmd = 0b11) (h1 : inByte s s.pos = 1) :
    firstFailedCheck s =
      if s.inLen ≤ s.pos + 2 then .lzIncompleteMatch
      else if s.outLen < (inByte s (s.pos + 1)).toNat then .lzOffsetRange
      else if inByte s (s.pos + 1) = 0 ∧ inByte s (s.pos + 2) ≠ 0 then .lzZeroOffset
      else .none := by
  simp only [firstFailedCheck, hbody, if_neg (Nat.not_le_of_lt hl), hc, h1]
  rfl

end tokenChecks

/-! ### The three kinds of step -/

/-- The failure entry for the cause `c`: before it at most the registers of a token's fetch were written, and its details are
an index or length of the input, a length of the output, or a byte (R164). -/
def FailsWith (c : ErrCause) (s t : State) : Prop :=
  ∃ tg d o l p i0 i1, t = failed (causeKind c) c p i0 i1 { s with tag := tg, dstate := d, mOff := o, mLen := l } ∧
    p ≤ s.inLen ∧ i0 ≤ max s.inLen 255 ∧ i1 ≤ max s.outLen 255

/-- The step appends the bytes `vs`, for which there is room, and neither fails nor completes. -/
structure GoesOn (vs : List Byte) (s t : State) : Prop where
  input : inputView t = inputView s
  output : outputView t = outputView (pushed vs s)
  room : vs = [] ∨ roomFor vs.length s = true
  status : t.status = s.status
  failure : SameFailure s t

/-- `POS` moves forward inside the input, by whole pairs in `RLE.DECOMPRESS`, and a tag is expected next in
`LZ.DECOMPRESS`. -/
structure Advances (s t : State) : Prop where
  phase : t.phase = .body
  posLt : s.pos < t.pos
  posLe : t.pos ≤ s.inLen
  wholePairs : s.cmd = 0b01 → t.pos = s.pos + 2
  expectsTag : s.cmd = 0b11 → t.dstate = .expectTag

/-- How many of the tests are still to come. -/
def testsLeft : Phase → Nat
  | .prologue => 2
  | .lengthTest => 1
  | .body => 0

/-- A bound on the steps of an operation before its completion: one for each test, and at most one for each byte. -/
def stepsLeft (s : State) : Nat := testsLeft s.phase + (s.inLen - s.pos)

/-- The three kinds of ENGINE step, and what the checks of R165 say of each. -/
inductive StepKind (s t : State) : Prop where
  | fails (c : ErrCause) : c ≠ .none → firstFailedCheck s = c → FailsWith c s t → StepKind s t
  | completes : firstFailedCheck s = .none → AtEnd s → t = completed s → StepKind s t
  | goesOn (vs : List Byte) : firstFailedCheck s = .none → GoesOn vs s t → OnCourse t → stepsLeft t < stepsLeft s →
      StepKind s t

/-- A failure that no fetch precedes. -/
theorem failsWith_failed {c : ErrCause} {p i0 i1 : Nat} {s : State} (hp : p ≤ s.inLen) (h0 : i0 ≤ max s.inLen 255)
    (h1 : i1 ≤ max s.outLen 255) : FailsWith c s (failed (causeKind c) c p i0 i1 s) :=
  ⟨s.tag, s.dstate, s.mOff, s.mLen, p, i0, i1, rfl, hp, h0, h1⟩

section goesOn -- what each token appends
variable {s : State}

theorem goesOn_afterRun (hr : roomFor 2 s = true) (c : Nat) :
    GoesOn [BitVec.ofNat 8 c, inByte s s.pos] s (afterRun c s) :=
  ⟨rfl, rfl, .inr hr, rfl, rfl, rfl, rfl, rfl, rfl⟩

theorem goesOn_afterPair {count : Byte} (hr : roomFor count.toNat s = true) (value : Byte) :
    GoesOn (List.replicate count.toNat value) s (afterPair count value s) :=
  ⟨rfl, rfl, .inr (by rwa [List.length_replicate]), rfl, rfl, rfl, rfl, rfl, rfl⟩

theorem goesOn_afterLiteral (hr : roomFor 1 s = true) (b : Byte) : GoesOn [b] s (afterLiteral b s) :=
  ⟨rfl, rfl, .inr hr, rfl, rfl, rfl, rfl, rfl, rfl⟩

/-- An LZ77 encoder's token is appended behind the search (R120). -/
theorem goesOn_tokenEmitted {p q : Nat} (vs : List Byte) (hr : roomFor vs.length s = true) :
    GoesOn vs s (tokenEmitted p q vs s) := by
  obtain ⟨hstatus, -, -, hfailure, -⟩ := tokenEmitted_frame p q vs s
  exact ⟨inputView_findBest p s, by simp [outputView_eq_iff, tokenEmitted], .inr hr, hstatus, hfailure⟩

/-- A match appends the bytes it copies, if there are any (R148). -/
theorem goesOn_afterMatch {l : Byte} (o : Byte) (hr : l = 0 ∨ roomFor l.toNat s = true) :
    GoesOn (periodicBytes s (s.outLen - o.toNat) l.toNat) s (afterMatch o l s) := by
  refine ⟨rfl, rfl, ?_, rfl, rfl, rfl, rfl, rfl, rfl⟩
  rcases hr with rfl | hr
  · exact .inl rfl
  · exact .inr (by simpa using hr)

end goesOn

theorem toNat_le_max (b : Byte) (n : Nat) : b.toNat ≤ max n 255 := by
  have := b.isLt
  omega

/-- After a token the operation stands on its course again, closer to its end. -/
theorem stepKind_of_advances {s t : State} {vs : List Byte} (hs : OnCourse s) (hbody : s.phase = .body)
    (hl : s.pos < s.inLen) (hcheck : firstFailedCheck s = .none) (hg : GoesOn vs s t) (ha : Advances s t) :
    StepKind s t := by
  obtain ⟨hcmd, hvalid, hlen, -⟩ := inputView_eq_iff.1 hg.input
  obtain ⟨hphase, hlt, hle, hpairs, htag⟩ := ha
  have hcourse : OnCourse t :=
    { atBeginning := fun hne => absurd hphase hne
      testOnlyInRle := fun htest => nomatch hphase.symm.trans htest
      boundAfterPrologue := fun _ => hvalid.trans (hs.boundAfterPrologue (by rw [hbody]; nofun))
      posLe := hle.trans_eq hlen.symm
      pairsEven := fun hc _ => by
        rw [hcmd] at hc
        have := hs.pairsEven hc hbody
        have := hpairs hc
        omega
      expectsTag := fun hc _ => htag (hcmd.symm.trans hc) }
  refine .goesOn vs hcheck hg hcourse ?_
  rw [stepsLeft, stepsLeft, hphase, hbody, hlen]
  omega

/-- Each step on a token is of one of the kinds. -/
theorem TokenStep.stepKind {s t : State} (hs : OnCourse s) (hbody : s.phase = .body) (hl : s.pos < s.inLen)
    (h : TokenStep s t) : StepKind s t := by
  have advances {vs : List Byte} := @stepKind_of_advances s t vs hs hbody hl
  cases h with
  | run hc hr =>
    obtain ⟨hpos, -, hinside, -, -⟩ := runLength_isRunLength hl
    exact advances (firstFailedCheck_encoder hbody (by simp [hc]) (by simp [hc])) (goesOn_afterRun hr _)
      ⟨hbody, Nat.lt_add_of_pos_right hpos, hinside, by simp [hc], by simp [hc]⟩
  | zeroCount hc _ h0 =>
    exact .fails .rleZeroCount nofun ((firstFailedCheck_pair hbody hl hc).trans (if_pos h0))
      (failsWith_failed hl.le (Nat.zero_le _) (Nat.zero_le _))
  | pair hc hl1 h0 hr =>
    exact advances ((firstFailedCheck_pair hbody hl hc).trans (if_neg h0)) (goesOn_afterPair hr _)
      ⟨hbody, Nat.lt_add_of_pos_right Nat.two_pos, hl1, fun _ => rfl, by simp [hc]⟩
  | longMatch hc h3 hr =>
    have hrest := findBest_bestLen_le_rest s s.pos
    rw [afterEmitMatch_findBest] at advances ⊢
    exact advances (firstFailedCheck_encoder hbody (by simp [hc]) (by simp [hc])) (goesOn_tokenEmitted _ hr)
      ⟨(findBest_phase _ s).trans hbody, Nat.lt_add_of_pos_right (by omega), by simp only [tokenEmitted]; omega,
        by simp [hc], by simp [hc]⟩
  | shortMatch hc h2 hr =>
    rw [afterEmitLiteral_findBest] at advances ⊢
    exact advances (firstFailedCheck_encoder hbody (by simp [hc]) (by simp [hc])) (goesOn_tokenEmitted _ hr)
      ⟨(findBest_phase _ s).trans hbody, Nat.lt_succ_self _, hl, by simp [hc], by simp [hc]⟩
  | illegalTag hc h0 h1 =>
    exact .fails .lzBadTag nofun (firstFailedCheck_badTag hbody hl hc h0 h1)
      ⟨_, _, _, _, _, _, _, rfl, hl.le, toNat_le_max _ _, Nat.zero_le _⟩
  | missingLiteral hc hl1 h0 =>
    exact .fails .lzMissingLiteral nofun ((firstFailedCheck_literal hbody hl hc h0).trans (if_pos hl1.ge))
      ⟨_, _, _, _, _, _, _, rfl, hl.le, Nat.zero_le _, Nat.zero_le _⟩
  | literal hc hl1 h0 hr =>
    exact advances ((firstFailedCheck_literal hbody hl hc h0).trans (if_neg (Nat.not_le_of_lt hl1)))
      (goesOn_afterLiteral hr _)
      ⟨hbody, Nat.lt_add_of_pos_right Nat.two_pos, hl1, by simp [hc], fun _ => rfl⟩
  | incompleteMatch hc hl2 h1 =>
    exact .fails .lzIncompleteMatch nofun ((firstFailedCheck_match hbody hl hc h1).trans (if_pos hl2))
      ⟨_, _, _, _, _, _, _, rfl, hl.le, by omega, Nat.zero_le _⟩
  | offsetRange hc hl2 h1 ho =>
    refine .fails .lzOffsetRange nofun ?_ ⟨_, _, _, _, _, _, _, rfl, hl.le, toNat_le_max _ _, Nat.le_max_left _ _⟩
    rw [firstFailedCheck_match hbody hl hc h1, if_neg (Nat.not_le_of_lt hl2), if_pos ho]
  | zeroOffset hc hl2 h1 hz hw =>
    refine .fails .lzZeroOffset nofun ?_ ⟨_, _, _, _, _, _, _, rfl, hl.le, Nat.zero_le _, toNat_le_max _ _⟩
    rw [firstFailedCheck_match hbody hl hc h1, if_neg (Nat.not_le_of_lt hl2), if_neg (by simp [hz]), if_pos ⟨hz, hw⟩]
  | copy hc hl2 h1 ho hz hr =>
    have hzero : ¬(inByte s (s.pos + 1) = 0 ∧ inByte s (s.pos + 2) ≠ 0) := fun ⟨hoff, hlen⟩ => hz.elim (· hoff) hlen
    refine advances ?_ (goesOn_afterMatch _ hr)
      ⟨hbody, Nat.lt_add_of_pos_right (by decide), hl2, by simp [hc], fun _ => rfl⟩
    rw [firstFailedCheck_match hbody hl hc h1, if_neg (Nat.not_le_of_lt hl2), if_neg (Nat.not_lt_of_le ho), if_neg hzero]

/-- Each ENGINE step is of one of the kinds. -/
theorem EngineStep.stepKind {s t : State} (hs : OnCourse s) (h : EngineStep s t) : StepKind s t := by
  cases h with
  | notBound hp hv =>
    exact .fails .notABuffer nofun (by simp [firstFailedCheck_prologue hp, hv])
      (failsWith_failed (Nat.zero_le _) (Nat.zero_le _) (Nat.zero_le _))
  | bound hp hv =>
    have hbegin := hs.atBeginning (by rw [hp]; nofun)
    refine .goesOn [] (by simp [firstFailedCheck_prologue hp, hv]) ⟨rfl, rfl, .inl rfl, rfl, rfl, rfl, rfl, rfl, rfl⟩
      ⟨fun _ => hbegin, fun htest => ?_, fun _ => hv, hs.posLe, fun hc hb => ?_, fun hc _ => if_pos hc⟩ ?_
    · by_contra hc
      exact nomatch htest.symm.trans (if_neg hc)
    · exact nomatch hb.symm.trans (if_pos hc)
    · rw [stepsLeft, stepsLeft, hp]
      have hless : testsLeft (afterPrologue s).phase < testsLeft .prologue := by
        simp only [afterPrologue]
        split <;> decide
      exact Nat.add_lt_add_right hless _
  | oddLength hp hc ho =>
    exact .fails .rleOddLength nofun ((firstFailedCheck_lengthTest hp).trans (if_pos ho))
      (failsWith_failed (Nat.sub_le _ _) (Nat.le_max_left _ _) (Nat.zero_le _))
  | evenLength hp hc he =>
    have hbegin := hs.atBeginning (by rw [hp]; nofun)
    refine .goesOn [] (by simp [firstFailedCheck_lengthTest hp, he]) ⟨rfl, rfl, .inl rfl, rfl, rfl, rfl, rfl, rfl, rfl⟩
      ⟨fun hne => absurd rfl hne, nofun, fun _ => hs.boundAfterPrologue (by rw [hp]; nofun), hs.posLe,
        fun _ _ => ⟨by rw [hbegin.1], he⟩, fun h3 _ => nomatch hc.symm.trans h3⟩ ?_
    rw [stepsLeft, stepsLeft, hp]
    exact Nat.add_lt_add_right Nat.zero_lt_one _
  | completes hend => exact .completes (firstFailedCheck_atEnd hend) hend rfl
  | token hp hl ht => exact ht.stepKind hs hp hl

/-- One step of an operation in progress, where no move of the HOST is listed. -/
theorem engineStep_of_step {s t : State} (hs : OnCourse s) (hb : s.status = .busy) (ha : s.agenda = [])
    (h : step s = .next t) : EngineStep s t := engineStep_of_exec hs ((step_busy ha hb).symm.trans h)

/-! ### The statements about the order of the checks -/

/-- Settles O37: a failing step reports the check that its kind names, and the other kinds leave the record clear. -/
theorem theFirstFailedCheckIsReported : Obligations.TheFirstFailedCheckIsReported := by
  intro s t hi hb ha h
  have hclear : s.errCause = .none := (hi.record_clear hb).2.1
  have hs := hi.onCourse hb
  cases (engineStep_of_step hs hb ha h).stepKind hs with
  | fails c hc hcheck hfail =>
    obtain ⟨_, _, _, _, _, _, _, rfl, -⟩ := hfail
    exact ⟨hcheck.symm, by simp [hcheck, hc]⟩
  | completes hcheck _ ht =>
    subst ht
    exact ⟨hclear.trans hcheck.symm, by simp [hcheck]⟩
  | goesOn vs hcheck hg _ _ =>
    obtain ⟨-, hcause, -⟩ := hg.failure
    exact ⟨(hcause.trans hclear).trans hcheck.symm, by simp [hg.status, hb, hcheck]⟩

/-- The one check whose kind is `InvalidInput` is the prologue's (R162). -/
theorem firstFailedCheck_eq_notABuffer {s : State} :
    firstFailedCheck s = .notABuffer ↔ s.phase = .prologue ∧ s.inValid = false := by
  unfold firstFailedCheck
  cases hp : s.phase <;> simp only [true_and, false_and, reduceCtorEq, iff_false]
  · cases s.inValid <;> simp
  · split <;> nofun
  · repeat' split
    all_goals nofun

theorem causeKind_eq_invalidInput {c : ErrCause} : causeKind c = .invalidInput ↔ c = .notABuffer := by
  cases c <;> decide

/-- A check that an encoder's step can fail is the prologue's (R163). -/
theorem firstFailedCheck_of_encoder {s : State} (hs : OnCourse s) (hc : s.cmd = 0b00 ∨ s.cmd = 0b10) :
    firstFailedCheck s = .none ∨ firstFailedCheck s = .notABuffer := by
  have h1 : s.cmd ≠ 0b01 := by rcases hc with hc | hc <;> rw [hc] <;> decide
  have h3 : s.cmd ≠ 0b11 := by rcases hc with hc | hc <;> rw [hc] <;> decide
  cases hp : s.phase with
  | prologue =>
    rw [firstFailedCheck_prologue hp]
    split
    · exact .inl rfl
    · exact .inr rfl
  | lengthTest => exact absurd (hs.testOnlyInRle hp) h1
  | body => exact .inl (firstFailedCheck_encoder hp h1 h3)

/-- Settles O38: the kind is that of the first failing check. -/
theorem onlyDecodersReportInvalidFormat : Obligations.OnlyDecodersReportInvalidFormat := by
  intro s t hi hb ha h herr
  have hs := hi.onCourse hb
  cases (engineStep_of_step hs hb ha h).stepKind hs with
  | completes _ _ ht => subst ht; cases herr
  | goesOn _ _ hg _ _ => exact nomatch hb.symm.trans (hg.status.symm.trans herr)
  | fails c hc hcheck hfail =>
    obtain ⟨_, _, _, _, _, _, _, rfl, -⟩ := hfail
    have hencoder : s.cmd = 0b00 ∨ s.cmd = 0b10 → c = .notABuffer := fun hcmd =>
      (firstFailedCheck_of_encoder hs hcmd).elim (fun hnone => absurd (hcheck.symm.trans hnone) hc) (hcheck ▸ ·)
    refine ⟨?_, fun hformat => ?_, hencoder⟩
    · rw [failed_errKind, causeKind_eq_invalidInput, ← hcheck, firstFailedCheck_eq_notABuffer]
    · by_contra hcmd
      rw [failed_errKind, hencoder (by have := cmd_cases s.cmd; tauto)] at hformat
      cases hformat

end Sys2Proof.Machine
end

section
/-! The invariant of the machine is kept by every step of either agent, and holds after reset. -/

namespace Sys2Proof.Machine

/-! ### The cells of a memory after an append -/

/-- Placed bytes list cells below the end of the placed bytes, beside those listed before. -/
theorem mem_writeBytes {m : Memory} {i : Nat} {vs : List Byte} {c : Host.Cell} (h : c ∈ writeBytes m i vs) :
    c ∈ m ∨ c.1 < i + vs.length := by
  induction vs generalizing m i with
  | nil => exact .inl h
  | cons v vs ih =>
    rcases ih h with hw | hlt
    · exact (Memory.mem_write hw).symm.imp_right fun e => by simp [e]
    · exact .inr (by simp only [List.length_cons]; omega)

theorem cellExists_of_lt {cap : Option Nat} {i n : Nat} (h : Config.withinCap cap n = true) (hi : i < n) :
    Config.cellExists cap i = true := cellExists_of_withinCap (k := 0) (withinCap_mono h (by omega))

/-- `OUT_LEN` stays inside the capacity when bytes with room for them are appended. -/
theorem withinCap_pushed {vs : List Byte} {s : State} (h : Config.withinCap s.params.outCap s.outLen = true)
    (hr : vs = [] ∨ roomFor vs.length s = true) : Config.withinCap s.params.outCap (s.outLen + vs.length) = true := by
  rcases hr with rfl | hr
  · exact h
  · exact hr

/-! ### The three kinds of ENGINE step keep the invariant -/

section engineKeeps
variable {s t : State} (hi : Inv s) (hb : s.status = .busy)
include hi

theorem Inv.of_failsWith {c : ErrCause} (hc : c ≠ .none) (h : FailsWith c s t) : Inv t := by
  obtain ⟨tg, d, o, l, p, i0, i1, rfl, -⟩ := h
  have hkind : causeKind c ≠ .none := fun hk => hc (causeKind_eq_none hk)
  exact
    { hi with
      outLenOk := withinCap_mono hi.outLenOk (Nat.zero_le _)
      outKnown := nofun
      idleEmpty := nofun
      errorEmpty := fun _ => rfl
      kindOfCause := rfl
      kindIffError := ⟨fun _ => rfl, fun _ => hkind⟩
      detailClear := fun hk => absurd hk hkind
      atBeginning := nofun
      testOnlyInRle := nofun
      boundAfterPrologue := nofun
      posLe := nofun
      pairsEven := nofun
      expectsTag := nofun }

include hb

theorem Inv.completed : Inv (completed s) :=
  { hi with
    idleEmpty := nofun
    errorEmpty := nofun
    kindIffError := ⟨fun hk => absurd (hi.record_clear hb).1 hk, nofun⟩
    atBeginning := nofun
    testOnlyInRle := nofun
    boundAfterPrologue := nofun
    posLe := nofun
    pairsEven := nofun
    expectsTag := nofun }

theorem Inv.of_goesOn {vs : List Byte} (hg : GoesOn vs s t) (ht : OnCourse t) : Inv t := by
  obtain ⟨-, -, hlen, hparams, hmem, -, -⟩ := inputView_eq_iff.1 hg.input
  obtain ⟨hout, houtLen, -⟩ := outputView_eq_iff.1 hg.output
  obtain ⟨hkind, hcause, hpos, hinfo0, hinfo1⟩ := hg.failure
  have hbusy : t.status = .busy := hg.status.trans hb
  have hcap := withinCap_pushed hi.outLenOk hg.room
  rw [pushed_outMem] at hout
  rw [pushed_outLen] at houtLen
  exact
    { inMemWf := by rw [hmem]; exact hi.inMemWf
      outMemWf := by rw [hout]; exact writeBytes_wf _ vs hi.outMemWf
      inCells := by rw [hmem, hparams]; exact hi.inCells
      outCells := by
        rw [hout, hparams]
        exact fun c hc => (mem_writeBytes hc).elim (hi.outCells c) (cellExists_of_lt hcap)
      inLenOk := by rw [hlen, hparams]; exact hi.inLenOk
      outLenOk := by rw [houtLen, hparams]; exact hcap
      outKnown := fun i hlt => by
        rw [hout, read_writeBytes]
        split
        · rfl
        · exact hi.outKnown i (by omega)
      idleEmpty := fun h => nomatch hbusy.symm.trans h
      errorEmpty := fun h => nomatch hbusy.symm.trans h
      kindOfCause := by rw [hkind, hcause]; exact hi.kindOfCause
      kindIffError := by rw [hkind, hg.status]; exact hi.kindIffError
      detailClear := by rw [hkind, hpos, hinfo0, hinfo1]; exact hi.detailClear
      atBeginning := fun _ => ht.atBeginning
      testOnlyInRle := fun _ => ht.testOnlyInRle
      boundAfterPrologue := fun _ => ht.boundAfterPrologue
      posLe := fun _ => ht.posLe
      pairsEven := fun _ => ht.pairsEven
      expectsTag := fun _ => ht.expectsTag }

/-- An ENGINE step keeps the invariant. -/
theorem Inv.of_exec (h : exec (decodeCommand s.cmd) s = .next t) : Inv t := by
  have hs := hi.onCourse hb
  cases (engineStep_of_exec hs h).stepKind hs with
  | fails c hc _ hfail => exact hi.of_failsWith hc hfail
  | completes _ _ ht => exact ht ▸ hi.completed hb
  | goesOn vs _ hg hcourse _ => exact hi.of_goesOn hb hg hcourse

end engineKeeps

/-! ### The moves of the HOST, and reset -/

/-- The moves still to come are no part of the invariant. -/
theorem Inv.withAgenda {s : State} (hi : Inv s) (rest : List Move) : Inv { s with agenda := rest } := { hi with }

theorem Inv.started {s : State} (hi : Inv s) : Inv (started s) :=
  { hi with
    outLenOk := withinCap_mono hi.outLenOk (Nat.zero_le _)
    outKnown := nofun
    idleEmpty := nofun
    errorEmpty := nofun
    kindOfCause := rfl
    kindIffError := ⟨fun hk => absurd rfl hk, nofun⟩
    detailClear := fun _ => ⟨rfl, rfl, rfl⟩
    atBeginning := fun _ _ => ⟨rfl, rfl⟩
    testOnlyInRle := nofun
    boundAfterPrologue := fun _ hne => absurd rfl hne
    posLe := fun _ => Nat.zero_le _
    pairsEven := nofun
    expectsTag := nofun }

/-- Reset meets the invariant whatever parameters, agenda and counters stay. -/
theorem inv_resetState (s : State) (hin : Config.withinCap s.params.inCap 0 = true)
    (hout : Config.withinCap s.params.outCap 0 = true) : Inv (resetState s) :=
  { inMemWf := rfl
    outMemWf := rfl
    inCells := nofun
    outCells := nofun
    inLenOk := hin
    outLenOk := hout
    outKnown := nofun
    idleEmpty := fun _ => rfl
    errorEmpty := nofun
    kindOfCause := rfl
    kindIffError := ⟨fun hk => absurd rfl hk, nofun⟩
    detailClear := fun _ => ⟨rfl, rfl, rfl⟩
    atBeginning := nofun
    testOnlyInRle := nofun
    boundAfterPrologue := nofun
    posLe := nofun
    pairsEven := nofun
    expectsTag := nofun }

/-- While no operation is in progress, what the HOST writes is no part of the clauses about an operation. -/
theorem Inv.of_hostWrite {s : State} (hi : Inv s) (hb : s.status ≠ .busy) (cmd : BitVec 2) (valid : Bool) {len : Nat}
    {mem : Memory} (hlen : Config.withinCap s.params.inCap len = true) (hwf : Memory.wf mem = true)
    (hcells : ∀ c ∈ mem, Config.cellExists s.params.inCap c.1 = true) :
    Inv { s with cmd := cmd, inValid := valid, inLen := len, inMem := mem } :=
  { hi with
    inMemWf := hwf
    inCells := hcells
    inLenOk := hlen
    testOnlyInRle := fun h => absurd h hb
    boundAfterPrologue := fun h => absurd h hb
    posLe := fun h => absurd h hb
    pairsEven := fun h => absurd h hb
    expectsTag := fun h => absurd h hb }

/-- An action of the HOST, or reset, keeps the invariant. -/
theorem Inv.of_hostAct {a : HostAction} {s t : State} (hi : Inv s) (h : hostAct a s = .next t) : Inv t := by
  rcases hostAct_cases h with ⟨hb, hwrite⟩ | ⟨-, rfl⟩ | ⟨-, rfl⟩
  · rcases hwrite with ⟨v, -, rfl⟩ | ⟨v, -, rfl⟩ | ⟨n, -, hn, rfl⟩ | ⟨i, v, -, hcell, rfl⟩ | ⟨-, rfl⟩
    · exact hi.of_hostWrite hb v s.inValid hi.inLenOk hi.inMemWf hi.inCells
    · exact hi.of_hostWrite hb s.cmd v hi.inLenOk hi.inMemWf hi.inCells
    · exact hi.of_hostWrite hb s.cmd s.inValid hn hi.inMemWf hi.inCells
    · refine hi.of_hostWrite hb s.cmd s.inValid hi.inLenOk (Memory.wf_write i v hi.inMemWf) fun c hc => ?_
      rcases Memory.mem_write hc with rfl | hc
      · exact hcell
      · exact hi.inCells c hc
    · exact hi.started
  · exact hi
  · exact inv_resetState s (withinCap_mono hi.inLenOk (Nat.zero_le _)) (withinCap_mono hi.outLenOk (Nat.zero_le _))

/-- Everything a step can do, seen from the state in which its move is no longer listed: nothing, an ENGINE step of the command
in `CMD`, or an action of the HOST. -/
theorem step_moves {s t : State} (h : step s = .next t) :
    ∃ rest, (s.status ≠ .busy ∧ t = { s with agenda := rest }) ∨
      (s.status = .busy ∧ exec (decodeCommand s.cmd) { s with agenda := rest } = .next t) ∨
      ∃ a, hostAct a { s with agenda := rest } = .next t := by
  obtain ⟨r, hr, hmove⟩ := step_cases h
  have hrest : ∃ rest, r = { s with agenda := rest } := by
    rcases hr with ⟨-, hsame⟩ | ⟨m, rest, -, hrest⟩
    · exact ⟨s.agenda, hsame⟩
    · exact ⟨rest, hrest⟩
  obtain ⟨rest, rfl⟩ := hrest
  refine ⟨rest, hmove.imp_right (.imp_right ?_)⟩
  rintro ⟨a, -, -, hact⟩
  exact ⟨a, hact⟩

/-! ### The statements -/

/-- Settles O52: the ENGINE's moves and the HOST's, each on the state without the move. -/
theorem stepKeepsTheInvariant : Obligations.StepKeepsTheInvariant := by
  intro s t hi h
  obtain ⟨rest, ⟨-, rfl⟩ | ⟨hb, hexec⟩ | ⟨a, hact⟩⟩ := step_moves h
  · exact hi.withAgenda rest
  · exact (hi.withAgenda rest).of_exec hb hexec
  · exact (hi.withAgenda rest).of_hostAct hact

/-- Settles O53: the machine after reset with nothing listed. -/
theorem resetMeetsTheInvariant : Obligations.ResetMeetsTheInvariant :=
  { inv_resetState State.reset rfl rfl with }

end Sys2Proof.Machine
end

section
/-! No register of `LEN_W` bits overflows (R4, R92): every length and cursor is bounded by a capacity or by a byte. -/

namespace Sys2Proof.Machine

/-! ### What fits `LEN_W` bits -/

theorem fitsLenW_of_le {w : Option Nat} {m n : Nat} (hn : Config.fitsLenW w n = true) (h : m ≤ n) :
    Config.fitsLenW w m = true := by
  cases w with
  | none => rfl
  | some w => simp only [Config.fitsLenW, decide_eq_true_eq] at *; omega

theorem fitsLenW_lenWBits (p : Config.Params) (n : Nat) : Config.fitsLenW p.lenW (lenWBits p n) = true := by
  unfold lenWBits
  cases p.lenW with
  | none => rfl
  | some w => exact decide_eq_true (Nat.mod_lt n (Nat.two_pow_pos w))

theorem fitsLenW_zero (w : Option Nat) : Config.fitsLenW w 0 = true := by
  cases w with
  | none => rfl
  | some w => exact decide_eq_true (Nat.two_pow_pos w)

section paramsWf
variable {p : Config.Params} (hwf : p.wf = true)
include hwf

/-- With a finite `LEN_W` both capacities are finite and below `2^LEN_W`, and a byte fits (R4). -/
theorem capacities_lt {w : Nat} (hw : p.lenW = some w) :
    8 ≤ w ∧ ∃ i o, p.inCap = some i ∧ p.outCap = some o ∧ i < 2 ^ w ∧ o < 2 ^ w := by
  simp only [Config.Params.wf, hw, Bool.and_eq_true, decide_eq_true_eq] at hwf
  obtain ⟨hbyte, hcaps⟩ := hwf
  split at hcaps
  · rename_i i o hi ho
    exact ⟨hbyte, i, o, hi, ho, by simpa using hcaps⟩
  · cases hcaps

theorem fitsLenW_of_inCap {n : Nat} (h : Config.withinCap p.inCap n = true) : Config.fitsLenW p.lenW n = true := by
  cases hw : p.lenW with
  | none => rfl
  | some w =>
    obtain ⟨-, i, -, hi, -, hlt, -⟩ := capacities_lt hwf hw
    simp only [hi, Config.withinCap, Config.fitsLenW, decide_eq_true_eq] at *
    omega

theorem fitsLenW_of_outCap {n : Nat} (h : Config.withinCap p.outCap n = true) : Config.fitsLenW p.lenW n = true := by
  cases hw : p.lenW with
  | none => rfl
  | some w =>
    obtain ⟨-, -, o, -, ho, -, hlt⟩ := capacities_lt hwf hw
    simp only [ho, Config.withinCap, Config.fitsLenW, decide_eq_true_eq] at *
    omega

/-- The details of a failure are a byte or a length (R164). -/
theorem fitsLenW_of_le_max {m n : Nat} (hn : Config.fitsLenW p.lenW n = true) (h : m ≤ max n 255) :
    Config.fitsLenW p.lenW m = true := by
  cases hw : p.lenW with
  | none => rfl
  | some w =>
    obtain ⟨hbyte, -⟩ := capacities_lt hwf hw
    have : 2 ^ 8 ≤ 2 ^ w := Nat.pow_le_pow_right Nat.two_pos hbyte
    simp only [hw, Config.fitsLenW, decide_eq_true_eq] at *
    omega

end paramsWf

/-! ### The ENGINE's steps -/

/-- The three working registers of `LEN_W` bits beside `POS` fit (R24, R25). -/
def CursorsFit (s : State) : Prop :=
  Config.fitsLenW s.params.lenW s.cand = true ∧ Config.fitsLenW s.params.lenW s.bestO = true ∧
    Config.fitsLenW s.params.lenW s.src = true

section engineFits
variable {s t : State} (hi : Inv s) (hf : FitsLenW s)
include hf

theorem FitsLenW.cursors : CursorsFit s := ⟨hf.cand, hf.bestO, hf.src⟩

/-- The search leaves an index below `POS` in `CAND`, and such an index or `LEN_W` free bits in `BEST_O` (R121, R124). -/
theorem cursorsFit_tokenEmitted (q : Nat) (vs : List Byte) : CursorsFit (tokenEmitted s.pos q vs s) := by
  have hparams : (tokenEmitted s.pos q vs s).params = s.params := findBest_params s.pos s
  refine ⟨?cand, ?bestO, ?src⟩ <;> rw [hparams]
  case cand =>
    rcases findBest_cand s s.pos with hlt | hsame
    · exact fitsLenW_of_le hf.pos hlt.le
    · exact hsame ▸ hf.cand
  case bestO =>
    by_cases hfound : 1 ≤ (findBest s.pos s).bestLen.toNat
    · exact fitsLenW_of_le hf.pos (findBest_bestO hfound).2.1.le
    · have hfree := (findBest_bestOf s s.pos).none (by omega)
      exact hfree ▸ fitsLenW_lenWBits s.params _
  case src => exact (findBest_src s.pos s).symm ▸ hf.src

include hi

/-- The copy leaves `SRC` at most at the new end of the output (R148). -/
theorem cursorsFit_afterMatch {o l : Byte} (ho : o.toNat ≤ s.outLen) (hz : o ≠ 0 ∨ l = 0)
    (hr : l = 0 ∨ roomFor l.toNat s = true) : CursorsFit (afterMatch o l s) := by
  have hsrc : Config.withinCap s.params.outCap (s.outLen - o.toNat + l.toNat) = true := by
    rcases hr with rfl | hr
    · exact withinCap_mono hi.outLenOk (by simp)
    · exact withinCap_mono hr (by omega)
  exact ⟨hf.cand, hf.bestO, fitsLenW_of_outCap hf.paramsWf hsrc⟩

theorem EngineStep.cursorsFit (h : EngineStep s t) : CursorsFit t := by
  cases h with
  | notBound _ _ | bound _ _ | oddLength _ _ _ | evenLength _ _ _ | completes _ => exact hf.cursors
  | token _ _ h =>
    cases h with
    | run _ _ | zeroCount _ _ _ | pair _ _ _ _ | illegalTag _ _ _ | missingLiteral _ _ _ | literal _ _ _ _
    | incompleteMatch _ _ _ | offsetRange _ _ _ _ | zeroOffset _ _ _ _ _ => exact hf.cursors
    | longMatch _ _ _ =>
      rw [afterEmitMatch_findBest]
      exact cursorsFit_tokenEmitted hf _ _
    | shortMatch _ _ _ =>
      rw [afterEmitLiteral_findBest]
      exact cursorsFit_tokenEmitted hf _ _
    | copy _ _ _ ho hz hr => exact cursorsFit_afterMatch hi hf ho hz hr

omit hi in
theorem FitsLenW.of_failsWith {c : ErrCause} (h : FailsWith c s t) : FitsLenW t := by
  obtain ⟨tg, d, o, l, p, i0, i1, rfl, hp, h0, h1⟩ := h
  exact
    { hf with
      outLen := fitsLenW_of_le hf.outLen (Nat.zero_le _)
      errPos := fitsLenW_of_le hf.inLen hp
      errInfo0 := fitsLenW_of_le_max hf.paramsWf hf.inLen h0
      errInfo1 := fitsLenW_of_le_max hf.paramsWf hf.outLen h1 }

theorem FitsLenW.of_goesOn {vs : List Byte} (hg : GoesOn vs s t) (ht : OnCourse t) (hcursors : CursorsFit t) :
    FitsLenW t := by
  obtain ⟨-, -, hlen, hparams, -⟩ := inputView_eq_iff.1 hg.input
  obtain ⟨-, houtLen, -⟩ := outputView_eq_iff.1 hg.output
  obtain ⟨-, -, hpos, hinfo0, hinfo1⟩ := hg.failure
  obtain ⟨hcand, hbestO, hsrc⟩ := hcursors
  have hout : Config.withinCap s.params.outCap t.outLen = true := houtLen ▸ withinCap_pushed hi.outLenOk hg.room
  have hinLen : Config.fitsLenW t.params.lenW t.inLen = true := by rw [hparams, hlen]; exact hf.inLen
  exact
    { paramsWf := hparams ▸ hf.paramsWf
      inLen := hinLen
      outLen := hparams ▸ fitsLenW_of_outCap hf.paramsWf hout
      errPos := by rw [hparams, hpos]; exact hf.errPos
      errInfo0 := by rw [hparams, hinfo0]; exact hf.errInfo0
      errInfo1 := by rw [hparams, hinfo1]; exact hf.errInfo1
      pos := fitsLenW_of_le hinLen ht.posLe
      cand := hcand
      bestO := hbestO
      src := hsrc }

theorem FitsLenW.of_exec (hb : s.status = .busy) (h : exec (decodeCommand s.cmd) s = .next t) : FitsLenW t := by
  have hs := hi.onCourse hb
  have hstep := engineStep_of_exec hs h
  cases hstep.stepKind hs with
  | fails c _ _ hfail => exact hf.of_failsWith hfail
  | completes _ _ ht => exact ht ▸ { hf with }
  | goesOn vs _ hg hcourse _ => exact hf.of_goesOn hi hg hcourse (hstep.cursorsFit hi hf)

end engineFits

/-! ### The moves of the HOST, and reset -/

theorem FitsLenW.withAgenda {s : State} (hf : FitsLenW s) (rest : List Move) : FitsLenW { s with agenda := rest } :=
  { hf with }

theorem FitsLenW.started {s : State} (hf : FitsLenW s) : FitsLenW (started s) :=
  have hzero := fitsLenW_zero s.params.lenW
  { hf with outLen := hzero, errPos := hzero, errInfo0 := hzero, errInfo1 := hzero, pos := hzero }

theorem FitsLenW.resetState {s : State} (hf : FitsLenW s) : FitsLenW (resetState s) :=
  have hzero := fitsLenW_zero s.params.lenW
  ⟨hf.paramsWf, hzero, hzero, hzero, hzero, hzero, hzero, hzero, hzero, hzero⟩

theorem FitsLenW.of_hostAct {a : HostAction} {s t : State} (hf : FitsLenW s) (h : hostAct a s = .next t) :
    FitsLenW t := by
  rcases hostAct_cases h with ⟨-, hwrite⟩ | ⟨-, rfl⟩ | ⟨-, rfl⟩
  · rcases hwrite with ⟨v, -, rfl⟩ | ⟨v, -, rfl⟩ | ⟨n, -, hn, rfl⟩ | ⟨i, v, -, -, rfl⟩ | ⟨-, rfl⟩
    · exact { hf with }
    · exact { hf with }
    · exact { hf with inLen := fitsLenW_of_inCap hf.paramsWf hn }
    · exact { hf with }
    · exact hf.started
  · exact hf
  · exact hf.resetState

/-! ### The statement -/

/-- Settles O54: the ENGINE's moves by the kind of step, the HOST's by what they write. -/
theorem lengthRegistersNeverOverflow : Obligations.LengthRegistersNeverOverflow := by
  intro s t hi hf h
  obtain ⟨rest, ⟨-, rfl⟩ | ⟨hb, hexec⟩ | ⟨a, hact⟩⟩ := step_moves h
  · exact hf.withAgenda rest
  · exact (hf.withAgenda rest).of_exec (hi.withAgenda rest) hb hexec
  · exact (hf.withAgenda rest).of_hostAct hact

end Sys2Proof.Machine
end

section
/-! Without an output capacity every instruction answers a next state (R54, R178), and so every operation ends (R202). -/

namespace Sys2Proof.Machine

/-! ### Every instruction answers a next state -/

/-- A choice between two actions answers a next state where both do. -/
theorem exists_ite {c : Prop} [Decidable c] {a b : Result} (ha : c → ∃ t, a = .next t) (hb : ∃ t, b = .next t) :
    ∃ t, (if c then a else b) = .next t := by
  split
  · exact ha ‹c›
  · exact hb

section unbounded
variable {s : State} (hcap : s.params.outCap = none)
include hcap

theorem roomFor_of_unbounded (n : Nat) : roomFor n s = true := by
  rw [roomFor, hcap]
  rfl

theorem exists_execRlePair (count value : Byte) : ∃ t, execRlePair count value s = .next t := by
  by_cases h0 : count = 0
  · subst h0
    exact ⟨_, execRlePair_zero value s⟩
  · exact ⟨_, execRlePair_of_room h0 (roomFor_of_unbounded hcap _)⟩

theorem exists_execLzLit (byte : Option Byte) : ∃ t, execLzLit byte s = .next t := by
  cases byte with
  | none => exact ⟨_, execLzLit_none s⟩
  | some b =>
    by_cases hl : s.pos + 1 < s.inLen
    · exact ⟨_, execLzLit_of_room hl (roomFor_of_unbounded hcap 1)⟩
    · exact ⟨_, execLzLit_truncated _ (Nat.le_of_not_lt hl)⟩

/-- A match passes its checks in the order of R145, or fails the first that it does not pass. -/
theorem exists_execLzMatch (offset length : Option Byte) : ∃ t, execLzMatch offset length s = .next t := by
  rcases offset with _ | o
  · exact ⟨_, execLzMatch_missing (.inl rfl) s⟩
  rcases length with _ | l
  · exact ⟨_, execLzMatch_missing (.inr rfl) s⟩
  by_cases hl : s.pos + 2 < s.inLen
  · by_cases ho : s.outLen < o.toNat
    · exact ⟨_, execLzMatch_offsetRange hl ho⟩
    · by_cases hz : o = 0 ∧ l ≠ 0
      · obtain ⟨rfl, hlen⟩ := hz
        exact ⟨_, execLzMatch_zeroOffset hl (toNat_pos hlen)⟩
      · have hz' : o ≠ 0 ∨ l = 0 := by tauto
        exact ⟨_, execLzMatch_of_room hl (Nat.le_of_not_lt ho) hz' (.inr (roomFor_of_unbounded hcap _))⟩
  · exact ⟨_, execLzMatch_truncated _ _ (Nat.le_of_not_lt hl)⟩

theorem exists_rleEncodeStep (hl : s.pos < s.inLen) : ∃ t, rleEncodeStep s = .next t :=
  ⟨_, rleEncodeStep_of_room hl (roomFor_of_unbounded hcap 2)⟩

theorem exists_rleDecodeStep : ∃ t, rleDecodeStep s = .next t := by
  unfold rleDecodeStep
  split
  · exact ⟨_, rfl⟩
  · exact exists_ite (fun _ => ⟨_, execRleIllegalZeroCount_eq _ s⟩) (exists_execRlePair hcap _ _)

theorem exists_lzEncodeStep : ∃ t, lzEncodeStep s = .next t := by
  by_cases h3 : 3 ≤ (findBest s.pos s).bestLen.toNat
  · exact ⟨_, lzEncodeStep_of_match h3 (roomFor_of_unbounded hcap 3)⟩
  · exact ⟨_, lzEncodeStep_of_literal (Nat.le_of_not_lt h3) (roomFor_of_unbounded hcap 2)⟩

theorem exists_lzDecodeStep : ∃ t, lzDecodeStep s = .next t :=
  exists_ite (fun _ => exists_execLzLit hcap _)
    (exists_ite (fun _ => exists_execLzMatch hcap _ _) ⟨_, execLzIllegalTag_eq _ s⟩)

theorem exists_execRleCompress : ∃ t, execRleCompress s = .next t := by
  cases hp : s.phase <;> simp only [execRleCompress, hp]
  case prologue => exact ⟨_, prologue_eq _ s⟩
  case lengthTest | body => exact exists_ite (exists_rleEncodeStep hcap) ⟨_, complete_eq s⟩

theorem exists_execRleDecompress : ∃ t, execRleDecompress s = .next t := by
  cases hp : s.phase <;> simp only [execRleDecompress, hp]
  case prologue => exact ⟨_, prologue_eq _ s⟩
  case lengthTest => exact exists_ite (fun _ => ⟨_, raise_eq ..⟩) ⟨_, rfl⟩
  case body => exact exists_ite (fun _ => exists_rleDecodeStep hcap) ⟨_, complete_eq s⟩

theorem exists_execLzCompress : ∃ t, execLzCompress s = .next t := by
  cases hp : s.phase <;> simp only [execLzCompress, hp]
  case prologue => exact ⟨_, prologue_eq _ s⟩
  case lengthTest | body => exact exists_ite (fun _ => exists_lzEncodeStep hcap) ⟨_, complete_eq s⟩

theorem exists_execLzDecompress : ∃ t, execLzDecompress s = .next t := by
  cases hp : s.phase <;> simp only [execLzDecompress, hp]
  case prologue => exact ⟨_, prologue_eq _ _⟩
  case lengthTest | body => exact exists_ite (fun _ => exists_lzDecodeStep hcap) ⟨_, complete_eq s⟩

end unbounded

/-- Settles O51: instruction by instruction. -/
theorem everyInstructionCompletesWithoutACapacity : Obligations.EveryInstructionCompletesWithoutACapacity := by
  intro i s hcap hstart
  cases i with
  | rlePair count value => exact exists_execRlePair hcap count value
  | rleIllegalZeroCount value => exact ⟨_, execRleIllegalZeroCount_eq value s⟩
  | rleIllegalOddLength last => exact ⟨_, raise_eq ..⟩
  | lzLit byte => exact exists_execLzLit hcap byte
  | lzMatch offset length => exact exists_execLzMatch hcap offset length
  | lzIllegalTag tag => exact ⟨_, execLzIllegalTag_eq tag s⟩
  | rleCompress => exact exists_execRleCompress hcap
  | rleDecompress => exact exists_execRleDecompress hcap
  | lzCompress => exact exists_execLzCompress hcap
  | lzDecompress => exact exists_execLzDecompress hcap
  | start => exact ⟨_, if_neg (hstart rfl)⟩

/-! ### Every operation ends -/

/-- A step of an operation that goes on leaves it on its course with the same input, parameters and empty agenda. -/
theorem GoesOn.sameOperation {vs : List Byte} {s t : State} (hg : GoesOn vs s t) (hb : s.status = .busy)
    (ha : s.agenda = []) : t.status = .busy ∧ t.agenda = [] ∧ t.params = s.params := by
  obtain ⟨-, -, -, hparams, -, -, hagenda⟩ := inputView_eq_iff.1 hg.input
  exact ⟨hg.status.trans hb, hagenda.trans ha, hparams⟩

theorem decodeCommand_ne_start (w : BitVec 2) : decodeCommand w ≠ .start := by
  revert w
  decide

/-- An operation in progress ends after at most the steps that are left and its completion. -/
theorem exists_end {s : State} (hs : OnCourse s) (hb : s.status = .busy) (ha : s.agenda = [])
    (hcap : s.params.outCap = none) :
    ∃ n t, n ≤ stepsLeft s + 1 ∧ runSteps n s = .next t ∧ (t.status = .done ∨ t.status = .error) := by
  induction hk : stepsLeft s using Nat.strong_induction_on generalizing s with
  | _ k ih =>
    subst hk
    obtain ⟨t, hexec⟩ := everyInstructionCompletesWithoutACapacity (decodeCommand s.cmd) s hcap
      fun hstart => absurd hstart (decodeCommand_ne_start s.cmd)
    have hstep : step s = .next t := (step_busy ha hb).trans hexec
    cases (engineStep_of_exec hs hexec).stepKind hs with
    | fails c _ _ hfail =>
      obtain ⟨_, _, _, _, _, _, _, ht, -⟩ := hfail
      exact ⟨1, t, Nat.le_add_left _ _, by rw [runSteps_succ, hstep]; rfl, .inr (by rw [ht]; rfl)⟩
    | completes _ _ ht =>
      exact ⟨1, t, Nat.le_add_left _ _, by rw [runSteps_succ, hstep]; rfl, .inl (by rw [ht]; rfl)⟩
    | goesOn vs _ hg hcourse hless =>
      obtain ⟨hbusy, hagenda, hparams⟩ := hg.sameOperation hb ha
      obtain ⟨n, u, hn, hrun, hend⟩ := ih _ hless hcourse hbusy hagenda (hparams ▸ hcap) rfl
      exact ⟨n + 1, u, by omega, by rw [runSteps_succ, hstep]; exact hrun, hend⟩

/-- From START on an operation ends. -/
theorem exists_end_of_readyToStart {cmd : BitVec 2} {s : State} (hs : ReadyToStart cmd s)
    (hcap : s.params.outCap = none) :
    ∃ n t, n ≤ s.inLen + 3 ∧ runSteps (n + 1) s = .next t ∧ (t.status = .done ∨ t.status = .error) := by
  obtain ⟨n, t, hn, hrun, hend⟩ := exists_end (s := begun s) (onCourse_started _) rfl rfl hcap
  have hleft : stepsLeft (begun s) = 2 + s.inLen := rfl
  exact ⟨n, t, by omega, by rw [runSteps_succ, step_start hs.notBusy hs.startNext]; exact hrun, hend⟩

/-- Settles O56: `stepsLeft` bounds the run, and in the body its decrease is the progress of `POS`. -/
theorem everyOperationTerminates : Obligations.EveryOperationTerminates := by
  refine ⟨fun cmd s hs hcap => ?_, fun s t hi hb ha hp hl h => ?_⟩
  · obtain ⟨n, t, hn, hrun, hend⟩ := exists_end_of_readyToStart hs hcap
    exact ⟨n + 1, t, Nat.le_add_left _ _, by omega, hrun, hend⟩
  · have hs := hi.onCourse hb
    cases (engineStep_of_step hs hb ha h).stepKind hs with
    | fails c _ _ hfail =>
      obtain ⟨_, _, _, _, _, _, _, rfl, -⟩ := hfail
      exact .inl rfl
    | completes _ hend _ => exact absurd hend.2 (Nat.not_le_of_lt hl)
    | goesOn vs _ hg hcourse hless =>
      obtain ⟨-, -, hlen, -⟩ := inputView_eq_iff.1 hg.input
      have hposLe := hcourse.posLe
      rw [stepsLeft, stepsLeft, hp, hlen, testsLeft] at hless
      exact .inr ⟨by omega, hposLe⟩

end Sys2Proof.Machine
end

section
/-! The RLE codec on byte lists: the encoder by runs, what the expander makes of its output, and the form and length of that
output (R90, R100 to R104, R112). -/

namespace Sys2Proof.Machine

/-! ### The encoder by runs -/

theorem rlePending_nil (v : Byte) (n : Nat) : rlePending v n [] = [BitVec.ofNat 8 n, v] := rfl

/-- An equal byte joins the pending pair while its count is below 255. -/
theorem rlePending_join {n : Nat} (v : Byte) (bs : List Byte) (h : n < 255) :
    rlePending v n (v :: bs) = rlePending v (n + 1) bs := if_pos ⟨rfl, h⟩

/-- Otherwise the pending pair is emitted. -/
theorem rlePending_emit {v b : Byte} {n : Nat} (bs : List Byte) (h : ¬(b = v ∧ n < 255)) :
    rlePending v n (b :: bs) = BitVec.ofNat 8 n :: v :: rleEncoded (b :: bs) := if_neg h

/-- A pending pair swallows the run that continues it, up to 255, and is emitted behind it. -/
theorem rlePending_run {v : Byte} {n m : Nat} {rest : List Byte} (hle : n + m ≤ 255)
    (hmax : n + m = 255 ∨ rest.head? ≠ some v) :
    rlePending v n (List.replicate m v ++ rest) = BitVec.ofNat 8 (n + m) :: v :: rleEncoded rest := by
  induction m generalizing n with
  | zero =>
    cases rest with
    | nil => rfl
    | cons b bs =>
      refine rlePending_emit bs ?_
      rintro ⟨rfl, hlt⟩
      rcases hmax with hfull | hdiff
      · omega
      · exact hdiff rfl
  | succ m ih =>
    have hassoc : n + 1 + m = n + (m + 1) := by omega
    rw [List.replicate_succ, List.cons_append, rlePending_join v _ (by omega), ih (by omega) (by rwa [hassoc]), hassoc]

/-- The encoder emits the pair of the longest run in front, cut at 255 (R101). -/
theorem rleEncoded_run {v : Byte} {c : Nat} {rest : List Byte} (hpos : 1 ≤ c) (hle : c ≤ 255)
    (hmax : c = 255 ∨ rest.head? ≠ some v) :
    rleEncoded (List.replicate c v ++ rest) = BitVec.ofNat 8 c :: v :: rleEncoded rest := by
  obtain ⟨m, rfl⟩ : ∃ m, c = 1 + m := ⟨c - 1, by omega⟩
  rw [Nat.add_comm 1 m, List.replicate_succ, Nat.add_comm m 1]
  exact rlePending_run hle hmax

/-- Equal bytes become full pairs and one pair of the rest (R102). -/
theorem rleEncoded_replicate (b : Byte) (q : Nat) {r : Nat} (hr : r < 255) :
    rleEncoded (List.replicate (255 * q + r) b) =
      (List.replicate q [0xFF, b]).flatten ++ if r = 0 then [] else [BitVec.ofNat 8 r, b] := by
  induction q with
  | zero =>
    by_cases h0 : r = 0
    · subst h0
      rfl
    · have h := rleEncoded_run (v := b) (rest := []) (Nat.one_le_iff_ne_zero.2 h0) hr.le (.inr nofun)
      simpa [h0, rleEncoded] using h
  | succ q ih =>
    rw [show 255 * (q + 1) + r = 255 + (255 * q + r) by omega, List.replicate_add,
      rleEncoded_run (by decide) (by decide) (.inl rfl), ih]
    rfl

/-! ### Expanding what the encoder emitted (R90) -/

theorem ofNat_ne_zero {n : Nat} (hpos : 1 ≤ n) (hle : n ≤ 255) : BitVec.ofNat 8 n ≠ 0 := fun h => by
  have := congrArg BitVec.toNat h
  rw [toNat_ofNat_of_le hle] at this
  exact absurd this (Nat.ne_of_gt hpos)

/-- An emitted pair expands to its run. -/
theorem rleExpanded_pair {n : Nat} (hpos : 1 ≤ n) (hle : n ≤ 255) (v : Byte) (pos : Nat) (out rest : List Byte) :
    rleExpanded pos out (BitVec.ofNat 8 n :: v :: rest) = rleExpanded (pos + 2) (out ++ List.replicate n v) rest := by
  rw [rleExpanded, if_neg (ofNat_ne_zero hpos hle), toNat_ofNat_of_le hle]

theorem rleExpanded_rlePending {v : Byte} {n : Nat} (bs : List Byte) (hpos : 1 ≤ n) (hle : n ≤ 255) (pos : Nat)
    (out : List Byte) :
    rleExpanded pos out (rlePending v n bs) = .bytes (out ++ List.replicate n v ++ bs) := by
  induction bs generalizing v n pos out with
  | nil => rw [rlePending_nil, rleExpanded_pair hpos hle, rleExpanded, List.append_nil]
  | cons b bs ih =>
    by_cases hjoin : b = v ∧ n < 255
    · obtain ⟨rfl, hlt⟩ := hjoin
      rw [rlePending_join b bs hlt, ih (by omega) (by omega), List.replicate_succ']
      simp
    · rw [rlePending_emit bs hjoin, rleExpanded_pair hpos hle, rleEncoded, ih (by decide) (by decide)]
      simp

/-! ### The form and the length of the output (R55, R104) -/

/-- Pairs as the encoder emits them: an even number of bytes, no zero count, and equal neighbours only behind a count of 255. -/
structure CanonicalPairs (bs : List Byte) : Prop where
  even : bs.length % 2 = 0
  count_ne_zero : ∀ k, bs[2 * k]? ≠ some 0
  full_of_same : ∀ k v, bs[2 * k + 1]? = some v → bs[2 * k + 3]? = some v → bs[2 * k]? = some 0xFF

theorem canonicalPairs_nil : CanonicalPairs [] := ⟨rfl, nofun, nofun⟩

/-- A pair in front of canonical pairs. -/
theorem CanonicalPairs.cons {c v : Byte} {bs : List Byte} (h : CanonicalPairs bs) (hc : c ≠ 0)
    (hsame : bs[1]? = some v → c = 0xFF) : CanonicalPairs (c :: v :: bs) := by
  refine ⟨?_, fun k => ?_, fun k w => ?_⟩
  · have := h.even
    simp only [List.length_cons]
    omega
  · cases k with
    | zero => simpa using hc
    | succ k => exact h.count_ne_zero k
  · cases k with
    | zero =>
      intro hv hw
      cases hv
      exact congrArg some (hsame hw)
    | succ k => exact h.full_of_same k w

/-- The bounds of R55 on an encoding of `n` bytes. -/
def BoundedPairs (n : Nat) (bs : List Byte) : Prop := bs.length ≤ 2 * n ∧ 2 * ((n + 254) / 255) ≤ bs.length

theorem rlePending_getElem?_one (v : Byte) (n : Nat) (bs : List Byte) : (rlePending v n bs)[1]? = some v := by
  induction bs generalizing n with
  | nil => rfl
  | cons b bs ih =>
    by_cases hjoin : b = v ∧ n < 255
    · obtain ⟨rfl, hlt⟩ := hjoin
      rw [rlePending_join b bs hlt, ih]
    · rw [rlePending_emit bs hjoin]
      rfl

theorem canonicalPairs_rlePending {v : Byte} {n : Nat} (bs : List Byte) (hpos : 1 ≤ n) (hle : n ≤ 255) :
    CanonicalPairs (rlePending v n bs) := by
  induction bs generalizing v n with
  | nil => exact canonicalPairs_nil.cons (ofNat_ne_zero hpos hle) nofun
  | cons b bs ih =>
    by_cases hjoin : b = v ∧ n < 255
    · obtain ⟨rfl, hlt⟩ := hjoin
      rw [rlePending_join b bs hlt]
      exact ih (by omega) (by omega)
    · rw [rlePending_emit bs hjoin, rleEncoded]
      refine (ih (by decide) (by decide)).cons (ofNat_ne_zero hpos hle) fun hsame => ?_
      rw [rlePending_getElem?_one] at hsame
      have hfull : n = 255 := by
        have := Option.some.inj hsame
        by_contra hlt
        exact hjoin ⟨this, by omega⟩
      rw [hfull]
      rfl

theorem boundedPairs_rlePending {v : Byte} {n : Nat} (bs : List Byte) (hpos : 1 ≤ n) (hle : n ≤ 255) :
    BoundedPairs (n + bs.length) (rlePending v n bs) := by
  unfold BoundedPairs
  induction bs generalizing v n with
  | nil =>
    simp only [rlePending_nil, List.length_cons, List.length_nil]
    omega
  | cons b bs ih =>
    by_cases hjoin : b = v ∧ n < 255
    · obtain ⟨rfl, hlt⟩ := hjoin
      have := ih (v := b) (n := n + 1) (by omega) (by omega)
      rw [rlePending_join b bs hlt, List.length_cons]
      omega
    · have := ih (v := b) (n := 1) (by decide) (by decide)
      rw [rlePending_emit bs hjoin, rleEncoded]
      simp only [List.length_cons]
      omega

theorem canonicalPairs_rleEncoded (bs : List Byte) : CanonicalPairs (rleEncoded bs) := by
  cases bs with
  | nil => exact canonicalPairs_nil
  | cons b bs => exact canonicalPairs_rlePending bs (by decide) (by decide)

theorem boundedPairs_rleEncoded (bs : List Byte) : BoundedPairs bs.length (rleEncoded bs) := by
  cases bs with
  | nil => exact ⟨Nat.le_refl _, Nat.le_refl _⟩
  | cons b bs =>
    rw [List.length_cons, Nat.add_comm]
    exact boundedPairs_rlePending bs (by decide) (by decide)

/-- The RLE codec gives the bytes back (R90). -/
theorem rleDecoded_rleEncoded (bs : List Byte) : rleDecoded (rleEncoded bs) = .bytes bs := by
  have heven := (canonicalPairs_rleEncoded bs).even
  rw [rleDecoded, if_neg (by omega)]
  cases bs with
  | nil => rfl
  | cons b bs => exact rleExpanded_rlePending bs (by decide) (by decide) 0 []

/-- Each pair of two bytes gives at most 255 (R55). -/
theorem length_rleExpanded {pos : Nat} {out bs result : List Byte} (h : rleExpanded pos out bs = .bytes result) :
    result.length ≤ out.length + 255 * (bs.length / 2) := by
  induction pos, out, bs using rleExpanded.induct with
  | case1 pos out => cases h; exact Nat.le_add_right _ _
  | case2 pos out b => cases h
  | case3 pos out value rest =>
    rw [rleExpanded, if_pos rfl] at h
    cases h
  | case4 pos out count value rest hcount ih =>
    rw [rleExpanded, if_neg hcount] at h
    have := ih h
    have := count.isLt
    simp only [List.length_append, List.length_replicate, List.length_cons] at *
    omega

theorem length_rleDecoded {bs result : List Byte} (h : rleDecoded bs = .bytes result) :
    result.length ≤ 255 * (bs.length / 2) := by
  unfold rleDecoded at h
  split at h
  · cases h
  · simpa using length_rleExpanded h

end Sys2Proof.Machine
end

section
/-! The LZ77 codec on byte lists: the encoder token by token, the best match as the longest agreement, and what the expander
makes of the tokens (R90, R122 to R135, R140 to R151). -/

namespace Sys2Proof.Machine

/-! ### The expander token by token (R140 to R151) -/

section expander
variable (pos : Nat) (out rest : List Byte)

theorem lzExpanded_nil : lzExpanded pos out [] = .bytes out := by
  rw [lzExpanded]

theorem lzExpanded_literal (b : Byte) :
    lzExpanded pos out (0x00 :: b :: rest) = lzExpanded (pos + 2) (out ++ [b]) rest := by
  rw [lzExpanded, if_pos rfl]

theorem lzExpanded_missingLiteral : lzExpanded pos out [0x00] = .failure .invalidFormat .lzMissingLiteral pos 0 0 := by
  rw [lzExpanded, if_pos rfl]

theorem lzExpanded_badTag {tag : Byte} (h0 : tag ≠ 0) (h1 : tag ≠ 1) :
    lzExpanded pos out (tag :: rest) = .failure .invalidFormat .lzBadTag pos tag.toNat 0 := by
  rw [lzExpanded.eq_def]
  exact (if_neg h0).trans (if_neg h1)

theorem lzExpanded_noFields : lzExpanded pos out [0x01] = .failure .invalidFormat .lzIncompleteMatch pos 0 0 := by
  rw [lzExpanded, if_neg (by decide), if_pos rfl]

theorem lzExpanded_oneField (o : Byte) :
    lzExpanded pos out [0x01, o] = .failure .invalidFormat .lzIncompleteMatch pos 1 0 := by
  rw [lzExpanded, if_neg (by decide), if_pos rfl]

variable {pos out rest} {o l : Byte}

theorem lzExpanded_offsetRange (ho : out.length < o.toNat) :
    lzExpanded pos out (0x01 :: o :: l :: rest) = .failure .invalidFormat .lzOffsetRange pos o.toNat out.length := by
  rw [lzExpanded, if_neg (by decide), if_pos rfl]
  exact if_pos ho

theorem lzExpanded_zeroOffset (hl : l ≠ 0) :
    lzExpanded pos out (0x01 :: 0 :: l :: rest) = .failure .invalidFormat .lzZeroOffset pos 0 l.toNat := by
  rw [lzExpanded, if_neg (by decide), if_pos rfl]
  exact (if_neg (Nat.not_lt_zero _)).trans (if_pos ⟨rfl, hl⟩)

theorem lzExpanded_match (ho : o.toNat ≤ out.length) (hz : o ≠ 0 ∨ l = 0) :
    lzExpanded pos out (0x01 :: o :: l :: rest) = lzExpanded (pos + 3) (copied o.toNat l.toNat out) rest := by
  rw [lzExpanded, if_neg (by decide), if_pos rfl]
  exact (if_neg (Nat.not_lt_of_le ho)).trans (if_neg fun ⟨h0, hne⟩ => hz.elim (· h0) hne)

end expander

/-! ### The length of an expansion (R55) -/

theorem length_copied (offset n : Nat) (out : List Byte) : (copied offset n out).length ≤ out.length + n := by
  induction n generalizing out with
  | zero => exact Nat.le_refl _
  | succ n ih =>
    have hone : (out[out.length - offset]?).toList.length ≤ 1 := by cases out[out.length - offset]? <;> simp
    have := ih (out ++ (out[out.length - offset]?).toList)
    rw [List.length_append] at this
    rw [copied]
    omega

/-- A literal of two bytes gives one, and a match of three at most 255. -/
theorem length_lzExpanded {pos : Nat} {out bs result : List Byte} (h : lzExpanded pos out bs = .bytes result) :
    result.length ≤ out.length + 85 * bs.length := by
  induction pos, out, bs using lzExpanded.induct with
  | case1 pos out => rw [lzExpanded_nil] at h; cases h; exact Nat.le_add_right _ _
  | case2 pos out => rw [lzExpanded_missingLiteral] at h; cases h
  | case3 pos out b rest ih =>
    rw [lzExpanded_literal] at h
    have := ih h
    simp only [List.length_append, List.length_cons, List.length_nil] at *
    omega
  | case4 pos out => rw [lzExpanded_noFields] at h; cases h
  | case5 pos out o => rw [lzExpanded_oneField] at h; cases h
  | case6 pos out o l rest ho => rw [lzExpanded_offsetRange ho] at h; cases h
  | case7 pos out o l rest ho hz =>
    obtain ⟨rfl, hl⟩ := hz
    rw [lzExpanded_zeroOffset hl] at h
    cases h
  | case8 pos out o l rest ho hz _ ih =>
    rw [lzExpanded_match (Nat.le_of_not_lt ho) (by tauto)] at h
    have := ih h
    have := length_copied o.toNat l.toNat out
    have := l.isLt
    simp only [List.length_cons] at *
    omega
  | case9 pos out tag rest h0 h1 => rw [lzExpanded_badTag pos out rest h0 h1] at h; cases h

theorem length_lzDecoded {bs result : List Byte} (h : lzDecoded bs = .bytes result) :
    result.length ≤ 85 * bs.length := by
  simpa using length_lzExpanded h

/-! ### The longest agreement and the best match (R122, R124) -/

theorem commonPrefix_agree {as bs : List Byte} {j : Nat} (h : j < commonPrefix as bs) :
    ∃ b, as[j]? = some b ∧ bs[j]? = some b := by
  induction as, bs using commonPrefix.induct generalizing j with
  | case1 as b bs ih =>
    rw [commonPrefix, if_pos rfl] at h
    cases j with
    | zero => exact ⟨b, rfl, rfl⟩
    | succ j => exact ih (Nat.lt_of_succ_lt_succ h)
  | case2 a as b bs hne =>
    rw [commonPrefix, if_neg hne] at h
    cases h
  | case3 as bs hcons =>
    rw [commonPrefix] at h
    · cases h
    · exact hcons

theorem commonPrefix_maximal (as bs : List Byte) (x : Byte) :
    ¬(as[commonPrefix as bs]? = some x ∧ bs[commonPrefix as bs]? = some x) := by
  rintro ⟨ha, hb⟩
  induction as, bs using commonPrefix.induct with
  | case1 as b bs ih =>
    rw [commonPrefix, if_pos rfl] at ha hb
    exact ih ha hb
  | case2 a as b bs hne =>
    rw [commonPrefix, if_neg hne] at ha hb
    exact hne (Option.some.inj (ha.trans hb.symm))
  | case3 as bs hcons =>
    cases as with
    | nil => cases ha
    | cons a as =>
      cases bs with
      | nil => cases hb
      | cons b bs => exact hcons a as b bs rfl rfl

section bestMatch
variable {data : List Byte} {pos : Nat}

/-- Below the match length the bytes at `o` and at `pos` agree and lie inside the data. -/
theorem matchLengthAt_agree {o j : Nat} (h : j < matchLengthAt data pos o) :
    ∃ b, data[o + j]? = some b ∧ data[pos + j]? = some b := by
  obtain ⟨b, ho, hp⟩ := commonPrefix_agree (Nat.lt_of_lt_of_le h (Nat.min_le_right _ _))
  exact ⟨b, by rwa [List.getElem?_drop] at ho, by rwa [List.getElem?_drop] at hp⟩

/-- The match length is the cap, or the bytes behind it do not agree inside the data. -/
theorem matchLengthAt_maximal (data : List Byte) (pos o : Nat) (x : Byte) :
    matchLengthAt data pos o = 255 ∨
      ¬(data[o + matchLengthAt data pos o]? = some x ∧ data[pos + matchLengthAt data pos o]? = some x) := by
  by_cases hcap : 255 ≤ commonPrefix (data.drop o) (data.drop pos)
  · exact .inl (Nat.min_eq_left hcap)
  · have hprefix : matchLengthAt data pos o = commonPrefix (data.drop o) (data.drop pos) :=
      Nat.min_eq_right (Nat.le_of_not_le hcap)
    rw [hprefix, ← List.getElem?_drop, ← List.getElem?_drop]
    exact .inr (commonPrefix_maximal _ _ x)

theorem matchLengthAt_le (data : List Byte) (pos o : Nat) : matchLengthAt data pos o ≤ 255 := Nat.min_le_left _ _

/-- The search ends with what it began with, or with the match length of a candidate. -/
theorem foldl_better (os : List Nat) (best : Nat × Nat) :
    os.foldl (better data pos) best = best ∨
      ∃ o ∈ os, os.foldl (better data pos) best = (matchLengthAt data pos o, o) := by
  induction os generalizing best with
  | nil => exact .inl rfl
  | cons o os ih =>
    rw [List.foldl_cons]
    rcases ih (better data pos best o) with hsame | ⟨o', ho', hfound⟩
    · rw [hsame]
      by_cases hbetter : best.1 < matchLengthAt data pos o
      · exact .inr ⟨o, List.mem_cons_self, if_pos hbetter⟩
      · exact .inl (if_neg hbetter)
    · exact .inr ⟨o', List.mem_cons_of_mem _ ho', hfound⟩

/-- A match that is found has a candidate of the window and its match length (R121). -/
theorem exists_bestMatch (h : 1 ≤ (bestMatch data pos).1) :
    ∃ o, pos - 20 ≤ o ∧ o < pos ∧ bestMatch data pos = (matchLengthAt data pos o, o) := by
  rcases foldl_better (data := data) (pos := pos) (List.range' (pos - 20) (pos - (pos - 20))) (0, 0) with
    hnone | ⟨o, ho, hfound⟩
  · rw [bestMatch, hnone] at h
    cases h
  · obtain ⟨hfirst, hlast⟩ := List.mem_range'_1.1 ho
    exact ⟨o, hfirst, by omega, hfound⟩

/-- A match that is found ends inside the data (R126). -/
theorem bestMatch_inside (h : 1 ≤ (bestMatch data pos).1) : pos + (bestMatch data pos).1 ≤ data.length := by
  obtain ⟨o, -, -, hfound⟩ := exists_bestMatch h
  rw [hfound] at h ⊢
  obtain ⟨b, -, hb⟩ := matchLengthAt_agree (data := data) (pos := pos) (o := o) (Nat.sub_lt h Nat.zero_lt_one)
  obtain ⟨hlt, -⟩ := List.getElem?_eq_some_iff.1 hb
  dsimp only at h ⊢
  omega

end bestMatch

/-! ### The encoder token by token (R130) -/

/-- The tokens from `pos` on; the fuel is the number of bytes that are left. -/
def lzRest (data : List Byte) (pos : Nat) : List Byte := lzEncodedFrom data (data.length - pos) pos

theorem lzEncodedFrom_atEnd {data : List Byte} {pos : Nat} (fuel : Nat) (h : data.length ≤ pos) :
    lzEncodedFrom data fuel pos = [] := by
  cases fuel with
  | zero => rfl
  | succ fuel => rw [lzEncodedFrom, List.getElem?_eq_none h]

/-- Any fuel that lasts for the bytes that are left gives the same tokens. -/
theorem lzEncodedFrom_fuel (data : List Byte) {f g pos : Nat} (hf : data.length - pos ≤ f) (hg : data.length - pos ≤ g) :
    lzEncodedFrom data f pos = lzEncodedFrom data g pos := by
  induction f generalizing g pos with
  | zero => rw [lzEncodedFrom_atEnd g (by omega)]; rfl
  | succ f ih =>
    cases g with
    | zero => rw [lzEncodedFrom_atEnd _ (by omega)]; rfl
    | succ g =>
      rw [lzEncodedFrom, lzEncodedFrom]
      cases hb : data[pos]? with
      | none => rfl
      | some b =>
        dsimp only
        rw [ih (g := g) (pos := pos + 1) (by omega) (by omega)]
        split
        · rw [ih (g := g) (by omega) (by omega)]
        · rfl

section tokens
variable {data : List Byte} {pos : Nat}

theorem lzRest_atEnd (h : data.length ≤ pos) : lzRest data pos = [] := lzEncodedFrom_atEnd _ h

theorem lzRest_match (h : pos < data.length) (h3 : 3 ≤ (bestMatch data pos).1) :
    lzRest data pos = 0x01 :: BitVec.ofNat 8 (pos - (bestMatch data pos).2) ::
      BitVec.ofNat 8 (bestMatch data pos).1 :: lzRest data (pos + (bestMatch data pos).1) := by
  obtain ⟨fuel, hfuel⟩ : ∃ fuel, data.length - pos = fuel + 1 := ⟨data.length - pos - 1, by omega⟩
  rw [lzRest, hfuel, lzEncodedFrom, List.getElem?_eq_getElem h]
  dsimp only
  rw [if_pos h3, lzRest, lzEncodedFrom_fuel data (g := data.length - (pos + (bestMatch data pos).1)) (by omega)
    (Nat.le_refl _)]

theorem lzRest_literal {b : Byte} (hb : data[pos]? = some b) (h3 : ¬3 ≤ (bestMatch data pos).1) :
    lzRest data pos = 0x00 :: b :: lzRest data (pos + 1) := by
  obtain ⟨hlt, -⟩ := List.getElem?_eq_some_iff.1 hb
  obtain ⟨fuel, hfuel⟩ : ∃ fuel, data.length - pos = fuel + 1 := ⟨data.length - pos - 1, by omega⟩
  rw [lzRest, hfuel, lzEncodedFrom, hb]
  dsimp only
  rw [if_neg h3, lzRest, show data.length - (pos + 1) = fuel by omega]

/-- Induction over the tokens from the end of the data backwards. -/
theorem lzRest_induction {P : Nat → List Byte → Prop} (atEnd : ∀ pos, data.length ≤ pos → P pos [])
    (longMatch : ∀ pos rest, 3 ≤ (bestMatch data pos).1 → P (pos + (bestMatch data pos).1) rest →
      P pos (0x01 :: BitVec.ofNat 8 (pos - (bestMatch data pos).2) :: BitVec.ofNat 8 (bestMatch data pos).1 :: rest))
    (shortMatch : ∀ pos b rest, data[pos]? = some b → P (pos + 1) rest → P pos (0x00 :: b :: rest)) (pos : Nat) :
    P pos (lzRest data pos) := by
  induction hk : data.length - pos using Nat.strong_induction_on generalizing pos with
  | _ k ih =>
    by_cases hlt : pos < data.length
    · by_cases h3 : 3 ≤ (bestMatch data pos).1
      · rw [lzRest_match hlt h3]
        exact longMatch pos _ h3 (ih _ (by omega) _ rfl)
      · have hb := List.getElem?_eq_getElem hlt
        rw [lzRest_literal hb h3]
        exact shortMatch pos _ _ hb (ih _ (by omega) _ rfl)
    · rw [lzRest_atEnd (Nat.le_of_not_lt hlt)]
      exact atEnd pos (Nat.le_of_not_lt hlt)

end tokens

/-- The first token is the literal of the first byte: there is no candidate before it (R134). -/
theorem lzEncoded_cons (b : Byte) (bs : List Byte) : ∃ rest, lzEncoded (b :: bs) = 0x00 :: b :: rest :=
  ⟨_, lzRest_literal (data := b :: bs) (pos := 0) rfl (Nat.not_succ_le_zero 2)⟩

/-- No token is longer than twice the bytes it covers (R55). -/
theorem length_lzEncoded (data : List Byte) : (lzEncoded data).length ≤ 2 * data.length := by
  refine lzRest_induction (data := data) (P := fun pos tokens => tokens.length ≤ 2 * (data.length - pos))
    (fun pos _ => Nat.zero_le _) (fun pos rest h3 ih => ?_) (fun pos b rest hb ih => ?_) 0
  · have := bestMatch_inside (Nat.le_of_add_left_le (k := 2) h3)
    simp only [List.length_cons]
    omega
  · obtain ⟨hlt, -⟩ := List.getElem?_eq_some_iff.1 hb
    simp only [List.length_cons]
    omega

/-! ### Expanding what the encoder emitted (R90) -/

/-- A copy continues a beginning of the data over which the bytes `offset` apart agree. -/
theorem copied_take {data : List Byte} {offset n pos : Nat} (hpos : 1 ≤ offset) (hle : offset ≤ pos)
    (hagree : ∀ j, j < n → ∃ b, data[pos - offset + j]? = some b ∧ data[pos + j]? = some b) :
    copied offset n (data.take pos) = data.take (pos + n) := by
  induction n generalizing pos with
  | zero => rfl
  | succ n ih =>
    obtain ⟨b, hsrc, hdst⟩ := hagree 0 (Nat.succ_pos n)
    obtain ⟨hlt, -⟩ := List.getElem?_eq_some_iff.1 hdst
    have hlength : (data.take pos).length = pos := List.length_take_of_le (Nat.le_of_lt hlt)
    have hbyte : (data.take pos)[(data.take pos).length - offset]? = data[pos]? := by
      rw [hlength, List.getElem?_take_of_lt (by omega)]
      exact hsrc.trans hdst.symm
    rw [copied, hbyte, ← List.take_add_one, ih (by omega) fun j hj => ?_, Nat.add_right_comm, Nat.add_assoc]
    have h := hagree (j + 1) (Nat.succ_lt_succ hj)
    rwa [show pos - offset + (j + 1) = pos + 1 - offset + j by omega, show pos + (j + 1) = pos + 1 + j by omega] at h

/-- An emitted match expands to the bytes that it covers. -/
theorem lzExpanded_bestMatch {data : List Byte} {pos : Nat} (h3 : 3 ≤ (bestMatch data pos).1) (i : Nat)
    (rest : List Byte) :
    lzExpanded i (data.take pos) (0x01 :: BitVec.ofNat 8 (pos - (bestMatch data pos).2) ::
        BitVec.ofNat 8 (bestMatch data pos).1 :: rest) =
      lzExpanded (i + 3) (data.take (pos + (bestMatch data pos).1)) rest := by
  have hinside := bestMatch_inside (Nat.le_of_add_left_le (k := 2) h3)
  obtain ⟨o, hfirst, hlast, hfound⟩ := exists_bestMatch (Nat.le_of_add_left_le (k := 2) h3)
  rw [hfound] at h3 hinside ⊢
  dsimp only at h3 hinside ⊢
  have hoffset : (BitVec.ofNat 8 (pos - o)).toNat = pos - o := toNat_ofNat_of_le (by omega)
  have hlength : (BitVec.ofNat 8 (matchLengthAt data pos o)).toNat = matchLengthAt data pos o :=
    toNat_ofNat_of_le (matchLengthAt_le data pos o)
  have htake : (data.take pos).length = pos := List.length_take_of_le (by omega)
  rw [lzExpanded_match (by omega) (.inl (ofNat_ne_zero (by omega) (by omega))), hoffset, hlength,
    copied_take (by omega) (by omega) fun j hj => ?_]
  rw [Nat.sub_sub_self hlast.le]
  exact matchLengthAt_agree hj

/-- The LZ77 codec gives the bytes back (R90). -/
theorem lzDecoded_lzEncoded (data : List Byte) : lzDecoded (lzEncoded data) = .bytes data := by
  refine lzRest_induction (data := data) (P := fun pos tokens => ∀ i, lzExpanded i (data.take pos) tokens = .bytes data)
    (fun pos hend i => ?_) (fun pos rest h3 ih i => ?_) (fun pos b rest hb ih i => ?_) 0 0
  · rw [lzExpanded_nil, List.take_of_length_le hend]
  · rw [lzExpanded_bestMatch h3, ih]
  · have htake : data.take pos ++ [b] = data.take (pos + 1) := by rw [List.take_add_one, hb]; rfl
    rw [lzExpanded_literal, htake, ih]

end Sys2Proof.Machine
end

section
/-! The refinement of the whole operations (D2, R86 to R89): in each state of an operation the result it will have is a
function of the input, `POS` and the output, and no step changes it. -/

namespace Sys2Proof.Machine

/-! ### The bytes of the input and of the output -/

section bytes
variable {s : State}

theorem inputBytes_getElem? {i : Nat} (h : i < s.inLen) : (inputBytes s)[i]? = some (inByte s i) := by
  simp [inputBytes, h]

theorem outputBytes_getElem? {i : Nat} (h : i < s.outLen) : (outputBytes s)[i]? = some (outByte s i) := by
  simp [outputBytes, h]

theorem drop_inputBytes {p : Nat} (h : p < s.inLen) :
    (inputBytes s).drop p = inByte s p :: (inputBytes s).drop (p + 1) := by
  rw [List.drop_eq_getElem_cons (by simpa using h)]
  congr 1
  exact Option.some.inj ((List.getElem?_eq_getElem _).symm.trans (inputBytes_getElem? h))

theorem drop_inputBytes_two {p : Nat} (h : p + 1 < s.inLen) :
    (inputBytes s).drop p = inByte s p :: inByte s (p + 1) :: (inputBytes s).drop (p + 2) := by
  rw [drop_inputBytes (Nat.lt_of_succ_lt h), drop_inputBytes h]

theorem drop_inputBytes_three {p : Nat} (h : p + 2 < s.inLen) :
    (inputBytes s).drop p =
      inByte s p :: inByte s (p + 1) :: inByte s (p + 2) :: (inputBytes s).drop (p + 3) := by
  rw [drop_inputBytes_two (Nat.lt_of_succ_lt h), drop_inputBytes h]

theorem drop_inputBytes_atEnd {p : Nat} (h : s.inLen ≤ p) : (inputBytes s).drop p = [] :=
  List.drop_of_length_le (by simpa using h)

/-- The input from `POS` on begins with its longest run (R101). -/
theorem drop_inputBytes_run {c : Nat} (h : IsRunLength s c) :
    (inputBytes s).drop s.pos = List.replicate c (inByte s s.pos) ++ (inputBytes s).drop (s.pos + c) := by
  refine List.ext_getElem? fun i => ?_
  rw [List.getElem?_drop]
  by_cases hi : i < c
  · have := h.inside
    rw [List.getElem?_append_left (by simpa using hi), List.getElem?_replicate_of_lt hi, inputBytes_getElem? (by omega),
      h.equal i hi]
  · rw [List.getElem?_append_right (by simpa using hi), List.length_replicate, List.getElem?_drop,
      show s.pos + c + (i - c) = s.pos + i by omega]

/-- The run is cut at 255, or the input ends behind it, or another byte follows (R101). -/
theorem IsRunLength.cut {c : Nat} (h : IsRunLength s c) :
    c = 255 ∨ ((inputBytes s).drop (s.pos + c)).head? ≠ some (inByte s s.pos) := by
  rcases h.maximal with hfull | hend | hdiff
  · exact .inl hfull
  · exact .inr (by rw [drop_inputBytes_atEnd hend.ge]; nofun)
  · by_cases hl : s.pos + c < s.inLen
    · rw [drop_inputBytes hl]
      exact .inr fun hsame => hdiff (Option.some.inj hsame)
    · exact .inr (by rw [drop_inputBytes_atEnd (Nat.le_of_not_lt hl)]; nofun)

/-- The copy on lists is the machine's copy (R148). -/
theorem copied_outputBytes {src n : Nat} (h : n = 0 ∨ src < s.outLen) :
    copied (s.outLen - src) n (outputBytes s) = outputBytes s ++ periodicBytes s src n := by
  induction n generalizing s src with
  | zero => exact (List.append_nil _).symm
  | succ n ih =>
    have hsrc : src < s.outLen := by omega
    have hread : (outputBytes s)[(outputBytes s).length - (s.outLen - src)]? = some (outByte s src) := by
      rw [outputBytes_length, Nat.sub_sub_self hsrc.le, outputBytes_getElem? hsrc]
    have hpush : outputBytes (pushByte (outByte s src) s) = outputBytes s ++ [outByte s src] :=
      outputBytes_of_appended (appended_of_pushed rfl fun _ => rfl)
    have hnext : (pushByte (outByte s src) s).outLen - (src + 1) = s.outLen - src := Nat.add_sub_add_right ..
    rw [copied, hread, periodicBytes_succ s n hsrc, Option.toList_some, ← hpush, ← hnext,
      ih (.inr (Nat.succ_lt_succ hsrc)), hpush, List.append_assoc]
    rfl

end bytes

/-! ### The best match of the machine is that of the list (R122, R124) -/

theorem matchLen_eq_matchLengthAt {s : State} {pos o : Nat} (ho : o < pos) :
    matchLen s pos o = matchLengthAt (inputBytes s) pos o := by
  refine (matchLen_isMatchLen s pos o).unique ⟨matchLengthAt_le _ _ _, fun j hj => ?_, ?_⟩
  · obtain ⟨b, hsrc, hdst⟩ := matchLengthAt_agree hj
    obtain ⟨hlt, -⟩ := List.getElem?_eq_some_iff.1 hdst
    rw [inputBytes_length] at hlt
    rw [inputBytes_getElem? hlt] at hdst
    rw [inputBytes_getElem? (by omega)] at hsrc
    exact ⟨hlt, Option.some.inj (hsrc.trans hdst.symm)⟩
  · rcases matchLengthAt_maximal (inputBytes s) pos o (inByte s (pos + matchLengthAt (inputBytes s) pos o)) with
      hcap | hdiff
    · exact .inl hcap
    · by_cases hlt : pos + matchLengthAt (inputBytes s) pos o < s.inLen
      · refine .inr (.inr fun hsame => hdiff ⟨?_, inputBytes_getElem? hlt⟩)
        rw [inputBytes_getElem? (by omega), hsame]
      · exact .inr (.inl (Nat.le_of_not_lt hlt))

/-- The search of the machine stands where the search on the list stands: the same length, and the same candidate once there is
one (`BEST_O` is unspecified before, R125). -/
structure SameBest (s t : State) (best : Nat × Nat) : Prop where
  inLen : t.inLen = s.inLen
  inByte : ∀ i, inByte t i = inByte s i
  length : t.bestLen.toNat = best.1
  candidate : 1 ≤ best.1 → t.bestO = best.2

theorem sameBest_tryCandidate {s t : State} {best : Nat × Nat} {pos o : Nat} (h : SameBest s t best) (ho : o < pos) :
    SameBest s (tryCandidate pos t o) (better (inputBytes s) pos best o) := by
  obtain ⟨hlen, hbyte, hbest, hcand⟩ := h
  have hmatch : matchLen t pos o = matchLengthAt (inputBytes s) pos o :=
    (matchLen_congr hlen hbyte pos o).trans (matchLen_eq_matchLengthAt ho)
  unfold tryCandidate better
  simp only [hmatch, hbest]
  split
  · exact ⟨hlen, hbyte, toNat_ofNat_of_le (matchLengthAt_le _ _ _), fun _ => rfl⟩
  · exact ⟨hlen, hbyte, hbest, hcand⟩

theorem sameBest_foldl {s t : State} {best : Nat × Nat} {pos : Nat} (os : List Nat) (h : SameBest s t best)
    (hos : ∀ o ∈ os, o < pos) :
    SameBest s (os.foldl (tryCandidate pos) t) (os.foldl (better (inputBytes s) pos) best) := by
  induction os generalizing t best with
  | nil => exact h
  | cons o os ih =>
    exact ih (sameBest_tryCandidate h (hos o List.mem_cons_self)) fun p hp => hos p (List.mem_cons_of_mem _ hp)

theorem sameBest_findBest (s : State) (pos : Nat) : SameBest s (findBest pos s) (bestMatch (inputBytes s) pos) :=
  sameBest_foldl (candidates pos) ⟨rfl, fun _ => rfl, rfl, nofun⟩ fun _ ho => (mem_candidates.1 ho).2

/-! ### The result that an operation in progress will have -/

/-- The result of a command from `pos` on, with `out` produced before. -/
def resultFrom (cmd : BitVec 2) (data : List Byte) (pos : Nat) (out : List Byte) : Returned :=
  if cmd = 0b00 then .bytes (out ++ rleEncoded (data.drop pos))
  else if cmd = 0b01 then rleExpanded pos out (data.drop pos)
  else if cmd = 0b10 then .bytes (out ++ lzRest data pos)
  else lzExpanded pos out (data.drop pos)

/-- From the first token on, where the odd-length test has passed, it is the result of the operation. -/
theorem resultFrom_zero {cmd : BitVec 2} {data : List Byte} (heven : cmd = 0b01 → data.length % 2 = 0) :
    resultFrom cmd data 0 [] = operationResult cmd data := by
  rcases cmd_cases cmd with rfl | rfl | rfl | rfl
  · rfl
  · exact (if_neg (by rw [heven rfl]; decide)).symm
  · rfl
  · rfl

/-- At the end of the input it is what has been produced. -/
theorem resultFrom_atEnd (cmd : BitVec 2) {data : List Byte} {pos : Nat} (h : data.length ≤ pos) (out : List Byte) :
    resultFrom cmd data pos out = .bytes out := by
  have hdrop : data.drop pos = [] := List.drop_of_length_le h
  rcases cmd_cases cmd with rfl | rfl | rfl | rfl
  · exact congrArg Returned.bytes (by rw [hdrop, rleEncoded, List.append_nil])
  · exact (congrArg (rleExpanded pos out) hdrop).trans (by rw [rleExpanded])
  · exact congrArg Returned.bytes (by rw [lzRest_atEnd h, List.append_nil])
  · exact (congrArg (lzExpanded pos out) hdrop).trans (lzExpanded_nil pos out)

/-- The result that the operation in progress in `s` will have. -/
def expected (s : State) : Returned :=
  if s.phase = .body then resultFrom s.cmd (inputBytes s) s.pos (outputBytes s)
  else operationResult s.cmd (inputBytes s)

theorem expected_body {s : State} (h : s.phase = .body) :
    expected s = resultFrom s.cmd (inputBytes s) s.pos (outputBytes s) := if_pos h

/-- The operation has the result `r`, or is in progress and will have it. -/
def HasResult (r : Returned) (s : State) : Prop :=
  (s.status = .busy ∧ expected s = r) ∨ (s.status ≠ .busy ∧ returned s = some r)

/-- A failure entry returns its record. -/
theorem hasResult_failed {r : Returned} {kd : ErrKind} {c : ErrCause} {p i0 i1 : Nat} (s : State)
    (h : r = .failure kd c p i0 i1) : HasResult r (failed kd c p i0 i1 s) := .inr ⟨nofun, congrArg some h.symm⟩

/-- After a token the result is that from the new `POS` on, with the appended bytes. -/
theorem GoesOn.hasResult {vs : List Byte} {s t : State} {r : Returned} (hg : GoesOn vs s t) (hb : s.status = .busy)
    (hphase : t.phase = .body) (h : r = resultFrom s.cmd (inputBytes s) t.pos (outputBytes s ++ vs)) :
    HasResult r t := by
  obtain ⟨⟨hcmd, -, hlen, -, hbyte⟩, -⟩ := sameInput_of_inputView hg.input
  have hin : inputBytes t = inputBytes s := by
    rw [inputBytes, hlen]
    exact List.map_congr_left fun i _ => hbyte i
  rw [h, ← hin, ← hcmd, ← outputBytes_of_appended (appended_of_outputView hg.output).1]
  exact .inl ⟨hg.status.trans hb, expected_body hphase⟩

theorem resultFrom_rleDecompress (data : List Byte) (pos : Nat) (out : List Byte) :
    resultFrom 0b01 data pos out = rleExpanded pos out (data.drop pos) := rfl

theorem resultFrom_lzDecompress (data : List Byte) (pos : Nat) (out : List Byte) :
    resultFrom 0b11 data pos out = lzExpanded pos out (data.drop pos) := rfl

section tokens -- no token changes the result
variable {s : State} (hl : s.pos < s.inLen)
include hl

theorem resultFrom_run (out : List Byte) :
    resultFrom 0b00 (inputBytes s) s.pos out =
      resultFrom 0b00 (inputBytes s) (s.pos + runLength s) (out ++ [BitVec.ofNat 8 (runLength s), inByte s s.pos]) := by
  have hrun := runLength_isRunLength hl
  refine congrArg Returned.bytes ?_
  rw [drop_inputBytes_run hrun, rleEncoded_run hrun.pos hrun.le_cap hrun.cut, List.append_assoc]
  rfl

theorem resultFrom_longMatch (out : List Byte) (h3 : 3 ≤ (findBest s.pos s).bestLen.toNat) :
    resultFrom 0b10 (inputBytes s) s.pos out =
      resultFrom 0b10 (inputBytes s) (s.pos + (findBest s.pos s).bestLen.toNat)
        (out ++ [0x01, BitVec.ofNat 8 (s.pos - (findBest s.pos s).bestO), (findBest s.pos s).bestLen]) := by
  obtain ⟨-, -, hlength, hcandidate⟩ := sameBest_findBest s s.pos
  have hbest : (findBest s.pos s).bestLen = BitVec.ofNat 8 (bestMatch (inputBytes s) s.pos).1 := by
    rw [← hlength, BitVec.ofNat_toNat, BitVec.setWidth_eq]
  refine congrArg Returned.bytes ?_
  rw [hcandidate (by omega), hlength, hbest, lzRest_match (by simpa using hl) (hlength ▸ h3), List.append_assoc]
  rfl

theorem resultFrom_shortMatch (out : List Byte) (h2 : (findBest s.pos s).bestLen.toNat ≤ 2) :
    resultFrom 0b10 (inputBytes s) s.pos out =
      resultFrom 0b10 (inputBytes s) (s.pos + 1) (out ++ [0x00, inByte s s.pos]) := by
  have hlength := (sameBest_findBest s s.pos).length
  refine congrArg Returned.bytes ?_
  rw [lzRest_literal (inputBytes_getElem? hl) (by omega), List.append_assoc]
  rfl

theorem resultFrom_incompleteMatch (out : List Byte) (hl2 : s.inLen ≤ s.pos + 2) (h1 : inByte s s.pos = 1) :
    resultFrom 0b11 (inputBytes s) s.pos out =
      .failure .invalidFormat .lzIncompleteMatch s.pos (s.inLen - s.pos - 1) 0 := by
  rw [resultFrom_lzDecompress]
  by_cases hlast : s.pos + 1 = s.inLen
  · rw [drop_inputBytes hl, drop_inputBytes_atEnd hlast.ge, h1]
    refine (lzExpanded_noFields _ _).trans ?_
    rw [show s.inLen - s.pos - 1 = 0 by omega]
  · rw [drop_inputBytes_two (by omega), drop_inputBytes_atEnd hl2, h1]
    refine (lzExpanded_oneField _ _ _).trans ?_
    rw [show s.inLen - s.pos - 1 = 1 by omega]

end tokens

/-- No step on a token changes the result. -/
theorem TokenStep.hasResult {s t : State} (hb : s.status = .busy) (hbody : s.phase = .body) (hl : s.pos < s.inLen)
    (h : TokenStep s t) : HasResult (expected s) t := by
  rw [expected_body hbody]
  cases h with
  | run hc hr =>
    refine (goesOn_afterRun hr _).hasResult hb hbody ?_
    rw [hc]
    exact resultFrom_run hl _
  | zeroCount hc hl1 h0 =>
    refine hasResult_failed _ ?_
    rw [hc, resultFrom_rleDecompress, drop_inputBytes_two hl1, rleExpanded, if_pos h0]
  | pair hc hl1 h0 hr =>
    refine (goesOn_afterPair hr _).hasResult hb hbody ?_
    rw [hc, resultFrom_rleDecompress, drop_inputBytes_two hl1, rleExpanded, if_neg h0]
    rfl
  | longMatch hc h3 hr =>
    rw [afterEmitMatch_findBest]
    refine GoesOn.hasResult (goesOn_tokenEmitted _ hr) hb ((findBest_phase _ s).trans hbody) ?_
    rw [hc]
    exact resultFrom_longMatch hl _ h3
  | shortMatch hc h2 hr =>
    rw [afterEmitLiteral_findBest]
    refine GoesOn.hasResult (goesOn_tokenEmitted _ hr) hb ((findBest_phase _ s).trans hbody) ?_
    rw [hc]
    exact resultFrom_shortMatch hl _ h2
  | illegalTag hc h0 h1 =>
    refine hasResult_failed _ ?_
    rw [hc, resultFrom_lzDecompress, drop_inputBytes hl, lzExpanded_badTag _ _ _ h0 h1]
  | missingLiteral hc hl1 h0 =>
    refine hasResult_failed _ ?_
    rw [hc, resultFrom_lzDecompress, drop_inputBytes hl, drop_inputBytes_atEnd hl1.ge, h0]
    exact lzExpanded_missingLiteral _ _
  | literal hc hl1 h0 hr =>
    refine (goesOn_afterLiteral hr _).hasResult hb hbody ?_
    rw [hc, resultFrom_lzDecompress, drop_inputBytes_two hl1, h0]
    exact lzExpanded_literal ..
  | incompleteMatch hc hl2 h1 =>
    refine hasResult_failed _ ?_
    rw [hc, resultFrom_incompleteMatch hl _ hl2 h1]
  | offsetRange hc hl2 h1 ho =>
    refine hasResult_failed _ ?_
    rw [hc, resultFrom_lzDecompress, drop_inputBytes_three hl2, h1]
    refine (lzExpanded_offsetRange (by rwa [outputBytes_length])).trans ?_
    rw [outputBytes_length]
  | zeroOffset hc hl2 h1 hz hw =>
    refine hasResult_failed _ ?_
    rw [hc, resultFrom_lzDecompress, drop_inputBytes_three hl2, h1, hz]
    exact lzExpanded_zeroOffset hw
  | copy hc hl2 h1 ho hz hr =>
    refine (goesOn_afterMatch _ hr).hasResult hb hbody ?_
    have hcopied : copied (inByte s (s.pos + 1)).toNat (inByte s (s.pos + 2)).toNat (outputBytes s) = outputBytes s ++
        periodicBytes s (s.outLen - (inByte s (s.pos + 1)).toNat) (inByte s (s.pos + 2)).toNat := by
      rw [← copied_outputBytes, Nat.sub_sub_self ho]
      rcases hz with hz | hz
      · exact .inr (Nat.sub_lt (Nat.lt_of_lt_of_le (toNat_pos hz) ho) (toNat_pos hz))
      · exact .inl (congrArg BitVec.toNat hz)
    rw [hc, resultFrom_lzDecompress, drop_inputBytes_three hl2, h1, ← hcopied]
    exact lzExpanded_match (by rwa [outputBytes_length]) hz

/-- No step of the ENGINE changes the result. -/
theorem EngineStep.hasResult {s t : State} (hs : OnCourse s) (hb : s.status = .busy) (hv : s.inValid = true)
    (h : EngineStep s t) : HasResult (expected s) t := by
  have atStart : s.phase ≠ .body → s.pos = 0 ∧ outputBytes s = [] := fun hp =>
    (hs.atBeginning hp).imp_right outputBytes_of_outLen_eq_zero
  cases h with
  | notBound _ hv' => exact nomatch hv.symm.trans hv'
  | bound hp _ =>
    have hp : s.phase ≠ .body := by rw [hp]; nofun
    obtain ⟨hpos, hout⟩ := atStart hp
    refine .inl ⟨hb, ?_⟩
    by_cases hc : s.cmd = 0b01
    · rw [expected, expected, if_neg hp]
      exact if_neg (by simp [afterPrologue, hc])
    · rw [expected_body (if_neg hc), expected, if_neg hp, ← resultFrom_zero fun h => absurd h hc]
      exact congrArg₂ (resultFrom s.cmd (inputBytes s)) hpos hout
  | oddLength hp hc ho =>
    refine hasResult_failed _ ?_
    rw [expected, if_neg (by rw [hp]; nofun), hc]
    show rleDecoded (inputBytes s) = _
    rw [rleDecoded, if_pos (by rwa [inputBytes_length]), inputBytes_length]
  | evenLength hp hc he =>
    obtain ⟨hpos, hout⟩ := atStart (by rw [hp]; nofun)
    refine .inl ⟨hb, ?_⟩
    rw [expected_body rfl, expected, if_neg (by rw [hp]; nofun),
      ← resultFrom_zero fun _ => by rwa [inputBytes_length]]
    exact congrArg₂ (resultFrom s.cmd (inputBytes s)) hpos hout
  | completes hend =>
    refine .inr ⟨nofun, ?_⟩
    rw [expected_body hend.1, resultFrom_atEnd _ (by simpa using hend.2)]
    rfl
  | token hp hl ht => exact ht.hasResult hb hp hl

/-! ### Runs -/

/-- A state from which, or in which, the operation has the result `r`. -/
structure OnTheWayTo (r : Returned) (s : State) : Prop where
  agenda : s.agenda = []
  bound : s.inValid = true
  onCourse : s.status = .busy → OnCourse s
  errorEmpty : s.status = .error → s.outLen = 0
  result : HasResult r s

theorem onTheWayTo_begun {cmd : BitVec 2} {s : State} (hs : ReadyToStart cmd s) :
    OnTheWayTo (operationResult cmd (inputBytes s)) (begun s) :=
  ⟨rfl, hs.bound, fun _ => onCourse_started _, nofun, .inl ⟨rfl, by rw [← hs.selected]; rfl⟩⟩

theorem OnTheWayTo.step {r : Returned} {s t : State} (h : OnTheWayTo r s) (hstep : step s = .next t) :
    OnTheWayTo r t := by
  obtain ⟨ha, hv, hcourse, herror, hresult⟩ := h
  obtain ⟨-, hvalid, -, -, -, -, hagenda⟩ := inputView_eq_iff.1 (step_inputView ha hstep)
  rcases hresult with ⟨hb, rfl⟩ | ⟨hb, hreturned⟩
  · have hs := hcourse hb
    have hengine := engineStep_of_step hs hb ha hstep
    refine ⟨hagenda.trans ha, hvalid.trans hv, fun hbusy => ?_, fun herr => ?_, hengine.hasResult hs hb hv⟩
    · cases hengine.stepKind hs with
      | fails c _ _ hfail =>
        obtain ⟨_, _, _, _, _, _, _, rfl, -⟩ := hfail
        cases hbusy
      | completes _ _ ht => subst ht; cases hbusy
      | goesOn _ _ _ ht _ => exact ht
    · rw [step_busy ha hb] at hstep
      exact (execCommand_fails hb herr hstep).1
  · rw [step_idle ha hb] at hstep
    cases hstep
    exact ⟨ha, hv, hcourse, herror, .inr ⟨hb, hreturned⟩⟩

theorem onTheWayTo_of_runsTo {cmd : BitVec 2} {s t : State} (hs : ReadyToStart cmd s) (hrun : RunsTo s t) :
    OnTheWayTo (operationResult cmd (inputBytes s)) t := by
  obtain ⟨n, hn⟩ := hrun
  rw [runSteps_succ, step_start hs.notBusy hs.startNext] at hn
  exact reaches_keeps (fun _ _ => OnTheWayTo.step) (onTheWayTo_begun hs) ⟨n, hn⟩

/-- Whatever a run of an operation ends with is the operation's result, with or without a capacity. -/
theorem returned_of_runsTo {cmd : BitVec 2} {s t : State} (hs : ReadyToStart cmd s) (hrun : RunsTo s t)
    (hend : t.status ≠ .busy) : returned t = some (operationResult cmd (inputBytes s)) := by
  rcases (onTheWayTo_of_runsTo hs hrun).result with ⟨hb, -⟩ | ⟨-, hreturned⟩
  · exact absurd hb hend
  · exact hreturned

/-- Without an output capacity an operation runs to its result. -/
theorem exists_runsTo_result {cmd : BitVec 2} {s : State} (hs : ReadyToStart cmd s) (hcap : s.params.outCap = none) :
    ∃ t, RunsTo s t ∧ (t.status = .done ∨ t.status = .error) ∧
      returned t = some (operationResult cmd (inputBytes s)) := by
  obtain ⟨n, t, -, hn, hend⟩ := exists_end_of_readyToStart hs hcap
  have hidle : t.status ≠ .busy := by rcases hend with h | h <;> rw [h] <;> nofun
  exact ⟨t, ⟨n, hn⟩, hend, returned_of_runsTo hs ⟨n, hn⟩ hidle⟩

/-- Settles O55: the operation ends, and ends with its result. -/
theorem stepsRefineTheWholeOperation : Obligations.StepsRefineTheWholeOperation := by
  intro cmd s hs hcap
  obtain ⟨t, hrun, -, hresult⟩ := exists_runsTo_result hs hcap
  exact ⟨t, hrun, hresult⟩

end Sys2Proof.Machine
end

section
/-! What follows for the results of whole operations from their meaning on lists: round trips (R90), the form of the encoders'
outputs (R102, R104, R134) and the bounds on lengths (R55). -/

namespace Sys2Proof.Machine

/-! ### Reading a result back -/

theorem returned_of_done {t : State} (hd : t.status = .done) : returned t = some (.bytes (outputBytes t)) := by
  rw [returned, hd]

/-- Bytes are returned in `DONE` only, and are the output (R85). -/
theorem done_of_returned_bytes {t : State} {bs : List Byte} (h : returned t = some (.bytes bs)) :
    t.status = .done ∧ outputBytes t = bs := by
  cases hst : t.status <;> rw [returned, hst] at h <;> cases h
  exact ⟨rfl, rfl⟩

/-- What a completed operation returns is its output. -/
theorem operationResult_of_done {cmd : BitVec 2} {s t : State} (hs : ReadyToStart cmd s) (hrun : RunsTo s t)
    (hd : t.status = .done) : operationResult cmd (inputBytes s) = .bytes (outputBytes t) :=
  Option.some.inj ((returned_of_runsTo hs hrun (by rw [hd]; nofun)).symm.trans (returned_of_done hd))

section completed
variable {s t : State} (hrun : RunsTo s t) (hd : t.status = .done)
include hrun hd

theorem outputBytes_of_rleCompress (hs : ReadyToStart 0b00 s) : outputBytes t = rleEncoded (inputBytes s) :=
  (Returned.bytes.inj (operationResult_of_done hs hrun hd)).symm

theorem outputBytes_of_lzCompress (hs : ReadyToStart 0b10 s) : outputBytes t = lzEncoded (inputBytes s) :=
  (Returned.bytes.inj (operationResult_of_done hs hrun hd)).symm

end completed

/-! ### Round trips -/

/-- Settles O59: the round trip on lists, between the results of the two operations. -/
theorem runLengthCodingRoundTrips : Obligations.RunLengthCodingRoundTrips := by
  intro s hs hcap
  obtain ⟨t, hrun, -, hresult⟩ := exists_runsTo_result hs hcap
  obtain ⟨hdone, hout⟩ := done_of_returned_bytes hresult
  refine ⟨t, hrun, hdone, fun u hu hcapu hin => ?_⟩
  obtain ⟨v, hrunv, -, hresultv⟩ := exists_runsTo_result hu hcapu
  exact ⟨v, hrunv, by rw [hresultv, hin, hout]; exact congrArg some (rleDecoded_rleEncoded (inputBytes s))⟩

/-- Settles O60: the round trip on lists, between the results of the two operations. -/
theorem matchCodingRoundTrips : Obligations.MatchCodingRoundTrips := by
  intro s hs hcap
  obtain ⟨t, hrun, -, hresult⟩ := exists_runsTo_result hs hcap
  obtain ⟨hdone, hout⟩ := done_of_returned_bytes hresult
  refine ⟨t, hrun, hdone, fun u hu hcapu hin => ?_⟩
  obtain ⟨v, hrunv, -, hresultv⟩ := exists_runsTo_result hu hcapu
  exact ⟨v, hrunv, by rw [hresultv, hin, hout]; exact congrArg some (lzDecoded_lzEncoded (inputBytes s))⟩

/-! ### The form of the encoders' outputs -/

/-- Settles O14: the encoding of equal bytes, with the quotient and the remainder by 255. -/
theorem runsAreCutAt255 : Obligations.RunsAreCutAt255 := by
  intro s n b hs hcap hin
  obtain ⟨t, hrun, -, hresult⟩ := exists_runsTo_result hs hcap
  have hencoded := rleEncoded_replicate b (n / 255) (Nat.mod_lt n (by decide : 255 > 0))
  rw [Nat.div_add_mod, ← hin] at hencoded
  exact ⟨t, hrun, by rw [hresult, ← hencoded]; rfl⟩

/-- Settles O15: the output is the encoding of the input, whose pairs are canonical. -/
theorem runEncoderOutputIsCanonical : Obligations.RunEncoderOutputIsCanonical := by
  intro s t hs hrun hd
  obtain ⟨heven, hcount, hfull⟩ : CanonicalPairs (outputBytes t) :=
    outputBytes_of_rleCompress hrun hd hs ▸ canonicalPairs_rleEncoded (inputBytes s)
  rw [outputBytes_length] at heven
  refine ⟨heven, fun k hk h0 => hcount k ?_, fun k hk hsame => ?_⟩
  · rw [outputBytes_getElem? hk, h0]
  · have h := hfull k _ (outputBytes_getElem? (by omega)) (hsame ▸ outputBytes_getElem? hk)
    rw [outputBytes_getElem? (by omega)] at h
    exact Option.some.inj h

/-- Settles O27: the output is the encoding of the input, which begins with the literal of its first byte. -/
theorem theFirstTokenIsALiteral : Obligations.TheFirstTokenIsALiteral := by
  intro s t hs hpos hrun hd
  have hout := outputBytes_of_lzCompress hrun hd hs
  obtain ⟨rest, hrest⟩ := lzEncoded_cons (inByte s 0) ((inputBytes s).drop 1)
  rw [← drop_inputBytes hpos, List.drop_zero, ← hout] at hrest
  have hlen : 2 ≤ t.outLen := by
    rw [← outputBytes_length, hrest]
    exact Nat.le_add_left 2 rest.length
  have h0 := outputBytes_getElem? (s := t) (i := 0) (by omega)
  have h1 := outputBytes_getElem? (s := t) (i := 1) (by omega)
  rw [hrest] at h0 h1
  exact ⟨(Option.some.inj h0).symm, (Option.some.inj h1).symm, hlen⟩

/-! ### The lengths of results -/

/-- Settles O57: the bounds on lists, and no output after a failure. -/
theorem resultLengthsAreBounded : Obligations.ResultLengthsAreBounded := by
  intro cmd s t hs hrun
  refine ⟨fun hd => ?_, (onTheWayTo_of_runsTo hs hrun).errorEmpty⟩
  have hresult := operationResult_of_done hs hrun hd
  rw [← outputBytes_length t, ← inputBytes_length s]
  refine ⟨?_, ?_, ?_, ?_⟩ <;> rintro rfl
  · rw [outputBytes_of_rleCompress hrun hd hs]
    exact ⟨(canonicalPairs_rleEncoded _).even, boundedPairs_rleEncoded _⟩
  · exact length_rleDecoded hresult
  · rw [outputBytes_of_lzCompress hrun hd hs]
    exact length_lzEncoded _
  · exact length_lzDecoded hresult

end Sys2Proof.Machine
end

section
/-! Single steps by name: the RLE encoder's step (R101), the odd-length test (R111), the literal (R143), the token at `POS`
(R110, R142), and the token window that the decoder is given (R60, R66). -/

namespace Sys2Proof.Machine

/-! ### The RLE encoder's step (R101) -/

theorem equalRun_runLength {s : State} (hl : s.pos < s.inLen) : EqualRun s s.pos (runLength s) := by
  obtain ⟨hpos, hcap, hinside, hequal, -⟩ := runLength_isRunLength hl
  exact ⟨hpos, hcap, hinside, hequal⟩

/-- No run of equal bytes is longer than the one the encoder counts: it ends at the cap, the end of the input or another
byte. -/
theorem EqualRun.le_runLength {s : State} {d : Nat} (hl : s.pos < s.inLen) (h : EqualRun s s.pos d) :
    d ≤ runLength s := by
  obtain ⟨-, hcap, hinside, hequal⟩ := h
  by_contra hlt
  rcases (runLength_isRunLength hl).maximal with hmax | hend | hdiff
  · rw [hmax, Config.maxRun] at hlt
    omega
  · omega
  · exact hdiff (hequal _ (by omega))

/-- Settles O13: the run counted is the longest, and its pair is what the step appends. -/
theorem theRunEncoderEmitsTheLongestRun : Obligations.TheRunEncoderEmitsTheLongestRun := by
  intro s hp hl hr
  have hstep : exec .rleCompress s = .next (afterRun (runLength s) s) :=
    (exec_rleCompress_body hp hl).trans (rleEncodeStep_of_room hl hr)
  have hg := goesOn_afterRun hr (runLength s)
  exact ⟨_, runLength s, hstep, equalRun_runLength hl, fun d hd => hd.le_runLength hl, (appended_of_outputView hg.output).1,
    rfl, rfl, rfl, hg.status, (sameInput_of_inputView hg.input).1, hg.failure, ⟨rfl, rfl, rfl, rfl⟩,
    rfl, rfl, rfl, rfl, rfl, rfl⟩

/-! ### The odd-length test (R111) -/

theorem execRleIllegalOddLength_eq (last : Byte) (s : State) :
    execRleIllegalOddLength last s = .next (failed .invalidFormat .rleOddLength (s.inLen - 1) s.inLen 0 s) := rfl

/-- Settles O18: the failure entry with the length. -/
theorem oddLengthRecordsTheLength : Obligations.OddLengthRecordsTheLength := fun last s =>
  ⟨_, execRleIllegalOddLength_eq last s, failedWith_failed .., failed_workingRegs ..⟩

/-- The odd-length test, failed (R111). -/
theorem step_oddLength {s : State} (ha : s.agenda = []) (hb : s.status = .busy) (hc : s.cmd = 0b01)
    (hp : s.phase = .lengthTest) (hodd : s.inLen % 2 = 1) :
    step s = .next (failed .invalidFormat .rleOddLength (s.inLen - 1) s.inLen 0 s) := by
  have hodd' : isOdd s.inLen = true := beq_iff_eq.2 hodd
  rw [step_busy ha hb, hc]
  show execRleDecompress s = _
  simp only [execRleDecompress, hp, if_pos hodd', execRleIllegalOddLength_eq]

/-- START and the prologue of `RLE.DECOMPRESS` lead to its odd-length test. -/
theorem runSteps_toLengthTest {s : State} (hs : ReadyToStart 0b01 s) (n : Nat) :
    runSteps (n + 2) s = runSteps n (afterPrologue (begun s)) := by
  have hprologue : step (begun s) = .next (afterPrologue (begun s)) := step_prologue rfl rfl rfl hs.bound
  rw [runSteps_succ, step_start hs.notBusy hs.startNext, andThen_next, runSteps_succ, hprologue, andThen_next]

/-- Settles O19: the third step is the test, which fails or passes by the parity of the length alone. -/
theorem oddLengthIsTestedBeforeAnyPair : Obligations.OddLengthIsTestedBeforeAnyPair := by
  intro s hs
  have hphase : (afterPrologue (begun s)).phase = .lengthTest := if_pos hs.selected
  rw [runSteps_toLengthTest hs 1, runSteps_succ]
  by_cases hodd : s.inLen % 2 = 1
  · have htest := step_oddLength (s := afterPrologue (begun s)) rfl rfl hs.selected hphase hodd
    rw [htest]
    exact ⟨_, rfl, fun _ => ⟨rfl, rfl⟩, fun heven => by omega⟩
  · have htest := step_evenLength (s := afterPrologue (begun s)) rfl rfl hs.selected hphase
      (Nat.mod_two_ne_one.1 hodd)
    rw [htest]
    exact ⟨_, rfl, fun h => absurd h hodd, fun _ => ⟨rfl, rfl, rfl, rfl⟩⟩

/-! ### Literals, and the token at `POS` (R110, R142, R143) -/

/-- Settles O28: the state after a literal. -/
theorem literalsAppendTheirByte : Obligations.LiteralsAppendTheirByte := by
  intro b s hl hr
  have hg := goesOn_afterLiteral hr b
  exact ⟨_, execLzLit_of_room hl hr, (appended_of_outputView hg.output).1, rfl, rfl, rfl, hg.status,
    (sameInput_of_inputView hg.input).1, hg.failure, ⟨⟨rfl, rfl⟩, rfl, rfl, rfl, rfl⟩, rfl, rfl, rfl, rfl⟩

theorem lzDecodeStep_otherTag {s : State} (h0 : inByte s s.pos ≠ 0x00) (h1 : inByte s s.pos ≠ 0x01) :
    lzDecodeStep s = execLzIllegalTag (inByte s s.pos) s := (if_neg h0).trans (if_neg h1)

/-- Settles O20: the step of each decode command on the token at `POS`, by its tag. -/
theorem theDecodeCommandsRunTheTokenAtPos : Obligations.TheDecodeCommandsRunTheTokenAtPos := by
  intro s hp hl
  have hrle := exec_rleDecompress_body hp hl
  have hlz := exec_lzDecompress_body hp hl
  refine ⟨fun hl1 => ?pair, fun h0 => ⟨hlz.trans (lzDecodeStep_literal h0), fun hl1 hr => ?literal⟩,
    fun h1 => hlz.trans (lzDecodeStep_match h1), fun h0 h1 => hlz.trans (lzDecodeStep_otherTag h0 h1)⟩
  case pair =>
    have hstep := hrle.trans (rleDecodeStep_eq hl1)
    exact ⟨hstep, fun h0 hr => ⟨_, hstep.trans (execRlePair_of_room h0 hr), appended_afterPair .., rfl⟩⟩
  case literal =>
    have happended := (appended_of_outputView (goesOn_afterLiteral hr (inByte s (s.pos + 1))).output).1
    refine ⟨_, (hlz.trans (lzDecodeStep_literal h0)).trans ?_, happended, rfl⟩
    rw [operandByte_of_lt hl1, execLzLit_of_room hl1 hr]

/-! ### The token window -/

/-- Settles O6: the window is a list of consecutive bytes of `IN`, cut at three and at `IN_LEN`. -/
theorem theTokenWindowStaysInsideTheInput : Obligations.TheTokenWindowStaysInsideTheInput := by
  intro s
  refine ⟨by simp [tokenWindow], fun j b hb => ?_⟩
  rw [tokenWindow, List.getElem?_map, Option.map_eq_some_iff] at hb
  obtain ⟨i, hi, rfl⟩ := hb
  obtain ⟨hlt, rfl⟩ := List.getElem?_eq_some_iff.1 hi
  rw [List.length_range] at hlt
  rw [List.getElem_range]
  exact ⟨by omega, rfl⟩

end Sys2Proof.Machine
end

section
/-! The course of an operation step by step: which instruction a step runs (R83, R142), START (R80, R198), the prologue (R81)
and completion (R84). -/

namespace Sys2Proof.Machine

/-! ### Which instruction a step runs -/

theorem step_engineMove {s : State} {rest : List Move} (ha : s.agenda = .engine :: rest) (hb : s.status = .busy) :
    step s = exec (fetch { s with agenda := rest }) { s with agenda := rest } := by
  simp only [step, nextMove, ha, engineTurn, if_pos hb]

theorem step_hostMove {s : State} {a : HostAction} {rest : List Move} (ha : s.agenda = .host a :: rest) :
    step s = hostAct a { s with agenda := rest } := by
  simp only [step, nextMove, ha]

/-- Past its tests a decoder runs the token that its stream spells at `POS`. -/
theorem fetch_of_decode {s : State} {i : Instr} {rest : List Byte} {space : Space} (hp : s.phase = .body)
    (hl : s.pos < s.inLen) (hspace : tokenSpace (decodeCommand s.cmd) = some space)
    (hdecode : decode space (tokenWindow s) = .ok (i, rest)) : fetch s = i := by
  simp only [fetch, hp, if_pos hl, fetchToken, hspace, hdecode]

/-- Settles O5: the fetched instruction is what a step runs, and a listed move is made in its place. -/
theorem stepRunsTheDecodedInstruction : Obligations.StepRunsTheDecodedInstruction := by
  refine ⟨fun s ha hb => ?engine, fun s rest ha hb => step_engineMove ha hb, fun s rest ha => step_hostMove ha,
    fun s a rest ha => step_hostMove ha⟩
  case engine =>
    have hcommand := step_busy ha hb
    have hfetch : step s = exec (fetch s) s := hcommand.trans (exec_fetch s).symm
    refine ⟨hfetch, fun _ => hcommand, fun hp hc => ?test, fun hp hl hc i rest hdecode => ?rle,
      fun hp hl hc i rest hdecode => ?lz, fun _ _ => hcommand⟩
    case test =>
      rw [hcommand, hc]
      by_cases hodd : s.inLen % 2 = 1
      · have hodd' : isOdd s.inLen = true := beq_iff_eq.2 hodd
        rw [if_pos hodd]
        show execRleDecompress s = _
        simp only [execRleDecompress, hp, if_pos hodd']
        rfl
      · rw [if_neg hodd]
        rfl
    case rle => rw [hfetch, fetch_of_decode hp hl (by rw [hc]; rfl) hdecode]
    case lz => rw [hfetch, fetch_of_decode hp hl (by rw [hc]; rfl) hdecode]

/-- Settles O7: the machine at rest. -/
theorem theEngineIsIdleUnlessBusy : Obligations.TheEngineIsIdleUnlessBusy :=
  fun _ hb ha n => runSteps_idle ha hb n

/-! ### START -/

theorem execStart_of_notBusy {s : State} (hb : s.status ≠ .busy) : execStart s = .next (started s) := if_neg hb

theorem execStart_eq_next {s t : State} (h : execStart s = .next t) : s.status ≠ .busy ∧ t = started s := by
  by_cases hb : s.status = .busy
  · rw [execStart_of_busy hb] at h
    cases h
  · rw [execStart_of_notBusy hb] at h
    cases h
    exact ⟨hb, rfl⟩

/-- START writes no register that the HOST wrote, no working register but `POS`, and no cell (R80). -/
theorem started_frame (s : State) :
    SameInput s (started s) ∧ SameEncoderRegs s (started s) ∧ SameDecoderRegs s (started s) :=
  ⟨⟨rfl, rfl, rfl, rfl, fun _ => rfl⟩, ⟨⟨rfl, rfl⟩, rfl, rfl, rfl, rfl⟩, rfl, rfl, rfl, rfl, rfl, rfl⟩

/-- Settles O8: the state after START, and its refusal. -/
theorem startBeginsAnOperation : Obligations.StartBeginsAnOperation := by
  refine fun s => ⟨fun hb => ?_, execStart_of_busy⟩
  obtain ⟨hinput, hencoder, hdecoder⟩ := started_frame s
  exact ⟨_, execStart_of_notBusy hb, rfl, rfl, rfl, rfl, rfl, rfl, rfl, rfl, rfl, hinput, hencoder, hdecoder, rfl, rfl⟩

/-! ### The prologue -/

section prologue
variable {s : State} (hp : s.phase = .prologue)
include hp

theorem fetch_prologue : fetch s = decodeCommand s.cmd := by
  simp only [fetch, hp]

/-- Without a buffer the prologue of every command fails (R81). -/
theorem execCommand_notBound (hv : s.inValid = false) (w : BitVec 2) :
    exec (decodeCommand w) s = .next (failed .invalidInput .notABuffer 0 0 0 s) := by
  rcases cmd_cases w with rfl | rfl | rfl | rfl
  · show execRleCompress s = _
    simp [execRleCompress, hp, prologue_eq, hv]
  · show execRleDecompress s = _
    simp [execRleDecompress, hp, prologue_eq, hv]
  · show execLzCompress s = _
    simp [execLzCompress, hp, prologue_eq, hv]
  · show execLzDecompress s = _
    simp [execLzDecompress, hp, prologue_eq, hv]

/-- With one it goes on to the phase that is next for the command, and `LZ.DECOMPRESS` then expects a tag. -/
theorem execCommand_bound (hv : s.inValid = true) (w : BitVec 2) :
    exec (decodeCommand w) s = .next
      { s with
        phase := if w = 0b01 then .lengthTest else .body
        dstate := if w = 0b11 then .expectTag else s.dstate } := by
  rcases cmd_cases w with rfl | rfl | rfl | rfl
  · show execRleCompress s = _
    simp [execRleCompress, hp, prologue_eq, hv]
  · show execRleDecompress s = _
    simp [execRleDecompress, hp, prologue_eq, hv]
  · show execLzCompress s = _
    simp [execLzCompress, hp, prologue_eq, hv]
  · show execLzDecompress s = _
    simp [execLzDecompress, hp, prologue_eq, hv]

end prologue

/-- Settles O9: what START leaves next, and the two outcomes of the prologue. -/
theorem thePrologueChecksForABuffer : Obligations.ThePrologueChecksForABuffer := by
  refine ⟨fun s t h => ?_, fun s w hp => ⟨fun hv => ?_, fun hv => ?_⟩⟩
  · obtain ⟨-, rfl⟩ := execStart_eq_next h
    exact ⟨rfl, fetch_prologue rfl⟩
  · exact ⟨_, execCommand_notBound hp hv w, failedWith_failed .., failed_workingRegs ..⟩
  · exact ⟨_, execCommand_bound hp hv w, rfl, rfl, rfl, rfl, (appended_of_outputView (vs := []) rfl).1,
      ⟨rfl, rfl, rfl, rfl, fun _ => rfl⟩, ⟨rfl, rfl, rfl, rfl, rfl⟩, ⟨⟨rfl, rfl⟩, rfl, rfl, rfl, rfl⟩, rfl, rfl, rfl, rfl,
      rfl⟩

/-! ### Completion -/

/-- Settles O11: the completing step of each command. -/
theorem completionOnlyWritesStatus : Obligations.CompletionOnlyWritesStatus :=
  fun _ w hp hl => execCommand_atEnd ⟨hp, hl⟩ w

/-! ### START without a buffer (R81, R191) -/

theorem step_reset {s : State} {rest : List Move} (ha : s.agenda = .host .reset :: rest) :
    step s = .next (resetState { s with agenda := rest }) := step_hostMove ha

/-- A START with no buffer bound ends at its prologue. -/
theorem runSteps_start_notBound {s : State} (hb : s.status ≠ .busy) (ha : s.agenda = [.host .start])
    (hv : s.inValid = false) : runSteps 2 s = .next (failed .invalidInput .notABuffer 0 0 0 (begun s)) := by
  have hprologue : step (begun s) = .next (failed .invalidInput .notABuffer 0 0 0 (begun s)) :=
    (step_busy rfl rfl).trans (execCommand_notBound (s := begun s) rfl hv _)
  rw [runSteps_succ, step_start hb ha, andThen_next, runSteps_succ, hprologue, andThen_next, runSteps_zero]

/-- Settles O47: after reset no buffer is bound. -/
theorem startRightAfterResetFails : Obligations.StartRightAfterResetFails := by
  intro s
  refine ⟨failed .invalidInput .notABuffer 0 0 0 (begun (resetState { s with agenda := [.host .start] })), ?_, rfl⟩
  rw [runSteps_succ, step_reset rfl, andThen_next]
  exact runSteps_start_notBound nofun rfl rfl

end Sys2Proof.Machine
end

section
/-! The HOST's side of the interface (R11 to R21, R28, R29, R40, R48): what its writes change and its reads yield while no
operation is in progress, reset (R190, R192), and how long a result stays readable (R15, R85). -/

namespace Sys2Proof.Machine

/-! ### Results -/

/-- Settles O40: every step but START and reset keeps the result. -/
theorem resultsPersistUntilStartOrReset : Obligations.ResultsPersistUntilStartOrReset := by
  intro s t hended h hstart hreset
  have hb : s.status ≠ .busy := by rcases hended with he | he <;> rw [he] <;> nofun
  obtain hkept | ⟨rest, ha, -⟩ | ⟨rest, ha, -⟩ := step_keeps_result hb h
  · exact hkept
  · exact absurd ha (hstart rest)
  · exact absurd ha (hreset rest)

/-- Settles O41: the tables of R15, R17, R18, R21 and R161. -/
theorem codesAndNumbersOfTheInterface : Obligations.CodesAndNumbersOfTheInterface := ⟨rfl, rfl, rfl, rfl⟩

/-! ### Writes -/

/-- A write through the `IN` window changes the byte it names (R28). -/
theorem inByte_write (s : State) (i : Nat) (v : Byte) (j : Nat) :
    inByte { s with inMem := Memory.write s.inMem i v } j = if j = i then v else inByte s j := by
  unfold inByte
  rw [Memory.read_write]
  split <;> rfl

/-- Settles O43: each write by its own rule. -/
theorem hostWritesChangeOneThing : Obligations.HostWritesChangeOneThing := by
  refine fun s hb => ⟨fun v => whenNotBusy_of_notBusy _ hb, fun v => whenNotBusy_of_notBusy _ hb, fun n hn => ?_,
    fun i v hcell => ⟨_, ?_, inByte_write s i v⟩, fun i v hcell => ?_⟩
  · exact (whenNotBusy_of_notBusy _ hb).trans (if_pos hn)
  · exact (whenNotBusy_of_notBusy _ hb).trans (if_pos hcell)
  · exact (whenNotBusy_of_notBusy _ hb).trans (if_neg (by rw [hcell]; nofun))

/-! ### Reads -/

section reads
variable {s : State} (hb : s.status ≠ .busy)
include hb

/-- A register but `OUT_LEN` is read as its value (R21). -/
theorem hostReadReg_of_notBusy {r : HostReg} {v : Nat} (hv : hostRegValue r s = some v) (hout : r ≠ .outLen) :
    hostReadReg r s = .next v := by
  rw [hostReadReg, hv]
  dsimp only
  split
  · rfl
  · rw [whenNotBusy_of_notBusy _ hb, if_neg fun h => hout h.1]

theorem hostReadReg_outLen :
    hostReadReg .outLen s = if s.status = .idle then .refused .noResultToRead else .next s.outLen := by
  refine (whenNotBusy_of_notBusy _ hb).trans ?_
  simp only [true_and]

theorem hostReadIn_eq (i : Nat) :
    hostReadIn i s = if Config.cellExists s.params.inCap i then .next (inByte s i) else .fault (.noSuchInCell i) :=
  whenNotBusy_of_notBusy _ hb

theorem hostReadOut_of_notDone (hd : s.status ≠ .done) (i : Nat) : hostReadOut i s = .refused .noResultToRead :=
  (whenNotBusy_of_notBusy _ hb).trans (if_neg hd)

theorem hostReadOut_of_done (hd : s.status = .done) (i : Nat) :
    hostReadOut i s = if Config.cellExists s.params.outCap i then .next (outByte s i) else .fault (.noSuchOutCell i) :=
  (whenNotBusy_of_notBusy _ hb).trans (if_pos hd)

end reads

/-- Settles O44: register by register, window by window, and the reads that yield nothing. -/
theorem hostReadsEveryRegister : Obligations.HostReadsEveryRegister := by
  intro s hb
  have hreg {r : HostReg} {v : Nat} (hv : hostRegValue r s = some v) (hout : r ≠ .outLen) :=
    hostReadReg_of_notBusy hb hv hout
  refine ⟨⟨hreg rfl nofun, hreg rfl nofun, hreg rfl nofun, hreg rfl nofun, hreg rfl nofun, hreg rfl nofun, hreg rfl nofun,
    hreg rfl nofun, hreg rfl nofun⟩, fun hended => ?outLen, fun i hcell => ?input, fun i hd hcell => ?output,
    ⟨fun r v hv => ?keepsReg, fun i v hv => ?keepsIn, fun i v hv => ?keepsOut⟩, ?start, fun hidle => ?noLength,
    fun i hd => ?noOutput, fun i hcell => ?noInCell, fun i hd hcell => ?noOutCell⟩
  case outLen =>
    rw [hostReadReg_outLen hb, if_neg]
    rcases hended with he | he <;> rw [he] <;> nofun
  case input => rw [hostReadIn_eq hb, if_pos hcell]
  case output => rw [hostReadOut_of_done hb hd, if_pos hcell]
  case keepsReg => rw [hostAct, hv, readOnly_next]
  case keepsIn => rw [hostAct, hv, readOnly_next]
  case keepsOut => rw [hostAct, hv, readOnly_next]
  case start => rw [hostAct, hostReadReg_start, readOnly_refused]
  case noLength => rw [hostAct, hostReadReg_outLen hb, if_pos hidle, readOnly_refused]
  case noOutput => rw [hostAct, hostReadOut_of_notDone hb hd, readOnly_refused]
  case noInCell => rw [hostAct, hostReadIn_eq hb, if_neg (by rw [hcell]; nofun), readOnly_fault]
  case noOutCell => rw [hostAct, hostReadOut_of_done hb hd, if_neg (by rw [hcell]; nofun), readOnly_fault]

/-! ### Reset -/

/-- Settles O45: the registers of R31 by their equations, and the machine at rest. -/
theorem resetGivesTheResetState : Obligations.ResetGivesTheResetState := fun s =>
  ⟨resetState s, rfl, reset_cmd, reset_inValid, reset_inLen, reset_status, reset_outLen, reset_errKind, reset_errCause,
    reset_errPos, reset_errInfo0, reset_errInfo1, rfl, rfl, rfl, fun ha => runSteps_idle (s := resetState s) ha nofun⟩

end Sys2Proof.Machine
end
